-- ==== Sys2Proof/Word.lean ====
section
/-! DEFINITION. The bytes and words of the block (spec rule R12: every value is unsigned, bit 0 is the
least significant bit). -/

namespace Sys2Proof

/-- A byte, 0..255 (R12). -/
abbrev Byte := BitVec 8

/-- A 32-bit identifier, pattern or mask (R48, R108). -/
abbrev Word := BitVec 32

/-- `Bytes(n)`: a byte sequence of length exactly `n` (R12). -/
abbrev Bytes (n : Nat) := Vector Byte n

/-- An opaque value: a device, a callback reference, a context, a descriptor. The block only copies it and
asks whether a callback is null. DESIGN CHOICE (log entry 10): 64 bits, and 0 is null. -/
abbrev Ref := BitVec 64

/-- A one-bit field as the low bit of a byte. -/
def bit (b : Bool) : Byte := if b then 1 else 0

end Sys2Proof
end

