-- ==== Sys2Proof/Config.lean ====
section
/-! DEFINITION. What an implementation fixes (spec rule R10) and the free values: the Transport's answers, the
outcome of INIT, the schedule, and a resolver the spec does not give. -/

namespace Sys2Proof

/-- Operating mode (R10, R196). Only `framed` has rules. -/
inductive Mode where
  | framed
  | raw
  deriving DecidableEq, Repr, Inhabited

/-- Byte order of the 4-byte identifier, `ID_ORDER` (R80). -/
inductive IdOrder where
  | le
  | be
  deriving DecidableEq, Repr, Inhabited

/-- The length resolver `RESOLVE` (R155), as plain data that names a function (log entry 6).
`custom k` names an arbitrary function, of which nothing is known. -/
inductive Resolver where
  /-- The CAN-over-SPI resolver: `none` for every window (R10). -/
  | can
  /-- `some n` for every window. -/
  | always (n : Nat)
  /-- `some n` when the window's byte at `offset` is `value`, else `none`. -/
  | whenByte (offset : Nat) (value : Byte) (n : Nat)
  /-- The `k`-th function of `Config.resolveFree`. -/
  | custom (k : Nat)
  deriving DecidableEq, Repr, Inhabited

/-- The parameters of R10. `FRAMECB` is `CAN_FRAMECB`, the only one the spec gives. The defaults are the
normative values of R10 and, for the open parameters, the values that `95_test_vectors.md` section 0 takes
(DESIGN CHOICE, log entry 5). -/
structure Config where
  /-- `HEAD`. -/
  head : Byte := 0x7E
  /-- `TAIL`. -/
  tail : Byte := 0x7D
  /-- `BASE_LEN`. -/
  baseLen : Nat := 16
  /-- `HDR`, of length `HDR_LEN`. -/
  hdr : List Byte := [0x7E]
  /-- `RESOLVE`. -/
  resolver : Resolver := .can
  /-- `N_CHAN`. -/
  nChan : Nat := 1
  /-- `LOCAL_CHAN`. -/
  localChan : Nat := 0
  /-- `RXQ_CAP`. -/
  rxqCap : Nat := 64
  /-- `TXQ_FRAMES`. -/
  txqFrames : Nat := 4
  /-- `FILTER_SLOTS`. -/
  filterSlots : Nat := 128
  /-- `IDLE_BACKOFF`, which no rule reads (R253). -/
  idleBackoff : Nat := 20
  /-- `MODE`. -/
  mode : Mode := .framed
  /-- `ID_ORDER`. -/
  idOrder : IdOrder := .le
  /-- `DESC`, the descriptor of the forwarding sink (R202). -/
  desc : Ref := 0
  deriving DecidableEq, Repr, Inhabited

/-- Who performs a step (R6). Any number of Producers. -/
inductive Agent where
  | worker
  | controller
  | producer (n : Nat)
  deriving DecidableEq, Repr, Inhabited

/-- One answer of the Transport: a failure, or success with 16 received bytes (R6, R219). -/
inductive XferAnswer where
  | failed
  | received (rx : Bytes 16)
  deriving DecidableEq, Repr, Inhabited

/-- One pick of the scheduler (R90): an agent issues a command at the command port, the Worker is given a
step, or the Controller's continuation `CLOSE.JOIN` is given one. -/
inductive Turn where
  | port (a : Agent) (bytes : List Byte)
  | worker
  | join
  deriving DecidableEq, Repr, Inhabited

/-- FREE VALUE: the Transport's `n`-th answer (R219: any value; log entry 8). -/
opaque Config.transport : Nat → XferAnswer

/-- FREE VALUE: the `n`-th outcome of INIT (R195: a draw; log entry 8). -/
opaque Config.initOutcome : Nat → Bool

/-- FREE VALUE: which step comes next (R90: any enabled step of any agent; log entry 7). -/
opaque Config.schedule : Nat → Turn

/-- FREE VALUE: a pure resolver function for each index (R155; log entry 6). -/
opaque Config.resolveFree : Nat → List Byte → Option Nat

end Sys2Proof
end

