-- ==== Sys2Proof/Syntax.lean ====
section
/-! DEFINITION. The operations of the block: one constructor of `Instr` for each row of
`spec/opcode_table.json`, with typed operands (spec rules R108, R112, R113). -/

namespace Sys2Proof

/-- The encoder's frame (R108). `dlc` is one byte here so that a value outside 0..8 can be issued, and is then
refused (R114); log entry 22. -/
structure CanFrame where
  id : Word
  dlc : Byte
  ext : Bool
  rem : Bool
  payload : Bytes 8
  deriving DecidableEq, Repr, Inhabited

/-- The decoder's frame: a 4-bit `dlc` (0..15) and the source channel (R108). -/
structure DecFrame where
  id : Word
  dlc : BitVec 4
  ext : Bool
  rem : Bool
  payload : Bytes 8
  chan : Bool
  deriving DecidableEq, Repr, Inhabited

/-- The fields of the table's WF.DATA and WF.REMOTE patterns (R100, R102, R106): everything but the fixed head,
tail and remote bits. `csum` is the checksum byte as it stands on the link, constrained by R130 and not by
the pattern. -/
structure WireFields where
  rsv : Bool
  chan : Bool
  ext : Bool
  dlc : BitVec 4
  id : Word
  payload : Bytes 8
  csum : Byte
  deriving DecidableEq, Repr, Inhabited

/-- Reason codes (R242). -/
inductive Reason where
  | head
  | tail
  | csum
  | remote
  | chan
  deriving DecidableEq, Repr, Inhabited

/-- The result of VERIFY (R117, R135). -/
inductive Verdict where
  | valid (f : DecFrame)
  | invalid (r : Reason)
  deriving DecidableEq, Repr, Inhabited

/-- One operation of the block (R112), or one WireFrame that a received sequence spells (R109). -/
inductive Instr where
  /-- INIT, 0x01 (R195). -/
  | init (dev : Ref)
  /-- CLOSE, 0x02 (R197). -/
  | close
  /-- GETDESC, 0x03 (R202). -/
  | getdesc
  /-- WRITE, 0x04 (R205). -/
  | write (frame : CanFrame) (chan : Byte)
  /-- REGISTER, 0x05 (R180). -/
  | register (pattern mask : Word) (ext : Bool) (cb ctx : Ref)
  /-- FEED, 0x06 (R150). -/
  | feed (chan : Byte) (bytes : List Byte)
  /-- CKSUM, 0x07 (R130). -/
  | cksum (bytes : List Byte)
  /-- ENCODE, 0x08 (R132). -/
  | encode (frame : CanFrame) (chan : Byte)
  /-- VERIFY, 0x09 (R135). -/
  | verify (bytes : List Byte)
  /-- TICK.TOP, 0x10 (R215). -/
  | tickTop
  /-- TICK.XFER, 0x11 (R219). -/
  | tickXfer
  /-- TICK.RX, 0x12 (R222). -/
  | tickRx
  /-- TICK.DECIDE, 0x13 (R225). -/
  | tickDecide
  /-- TICK.SLEEP, 0x14 (R228). -/
  | tickSleep
  /-- CLOSE.JOIN, 0x15 (R200). -/
  | closeJoin
  /-- EXTRACT, 0x16 (R152). -/
  | extract (chan : Byte)
  /-- FRAMECB, 0x17 (R160). -/
  | framecb (chan : Byte) (w : List Byte)
  /-- DISPATCH, 0x18 (R185). -/
  | dispatch (chan : Byte) (f : DecFrame)
  /-- Reserved operation codes (R115). -/
  | reserved00
  | reserved0A
  | reserved0B
  | reserved0C
  | reserved0D
  | reserved0E
  | reserved0F
  | reserved19
  | reserved1A
  | reserved1B
  | reserved1C
  | reserved1D
  | reserved1E
  | reserved1F
  /-- WF.DATA: a received data frame (R109). -/
  | wfData (f : WireFields)
  /-- WF.REMOTE: a received remote frame (R109). -/
  | wfRemote (f : WireFields)
  /-- WF.IDLE: a received idle sentinel (R105). -/
  | wfIdle (chan : Bool)
  deriving DecidableEq, Repr, Inhabited

/-- Where an operation's bits come from: the command port (R113) or the link (R100). -/
inductive Space where
  | command
  | link
  deriving DecidableEq, Repr

/-- The space of an instruction: the three WireFrame rows are read off the link, all others are commands. -/
def Instr.space : Instr → Space
  | .wfData _ | .wfRemote _ | .wfIdle _ => .link
  | .init _ | .close | .getdesc | .write .. | .register .. | .feed .. | .cksum _ | .encode .. | .verify _ => .command
  | .tickTop | .tickXfer | .tickRx | .tickDecide | .tickSleep | .closeJoin => .command
  | .extract _ | .framecb .. | .dispatch .. => .command
  | .reserved00 | .reserved0A | .reserved0B | .reserved0C | .reserved0D | .reserved0E | .reserved0F => .command
  | .reserved19 | .reserved1A | .reserved1B | .reserved1C | .reserved1D | .reserved1E | .reserved1F => .command

end Sys2Proof
end

