-- ==== Sys2Proof/Machine/Operands.lean ====
section
/-! DEFINITION. Every operand form: the fields of a 16-byte sequence (spec rule R107), the assembly of a frame
from its fields (R100, R102), the identifier's byte order (R80), and the operand domains (R114). -/

namespace Sys2Proof.Machine

/-- `head(w)` (R107). -/
def wireHead (w : Bytes 16) : Byte := w[0]

/-- The control byte at offset 1 (R102). -/
def wireCtrl (w : Bytes 16) : Byte := w[1]

/-- `dlc(w)`: control bits 3..0 (R102, R107). -/
def wireDlc (w : Bytes 16) : BitVec 4 := (wireCtrl w).extractLsb' 0 4

/-- `rem(w)`: control bit 4 (R102, R107). -/
def wireRem (w : Bytes 16) : Bool := (wireCtrl w).getLsbD 4

/-- `ext(w)`: control bit 5 (R102, R107). -/
def wireExt (w : Bytes 16) : Bool := (wireCtrl w).getLsbD 5

/-- `chan(w)`: control bit 6 (R102, R103, R107). -/
def wireChan (w : Bytes 16) : Bool := (wireCtrl w).getLsbD 6

/-- `rsv(w)`: control bit 7, which decode ignores (R110). -/
def wireRsv (w : Bytes 16) : Bool := (wireCtrl w).getLsbD 7

/-- The 32-bit value of four bytes, the first being the least significant (R80, R107). -/
def wordOfLE (b0 b1 b2 b3 : Byte) : Word :=
  b0.setWidth 32 ||| (b1.setWidth 32 <<< 8) ||| (b2.setWidth 32 <<< 16) ||| (b3.setWidth 32 <<< 24)

/-- The four bytes of an identifier, least significant first (R80). -/
def bytesOfLE (v : Word) : Bytes 4 :=
  #v[v.extractLsb' 0 8, v.extractLsb' 8 8, v.extractLsb' 16 8, v.extractLsb' 24 8]

/-- `id(w)` in the configured order: `LE` as R80 fixes it, or `BE` as R80 lets a model admit (log entry 29). -/
def wireId (o : IdOrder) (w : Bytes 16) : Word :=
  match o with
  | .le => wordOfLE w[2] w[3] w[4] w[5]
  | .be => wordOfLE w[5] w[4] w[3] w[2]

/-- The identifier's four bytes in link order (R80, R132). -/
def idBytes (o : IdOrder) (v : Word) : Bytes 4 :=
  match o with
  | .le => bytesOfLE v
  | .be => let b := bytesOfLE v; #v[b[3], b[2], b[1], b[0]]

/-- `payload(w)`: bytes 6..13 (R81, R107). -/
def wirePayload (w : Bytes 16) : Bytes 8 :=
  #v[w[6], w[7], w[8], w[9], w[10], w[11], w[12], w[13]]

/-- `tail(w)` (R107). -/
def wireTail (w : Bytes 16) : Byte := w[14]

/-- `csum(w)` (R107). -/
def wireCsum (w : Bytes 16) : Byte := w[15]

/-- The control byte from its fields (R102, R132). -/
def ctrlByte (rsv chan ext rem : Bool) (dlc : BitVec 4) : Byte :=
  (bit rsv <<< 7) ||| (bit chan <<< 6) ||| (bit ext <<< 5) ||| (bit rem <<< 4) ||| dlc.setWidth 8

/-- Bytes 0..14 of a frame, in offset order (R79, R100). -/
def frameBody (head ctrl : Byte) (id : Bytes 4) (p : Bytes 8) (tail : Byte) : Bytes 15 :=
  #v[head, ctrl, id[0], id[1], id[2], id[3], p[0], p[1], p[2], p[3], p[4], p[5], p[6], p[7], tail]

/-- Sixteen bytes from a list of sixteen. -/
def bytes16? (l : List Byte) : Option (Bytes 16) :=
  if h : l.length = 16 then some ⟨⟨l⟩, by simpa using h⟩ else none

/-- A channel-address operand as the bit the frame carries (R103). -/
def chanBit (c : Byte) : Bool := c.getLsbD 0

/-- R114: `frame.dlc <= 8` and `chan <= 1`, for WRITE and ENCODE. -/
def frameDomain (f : CanFrame) (chan : Byte) : Bool := f.dlc.toNat ≤ 8 && chan.toNat ≤ 1

/-- R114: `chan < N_CHAN`. -/
def chanDomain (nChan : Nat) (chan : Byte) : Bool := chan.toNat < nChan

/-- R114: CKSUM takes exactly 15 bytes. -/
def cksumDomain (b : List Byte) : Bool := b.length == 15

/-- R114: VERIFY takes exactly 16 bytes. -/
def verifyDomain (b : List Byte) : Bool := b.length == 16

/-- R114: REGISTER takes a non-null `cb`. -/
def cbDomain (cb : Ref) : Bool := cb != 0

/-- R112, R160: FRAMECB takes a window, which is at least `BASE_LEN` bytes long. It need not begin with HDR, as every
window from EXTRACT does, so that FRAMECB alone can report HEAD (DESIGN CHOICE, log entry 23). -/
def windowDomain (baseLen : Nat) (w : List Byte) : Bool := baseLen ≤ w.length

end Sys2Proof.Machine
end

