-- ==== Sys2Proof/Machine/Codec.lean ====
section
/-! DEFINITION. The WireCodec (spec file 41): the checksum, the encoder and the validator as pure functions of their
operands and the configuration, and the idle sentinel (R105). -/

namespace Sys2Proof.Machine

/-- `CKSUM(b)`: XOR of all the bytes, from 0 (R130). -/
def cksumOf (b : List Byte) : Byte := b.foldl (fun acc x => acc ^^^ x) 0

/-- A frame from its bytes 0..14: byte 15 is their checksum (R100). -/
def sealFrame (b : Bytes 15) : Bytes 16 := b.push (cksumOf b.toList)

/-- The control byte that ENCODE writes (R132): `(chan << 6) | (ext << 5) | (rem << 4) | dlc`. -/
def encodeCtrl (f : CanFrame) (chan : Byte) : Byte :=
  (chan <<< 6) ||| (bit f.ext <<< 5) ||| (bit f.rem <<< 4) ||| f.dlc

/-- `ENCODE(f, chan)` (R132). -/
def encodeFrame (c : Config) (f : CanFrame) (chan : Byte) : Bytes 16 :=
  sealFrame (frameBody c.head (encodeCtrl f chan) (idBytes c.idOrder f.id) f.payload c.tail)

/-- The frame that a valid sequence decodes to (R107, R135). -/
def decodedFrame (c : Config) (w : Bytes 16) : DecFrame where
  id := wireId c.idOrder w
  dlc := wireDlc w
  ext := wireExt w
  rem := wireRem w
  payload := wirePayload w
  chan := wireChan w

/-- `VERIFY(w)`: HEAD, then TAIL, then CSUM (R135). -/
def verifyFrame (c : Config) (w : Bytes 16) : Verdict :=
  if wireHead w ≠ c.head then .invalid .head
  else if wireTail w ≠ c.tail then .invalid .tail
  else if wireCsum w ≠ cksumOf (w.toList.take 15) then .invalid .csum
  else .valid (decodedFrame c w)

/-- `SENTINEL(ch)`: zeros, but byte 1 is `ch << 6` (R105). -/
def sentinel (ch : Byte) : Bytes 16 :=
  #v[0, ch <<< 6, 0, 0, 0, 0, 0, 0, 0, 0, 0, 0, 0, 0, 0, 0]

/-- The 16 bytes of a WF.DATA or WF.REMOTE row (R100, R102, R106): the table's fixed head and tail, its little-endian
identifier, and the checksum byte as given. -/
def wireBytes (rem : Bool) (f : WireFields) : Bytes 16 :=
  (frameBody 0x7E (ctrlByte f.rsv f.chan f.ext rem f.dlc) (bytesOfLE f.id) f.payload 0x7D).push f.csum

/-- The fields of a sequence, as the rows' patterns name them (R106, R107). -/
def wireFields (w : Bytes 16) : WireFields where
  rsv := wireRsv w
  chan := wireChan w
  ext := wireExt w
  dlc := wireDlc w
  id := wireId .le w
  payload := wirePayload w
  csum := wireCsum w

end Sys2Proof.Machine
end

