-- ==== Sys2Proof/WellFormed.lean ====
section
/-! DEFINITION. When an instruction's operands lie in their domains (spec rules R112, R114), and when a WireFrame row
carries the checksum that R130 asks of it. An ill-formed command is still issued and is refused by its
meaning, in the order of R249 (d). -/

namespace Sys2Proof

/-- The operand domains under configuration `c` (R112, R114), and the checksum constraint of the WireFrame rows
(R106, R130). -/
def Instr.wellFormed (c : Config) : Instr → Bool
  | .init _ | .close | .getdesc => true
  | .write f ch => Machine.frameDomain f ch
  | .register _ _ _ cb _ => Machine.cbDomain cb
  | .feed ch _ => Machine.chanDomain c.nChan ch
  | .cksum b => Machine.cksumDomain b
  | .encode f ch => Machine.frameDomain f ch
  | .verify b => Machine.verifyDomain b
  | .tickTop | .tickXfer | .tickRx | .tickDecide | .tickSleep | .closeJoin => true
  | .extract ch => Machine.chanDomain c.nChan ch
  | .framecb ch w => Machine.chanDomain c.nChan ch && Machine.windowDomain c.baseLen w
  | .dispatch ch _ => Machine.chanDomain c.nChan ch
  | .reserved00 | .reserved0A | .reserved0B | .reserved0C | .reserved0D | .reserved0E | .reserved0F => true
  | .reserved19 | .reserved1A | .reserved1B | .reserved1C | .reserved1D | .reserved1E | .reserved1F => true
  | .wfData f => f.csum == Machine.cksumOf ((Machine.wireBytes false f).toList.take 15)
  | .wfRemote f => f.csum == Machine.cksumOf ((Machine.wireBytes true f).toList.take 15)
  | .wfIdle _ => true

end Sys2Proof
end

