-- ==== Sys2Proof/Decode.lean ====
section
/-! DEFINITION. Decoding: from the bytes of one operation to a constructor of `Instr`, or a rejection by name; and the
encoder. The command byte is the spec's (rules R112, R113, R115). The spec packs no operands into bits (R113), so
the bytes after the command byte are the model's own layout (DESIGN CHOICE, log entry 9): fixed-width operands
little-endian in the order of R112, a bit as one byte 0 or 1, a byte sequence as a byte 1 before each of its
bytes and a byte 0 after the last. A WireFrame is its 16 bytes (R100). -/

namespace Sys2Proof

/-- Why bytes spell no operation. -/
inductive DecodeError where
  /-- There is no command byte. -/
  | empty
  /-- Bits 7..5 of the command byte are not 0 (R115). -/
  | opcode (b : Byte)
  /-- The bytes end inside an operand. -/
  | truncated
  /-- A byte for a one-bit operand is neither 0 nor 1. -/
  | badBit (b : Byte)
  /-- A byte for a 4-bit operand is above 15. -/
  | badNibble (b : Byte)
  /-- A byte before a sequence's byte is neither 0 nor 1. -/
  | badTag (b : Byte)
  /-- The 16 bytes fit no WireFrame row of the table (R109). -/
  | noFrame
  deriving DecidableEq, Repr, Inhabited

/-- A reader of operands: a value and the bytes after it. -/
abbrev Reader (α : Type) := List Byte → Except DecodeError (α × List Byte)

/-- The low `n` bytes of a number, least significant first. -/
def leBytes : Nat → Nat → List Byte
  | 0, _ => []
  | n + 1, v => BitVec.ofNat 8 v :: leBytes n (v / 256)

/-- The number that bytes spell, least significant first. -/
def leNat : List Byte → Nat
  | [] => 0
  | b :: t => b.toNat + 256 * leNat t

/-- Read one byte. -/
def readByte : Reader Byte
  | [] => .error .truncated
  | b :: t => .ok (b, t)

/-- Read `n` bytes. -/
def readList (n : Nat) : Reader (List Byte) := fun l =>
  if l.length < n then .error .truncated else .ok (l.take n, l.drop n)

/-- Read a little-endian word of `n` bytes. -/
def readWord (n : Nat) : Reader (BitVec (8 * n)) := fun l =>
  match readList n l with
  | .error e => .error e
  | .ok (b, t) => .ok (BitVec.ofNat (8 * n) (leNat b), t)

/-- Read a one-bit operand. -/
def readBit : Reader Bool
  | [] => .error .truncated
  | b :: t => if b = 0 then .ok (false, t) else if b = 1 then .ok (true, t) else .error (.badBit b)

/-- Read a 4-bit operand. -/
def readNibble : Reader (BitVec 4)
  | [] => .error .truncated
  | b :: t => if b.toNat < 16 then .ok (b.setWidth 4, t) else .error (.badNibble b)

/-- Read a byte sequence of any length. -/
def readSeq : Reader (List Byte)
  | [] => .error .truncated
  | [t] => if t = 0 then .ok ([], []) else if t = 1 then .error .truncated else .error (.badTag t)
  | t :: b :: l =>
    if t = 0 then .ok ([], b :: l)
    else if t = 1 then
      match readSeq l with
      | .error e => .error e
      | .ok (s, l') => .ok (b :: s, l')
    else .error (.badTag t)

/-- Read a payload of 8 bytes (R108). -/
def readPayload : Reader (Bytes 8)
  | p0 :: p1 :: p2 :: p3 :: p4 :: p5 :: p6 :: p7 :: t => .ok (#v[p0, p1, p2, p3, p4, p5, p6, p7], t)
  | _ => .error .truncated

/-- Read a CanFrame operand: id, dlc, ext, rem, payload (R108). -/
def readCanFrame : Reader CanFrame := fun l => do
  let (id, l) ← readWord 4 l
  let (dlc, l) ← readByte l
  let (ext, l) ← readBit l
  let (rem, l) ← readBit l
  let (p, l) ← readPayload l
  .ok (⟨id, dlc, ext, rem, p⟩, l)

/-- Read a DecFrame operand: id, dlc, ext, rem, payload, chan (R108). -/
def readDecFrame : Reader DecFrame := fun l => do
  let (id, l) ← readWord 4 l
  let (dlc, l) ← readNibble l
  let (ext, l) ← readBit l
  let (rem, l) ← readBit l
  let (p, l) ← readPayload l
  let (ch, l) ← readBit l
  .ok (⟨id, dlc, ext, rem, p, ch⟩, l)

/-- Read REGISTER's operands (R180). -/
def readRegister : Reader Instr := fun l => do
  let (pattern, l) ← readWord 4 l
  let (mask, l) ← readWord 4 l
  let (ext, l) ← readBit l
  let (cb, l) ← readWord 8 l
  let (ctx, l) ← readWord 8 l
  .ok (.register pattern mask ext cb ctx, l)

/-- Read a frame and a channel, the operands of WRITE and ENCODE (R205, R132). -/
def readFrameChan (k : CanFrame → Byte → Instr) : Reader Instr := fun l => do
  let (f, l) ← readCanFrame l
  let (ch, l) ← readByte l
  .ok (k f ch, l)

/-- Read a channel and a byte sequence, the operands of FEED and FRAMECB (R150, R160). -/
def readChanSeq (k : Byte → List Byte → Instr) : Reader Instr := fun l => do
  let (ch, l) ← readByte l
  let (s, l) ← readSeq l
  .ok (k ch s, l)

/-- Read a byte sequence, the operand of CKSUM and VERIFY (R130, R135). -/
def readOneSeq (k : List Byte → Instr) : Reader Instr := fun l => do
  let (s, l) ← readSeq l
  .ok (k s, l)

/-- Read INIT's operand (R195). -/
def readInit : Reader Instr := fun l => do
  let (dev, l) ← readWord 8 l
  .ok (.init dev, l)

/-- Read EXTRACT's operand (R152). -/
def readExtract : Reader Instr := fun l => do
  let (ch, l) ← readByte l
  .ok (.extract ch, l)

/-- Read DISPATCH's operands (R185). -/
def readDispatch : Reader Instr := fun l => do
  let (ch, l) ← readByte l
  let (f, l) ← readDecFrame l
  .ok (.dispatch ch f, l)

/-- An operation without operands. -/
def readNone (i : Instr) : Reader Instr := fun l => .ok (i, l)

/-- The reader of an operation's operands by its 5-bit code (R112). Every code has a row. -/
def readOperands (op : Nat) : Reader Instr :=
  match op with
  | 0x00 => readNone .reserved00
  | 0x01 => readInit
  | 0x02 => readNone .close
  | 0x03 => readNone .getdesc
  | 0x04 => readFrameChan .write
  | 0x05 => readRegister
  | 0x06 => readChanSeq .feed
  | 0x07 => readOneSeq .cksum
  | 0x08 => readFrameChan .encode
  | 0x09 => readOneSeq .verify
  | 0x0A => readNone .reserved0A
  | 0x0B => readNone .reserved0B
  | 0x0C => readNone .reserved0C
  | 0x0D => readNone .reserved0D
  | 0x0E => readNone .reserved0E
  | 0x0F => readNone .reserved0F
  | 0x10 => readNone .tickTop
  | 0x11 => readNone .tickXfer
  | 0x12 => readNone .tickRx
  | 0x13 => readNone .tickDecide
  | 0x14 => readNone .tickSleep
  | 0x15 => readNone .closeJoin
  | 0x16 => readExtract
  | 0x17 => readChanSeq .framecb
  | 0x18 => readDispatch
  | 0x19 => readNone .reserved19
  | 0x1A => readNone .reserved1A
  | 0x1B => readNone .reserved1B
  | 0x1C => readNone .reserved1C
  | 0x1D => readNone .reserved1D
  | 0x1E => readNone .reserved1E
  | 0x1F => readNone .reserved1F
  | n => fun _ => .error (.opcode (BitVec.ofNat 8 n))

/-- Bits 7..5 of a command byte are 0 (R113). -/
def commandByteOk (b : Byte) : Bool := b.extractLsb' 5 3 == 0

/-- Bits 4..0 of a command byte: the operation code (R113). -/
def commandOp (b : Byte) : Nat := (b.extractLsb' 0 5).toNat

/-- Decode one command: its command byte, then its operands (R113). -/
def decodeCommand : Reader Instr
  | [] => .error .empty
  | b :: l => if commandByteOk b then readOperands (commandOp b) l else .error (.opcode b)

/-- Which WireFrame row a 16-byte sequence fits (R105, R106, R109): the fixed head, tail and remote bit, or the
idle sentinel. The checksum is judged where the frame is used (R135), not by the pattern (R106). -/
def decodeFrame (w : Bytes 16) : Option Instr :=
  if Machine.wireHead w = 0x7E ∧ Machine.wireTail w = 0x7D then
    some (if Machine.wireRem w then .wfRemote (Machine.wireFields w) else .wfData (Machine.wireFields w))
  else if w = Machine.sentinel 0 then some (.wfIdle false)
  else if w = Machine.sentinel 1 then some (.wfIdle true)
  else none

/-- Decode one WireFrame: 16 bytes (R100). -/
def decodeLink : Reader Instr := fun l =>
  match Machine.bytes16? (l.take 16) with
  | none => .error .truncated
  | some w =>
    match decodeFrame w with
    | none => .error .noFrame
    | some i => .ok (i, l.drop 16)

/-- Decode one operation from its space. -/
def decode : Space → Reader Instr
  | .command => decodeCommand
  | .link => decodeLink

/-- A one-bit operand as its byte. -/
def putBit (b : Bool) : Byte := if b then 1 else 0

/-- A byte sequence as the layout holds it. -/
def putSeq : List Byte → List Byte
  | [] => [0]
  | b :: t => 1 :: b :: putSeq t

/-- A CanFrame operand. -/
def putCanFrame (f : CanFrame) : List Byte :=
  leBytes 4 f.id.toNat ++ f.dlc :: putBit f.ext :: putBit f.rem :: f.payload.toList

/-- A DecFrame operand. -/
def putDecFrame (f : DecFrame) : List Byte :=
  leBytes 4 f.id.toNat ++ f.dlc.setWidth 8 :: putBit f.ext :: putBit f.rem :: (f.payload.toList ++ [putBit f.chan])

/-- The encoder: the bytes of an operation, from the table of R112 and the layout of R100. -/
def encode : Instr → List Byte
  | .init dev => 0x01 :: leBytes 8 dev.toNat
  | .close => [0x02]
  | .getdesc => [0x03]
  | .write f ch => 0x04 :: (putCanFrame f ++ [ch])
  | .register p m e cb ctx =>
    0x05 :: (leBytes 4 p.toNat ++ leBytes 4 m.toNat ++ putBit e :: (leBytes 8 cb.toNat ++ leBytes 8 ctx.toNat))
  | .feed ch s => 0x06 :: ch :: putSeq s
  | .cksum s => 0x07 :: putSeq s
  | .encode f ch => 0x08 :: (putCanFrame f ++ [ch])
  | .verify s => 0x09 :: putSeq s
  | .tickTop => [0x10]
  | .tickXfer => [0x11]
  | .tickRx => [0x12]
  | .tickDecide => [0x13]
  | .tickSleep => [0x14]
  | .closeJoin => [0x15]
  | .extract ch => [0x16, ch]
  | .framecb ch w => 0x17 :: ch :: putSeq w
  | .dispatch ch f => 0x18 :: ch :: putDecFrame f
  | .reserved00 => [0x00]
  | .reserved0A => [0x0A]
  | .reserved0B => [0x0B]
  | .reserved0C => [0x0C]
  | .reserved0D => [0x0D]
  | .reserved0E => [0x0E]
  | .reserved0F => [0x0F]
  | .reserved19 => [0x19]
  | .reserved1A => [0x1A]
  | .reserved1B => [0x1B]
  | .reserved1C => [0x1C]
  | .reserved1D => [0x1D]
  | .reserved1E => [0x1E]
  | .reserved1F => [0x1F]
  | .wfData f => (Machine.wireBytes false f).toList
  | .wfRemote f => (Machine.wireBytes true f).toList
  | .wfIdle ch => (Machine.sentinel (putBit ch)).toList

/-- The bytes of an instruction given as a number: byte 0 is bits 7..0 (the table's numbering), then zeros, enough for
the fixed-width operands of every command. -/
def tableBytes (nbits w : Nat) : List Byte := leBytes (nbits / 8) w ++ List.replicate 48 0

/-- The space of a table row: a WireFrame row has 128 bits, a command row 8. -/
def tableSpace (nbits : Nat) : Space := if nbits < 128 then .command else .link

/-- What the decoder reads from an instruction whose bits are `w`, numbered as the opcode table numbers them. -/
def decodeTableWord (nbits w : Nat) : Option Instr :=
  match decode (tableSpace nbits) (tableBytes nbits w) with
  | .ok (i, _) => some i
  | .error _ => none

end Sys2Proof
end

