-- ==== Sys2Proof/Machine/State.lean ====
section
/-! DEFINITION. The state of the block (spec rule R30) as plain data, with the fields of the model's own that carry the
configuration, the schedule, the draws and the results (INVENTORY.md, '## State'). -/

namespace Sys2Proof.Machine

/-- `life` (R31). -/
inductive Life where
  | uninit
  | running
  | failed
  | closed
  deriving DecidableEq, Repr, Inhabited

/-- `ls`, the exchange loop's state (R40). -/
inductive LoopState where
  | off
  | draining
  | idle
  | stopped
  deriving DecidableEq, Repr, Inhabited

/-- `ph`, the phase within a tick (R41). -/
inductive Phase where
  | top
  | xfer
  | rx
  | decide
  | sleep
  deriving DecidableEq, Repr, Inhabited

/-- `txkind` (R44). -/
inductive TxKind where
  | frame
  | idle
  deriving DecidableEq, Repr, Inhabited

/-- The byte sequence of a ByteQueue, offset 0 the oldest (R70). Its capacity is a parameter. -/
abbrev ByteQueue := List Byte

/-- One FrameAssembler (R36). -/
structure AsmState where
  q : ByteQueue := []
  consumed : Nat := 0
  extra : Nat := 0
  resolved : Bool := false
  deriving DecidableEq, Repr, Inhabited

/-- A used filter slot: `valid = 1` and the other fields of R48. -/
structure FilterEntry where
  pattern : Word
  mask : Word
  ext : Bool
  cb : Ref
  ctx : Ref
  deriving DecidableEq, Repr, Inhabited

/-- The filter table (R47), slot 0 first: a slot with `valid = 0` is `none`, since its other fields have no value (R58;
log entry 20). It has `FILTER_SLOTS` slots, which is an invariant (`TableInv`). -/
abbrev FilterTable := List (Option FilterEntry)

/-- The events of R241. -/
inductive Event where
  | corrupt (chan offset : Nat) (got dropped : Byte)
  | badFrame (chan : Nat) (reason : Reason)
  | rxDiscard (reason : Reason)
  | unknownId (chan : Nat) (id : Word)
  | xferFail
  | rxOverflow (chan len : Nat)
  | deliver (slot : Nat) (cb ctx : Ref) (chan : Nat) (frame : DecFrame)
  | xfer (tx : Bytes 16) (kind : TxKind) (ok : Bool) (rx : Option (Bytes 16))
  deriving DecidableEq, Repr, Inhabited

/-- The model faults of R245. A fault is recorded in `State.faults` and stops the agent that raised it, while the
others go on: the spec gives it an effect, so `exec` answers it as a next state (log entry 2). -/
inductive Fault where
  /-- `F_INTERNAL`: raised by a primitive whose precondition fails (R77), a counter that would underflow (R13), a read
  of state without a value (R58), by EXTRACT, FRAMECB, FEED, TICK.XFER and TICK.RX. Safe: no rule of the spec reaches it
  (R245; `step_not_internal`). -/
  | internal
  /-- `F_ASM_OVERSIZE(c)`: raised by EXTRACT when `BASE_LEN + extra > RXQ_CAP` (R156). Unsafe in what the other fields
  hold after it, which no rule pins (log entry 2). -/
  | asmOversize (chan : Nat)
  deriving DecidableEq, Repr, Inhabited

/-- The refusals of R246. A refusal sets the sticky mark and changes nothing else: `exec` answers it as a next state
(log entry 1). -/
inductive RefReason where
  | opcode
  | internal
  | state
  | operand
  | mode
  | config
  deriving DecidableEq, Repr, Inhabited

/-- The reasons for which `step` or `exec` gives no next state at all. -/
inductive Refusal where
  /-- An instruction without a meaning yet, raised by an arm of `exec`. Safe: nothing is claimed. -/
  | notModelled (mnemonic : String)
  /-- The bytes after a command byte spell no operands in the model's own layout, raised by `step` (log entry 27). Safe:
  nothing is claimed. -/
  | operandBytes (e : DecodeError)
  deriving DecidableEq, Repr, Inhabited

/-- The outcome of an extraction attempt (R112, R152). -/
inductive Extracted where
  | incomplete
  | corrupt
  | complete
  deriving DecidableEq, Repr, Inhabited

/-- What an operation gives back (R112, R117), and how it ended otherwise (R245, R246, R247). -/
inductive Answer where
  /-- No value: the operation returns none. -/
  | none
  | ok
  | fail
  | okSlot (slot : Nat)
  | accepted
  | rejected
  | verdict (v : Verdict)
  | byte (b : Byte)
  | bytes (w : Bytes 16)
  | desc (d : Ref)
  | extracted (r : Extracted)
  /-- Refused, with the reason of R246. -/
  | refused (r : RefReason)
  /-- Held: no step (R247). -/
  | held
  /-- The step ended in a fault (R245). -/
  | faulted (k : Fault)
  deriving DecidableEq, Repr, Inhabited

/-- Who performs the operation that runs now (R112, R116): an agent at the command port, or the block itself. -/
inductive Issuer where
  | port (a : Agent)
  | block
  deriving DecidableEq, Repr, Inhabited

/-- One thing that happens next: a command at the command port, an internal step or sub-operation the block performs, or
the Worker's judgement of the WireFrame that stands in `rxbuf` (R109, R222). -/
inductive Input where
  | port (a : Agent) (bytes : List Byte)
  | block (bytes : List Byte)
  | frame
  deriving DecidableEq, Repr, Inhabited

/-- The state record of R30, and the model's own fields after it. -/
structure State where
  /-- R31. -/
  life : Life
  /-- R32. -/
  shutdown : Bool
  /-- The OutboundQueue, R34. -/
  txq : ByteQueue
  /-- One assembler for each channel address below `N_CHAN`, R36. -/
  asm : List AsmState
  /-- R40. -/
  ls : LoopState
  /-- R41. -/
  ph : Phase
  /-- R43. `none` is the spec's "no value". -/
  txbuf : Option (Bytes 16)
  /-- R44. -/
  txkind : Option TxKind
  /-- R45. -/
  rxbuf : Option (Bytes 16)
  /-- R46. -/
  rxNew : Bool
  /-- The FilterRegistry, R47. -/
  ft : FilterTable
  /-- R50, oldest event first. -/
  evlog : List Event
  /-- R51, a set held in rising order of `faultKey` (log entry 19). -/
  faults : List Fault
  /-- R51. -/
  refused : Bool
  /-- Model's own: the configuration, which no step changes (R7, R52; log entry 5). -/
  cfg : Config
  /-- Model's own: the agents that raised a fault and take no further step (R245), a set in rising order of `agentKey`. -/
  halted : List Agent
  /-- Model's own: what happens next, oldest first (R90; log entry 7). -/
  inbox : List Input
  /-- Model's own: who performs the operation that runs now (R116). -/
  issuer : Issuer
  /-- Model's own: what the last operation gave back (R9, R117). -/
  answer : Answer
  /-- Model's own: Transport answers already given, oldest first (R219; log entry 8). -/
  xferIn : List XferAnswer
  /-- Model's own: outcomes of INIT already given, oldest first (R195; log entry 8). -/
  initIn : List Bool
  /-- Model's own: how many free values have been drawn (log entry 8). -/
  draws : Nat
  deriving DecidableEq, Repr

/-- The block right after construction with configuration `c` (R57, R270). -/
def State.initial (c : Config) : State where
  life := .uninit
  shutdown := false
  txq := []
  asm := List.replicate c.nChan {}
  ls := .off
  ph := .top
  txbuf := none
  txkind := none
  rxbuf := none
  rxNew := false
  ft := List.replicate c.filterSlots none
  evlog := []
  faults := []
  refused := false
  cfg := c
  halted := []
  inbox := []
  issuer := .block
  answer := .none
  xferIn := []
  initIn := []
  draws := 0

/-- The machine right after reset (R57, R270), with the configuration of `95_test_vectors.md` section 0
(log entry 5). -/
def State.reset : State := State.initial {}

end Sys2Proof.Machine
end

