-- ==== Sys2Proof/Machine/Flags.lean ====
section
/-! DEFINITION. Every flag of the block (spec rule R54): `shutdown`, `rx_new`, `asm[c].resolved`, `FT[i].valid` and
`refused`. The block has no condition codes, so no operation computes a flag from a result. -/

namespace Sys2Proof.Machine

/-- Write `shutdown` (R32). -/
def putShutdown (b : Bool) (s : State) : State := { s with shutdown := b }

/-- Write `rx_new` (R46). -/
def putRxNew (b : Bool) (s : State) : State := { s with rxNew := b }

/-- Set the sticky mark `refused` (R51, R246). -/
def markRefused (s : State) : State := { s with refused := true }

/-- `FT[i].valid` of a slot (R48). -/
def slotValid (e : Option FilterEntry) : Bool := e.isSome

/-- Set `resolved` and the extra length that the resolver reported (R155). -/
def markResolved (extra : Nat) (a : AsmState) : AsmState := { a with resolved := true, extra := extra }

end Sys2Proof.Machine
end

