-- ==== Sys2Proof/Machine/Ops.lean ====
section
/-! DEFINITION. The shared operations: the ByteQueue primitives (spec rules R70..R77), events (R240), faults, refusals and
holds (R245..R249: all the block has in the place of exceptions, R244), admission (R250), enabling (R210), who issues what
(R6, R112), draws (R52), the configuration's checks (R11) and the frame every meaning runs in. -/

namespace Sys2Proof.Machine

/-! ### ByteQueue primitives -/

/-- `COUNT(Q)` (R74). -/
def count (q : ByteQueue) : Nat := q.length

/-- `ENQ(Q, s)`: all or nothing; `none` when it does not fit (R71, R77). -/
def enq (cap : Nat) (q : ByteQueue) (s : List Byte) : Option ByteQueue :=
  if count q + s.length ≤ cap then some (q ++ s) else none

/-- `DEQ(Q, n)`: the oldest `n` bytes and the rest; `none` when there are fewer (R72, R77). -/
def deq (q : ByteQueue) (n : Nat) : Option (List Byte × ByteQueue) :=
  if n ≤ count q then some (q.take n, q.drop n) else none

/-- `DEQ(Q, 16)` as the frame it takes; `none` when the queue holds no whole frame (R72, R84). -/
def deqFrame (q : ByteQueue) : Option (Bytes 16 × ByteQueue) :=
  (deq q 16).bind fun p => (bytes16? p.1).map fun w => (w, p.2)

/-- `PEEK(Q, k)`; `none` when `k` is not below the count (R73, R77). -/
def peek (q : ByteQueue) (k : Nat) : Option Byte := q[k]?

/-- `DROP(Q, n)`: DEQ without its result (R75). -/
def dropFront (q : ByteQueue) (n : Nat) : Option ByteQueue := (deq q n).map (·.2)

/-- `WINDOW(Q, k, n)`; `none` when the queue is shorter than `k + n` (R76, R77). -/
def window (q : ByteQueue) (k n : Nat) : Option (List Byte) :=
  if k + n ≤ count q then some ((q.drop k).take n) else none

/-! ### Events, faults, refusals, holds -/

/-- `emit E` (R14, R240). -/
def emit (e : Event) (s : State) : State := { s with evlog := s.evlog ++ [e] }

/-- The event codes of R241. -/
def eventCode : Event → Nat
  | .corrupt .. => 0x01
  | .badFrame .. => 0x02
  | .rxDiscard _ => 0x03
  | .unknownId .. => 0x04
  | .xferFail => 0x05
  | .rxOverflow .. => 0x06
  | .deliver .. => 0x07
  | .xfer .. => 0x08

/-- The reason codes of R242. -/
def reasonCode : Reason → Nat
  | .head => 1
  | .tail => 2
  | .csum => 3
  | .remote => 4
  | .chan => 5

/-- Give the result of an operation (R9, R117). -/
def give (a : Answer) (s : State) : State := { s with answer := a }

/-- Order of faults in the set. -/
def faultKey : Fault → Nat
  | .internal => 0
  | .asmOversize c => c + 1

/-- Order of agents in the set of halted ones. -/
def agentKey : Agent → Nat
  | .worker => 0
  | .controller => 1
  | .producer n => n + 2

/-- Add an element to a set held in rising order of a key. -/
def setInsert {α : Type} (key : α → Nat) (x : α) : List α → List α
  | [] => [x]
  | y :: t =>
    if key x < key y then x :: y :: t
    else if key x = key y then y :: t
    else y :: setInsert key x t

/-- Agent `a` raises fault `k`: the fault is recorded in the sticky set and `a` takes no further step (R245). -/
def raiseFault (k : Fault) (a : Agent) (s : State) : State :=
  { s with faults := setInsert faultKey k s.faults, halted := setInsert agentKey a s.halted, answer := .faulted k }

/-- A refusal: the sticky mark is set, nothing else of the spec's state changes, and the reason is reported (R246). -/
def refuse (r : RefReason) (s : State) : State := give (.refused r) (markRefused s)

/-- A held agent: no step, nothing of the spec's state changes (R247). -/
def hold (s : State) : State := give .held s

/-- A computation inside one atomic step: it ends with a result, or a fault preempts the rest (R249 (e)). -/
inductive Flow (α : Type) where
  | ok (a : α) (s : State)
  | stop (k : Fault) (s : State)

/-- Change the result of a computation. -/
def Flow.map {α β : Type} (f : α → β) : Flow α → Flow β
  | .ok a s => .ok (f a) s
  | .stop k s => .stop k s

/-- The end of agent `a`'s step: its result is given, or its fault is recorded. -/
def finish (a : Agent) : Flow Answer → Host.Outcome State Fault Refusal
  | .ok r s => .next (give r s)
  | .stop k s => .next (raiseFault k a s)

/-! ### The configuration -/

/-- The constraints of R11. -/
def configOk (c : Config) : Bool :=
  1 ≤ c.hdr.length && c.hdr.length ≤ c.baseLen && 16 ≤ c.baseLen && c.baseLen ≤ c.rxqCap && 1 ≤ c.txqFrames
    && (c.nChan == 1 || c.nChan == 2) && c.localChan ≤ 1 && c.head != c.tail && c.head != 0

/-- Construction of a block (R270): refused as a whole when the configuration breaks R11. -/
def construct (c : Config) : Except RefReason State :=
  if configOk c then .ok (State.initial c) else .error .config

/-- `RESOLVE` (R155): the extra length for the first `BASE_LEN` bytes of a candidate. -/
def resolve (r : Resolver) (w : List Byte) : Option Nat :=
  match r with
  | .can => none
  | .always n => some n
  | .whenByte k v n => if w[k]? = some v then some n else none
  | .custom k => Config.resolveFree k w

/-! ### Draws -/

/-- The Transport's answer to one exchange (R219): the oldest one already given, else a free value. -/
def drawXfer (s : State) : XferAnswer × State :=
  match s.xferIn with
  | a :: t => (a, { s with xferIn := t })
  | [] => (Config.transport s.draws, { s with draws := s.draws + 1 })

/-- The outcome of INIT (R195): the oldest one already given, else a free value. -/
def drawInit (s : State) : Bool × State :=
  match s.initIn with
  | b :: t => (b, { s with initIn := t })
  | [] => (Config.initOutcome s.draws, { s with draws := s.draws + 1 })

/-! ### Assemblers -/

/-- An assembler at rest with the bytes `q` in its queue (R37: consumed, extra and resolved are zero). -/
def idleAsm (q : ByteQueue) : AsmState := { q := q }

/-- Write `asm[c]`. -/
def putAsm (c : Nat) (a : AsmState) (s : State) : State := { s with asm := s.asm.set c a }

/-! ### Admission by lifecycle state (R250) -/

/-- INIT: only in UNINIT (R195). -/
def admitInit (s : State) : Bool := s.life == .uninit

/-- CLOSE: only in RUNNING with `shutdown = 0` (R197). -/
def admitClose (s : State) : Bool := s.life == .running && !s.shutdown

/-- GETDESC: only in RUNNING (R202). -/
def admitGetdesc (s : State) : Bool := s.life == .running

/-- WRITE: only in RUNNING (R205). -/
def admitWrite (s : State) : Bool := s.life == .running

/-- REGISTER: in every state but RUNNING (R180). -/
def admitRegister (s : State) : Bool := s.life != .running

/-- FEED as a command: in every state but RUNNING. The FEED of a running link is TICK.RX's own and no step by itself (R150,
R250); TICK.RX calls `feed`. -/
def admitFeed (s : State) : Bool := s.life != .running

/-! ### Enabling of the block's own steps -/

/-- The Worker has been started and has not stopped (R210). -/
def loopActive (s : State) : Bool := s.ls == .draining || s.ls == .idle

/-- The Worker step of phase `p` is enabled (R210): the row's phase, and a running loop. -/
def phaseEnabled (p : Phase) (s : State) : Bool := s.ph == p && loopActive s

/-- A sub-operation may be performed alone where the Controller's standalone FEED may run (R150; DESIGN CHOICE, log entry 12).
While RUNNING it runs only inside TICK.RX, whose step performs it by calling `feed` (R92, D24), and never alone. -/
def subEnabled (s : State) : Bool := s.life != .running

/-! ### Who issues a command -/

/-- Commands of the Controller (R6, R112). -/
def isController (a : Agent) : Bool := a == .controller

/-- Commands of a Producer (R6, R112). -/
def isProducer : Agent → Bool
  | .producer _ => true
  | .worker => false
  | .controller => false

/-- Commands of any agent (R112), the Worker among them while its loop runs (DESIGN CHOICE, log entry 26). -/
def anyAgent (_ : Agent) : Bool := true

/-- The operation stands at the command port, by an agent that R6 and R112 give it to. The block issues no command. -/
def mayIssue (who : Agent → Bool) (s : State) : Bool :=
  match s.issuer with
  | .port a => who a
  | .block => false

/-! ### The frame of every meaning -/

/-- The agent on whose behalf the block performs a sub-operation: the Worker while RUNNING, else the Controller (R98, R150;
log entry 24). -/
def runner (s : State) : Agent := if s.life = .running then .worker else .controller

/-- The agent that performs the current operation. -/
def performer (s : State) : Agent :=
  match s.issuer with
  | .port a => a
  | .block => runner s

/-- Agent `a` takes no step at all: it has faulted (R245), or it is the Worker and its loop is off or has stopped, whatever
the operation and wherever it is issued (R210, R247). -/
def stalled (a : Agent) (s : State) : Bool := decide (a ∈ s.halted) || (a == .worker && !loopActive s)

/-- The first refusal that applies, after those that the command byte alone decides (R249 (d); the place of REF_CONFIG and
REF_MODE is DESIGN CHOICE, log entry 14). -/
def refusalOf (s : State) (admitted inDomain : Bool) : Option RefReason :=
  if !configOk s.cfg then some .config
  else if s.cfg.mode ≠ .framed then some .mode
  else if !admitted then some .state
  else if !inDomain then some .operand
  else none

/-- A command (R112): held when its agent takes no step, or when the agent is not one that R6 and R112 give it to, whose step
it then is not (R247; DESIGN CHOICE, log entry 26); refused when a refusal applies; else performed. -/
def command (s : State) (who : Agent → Bool) (admitted inDomain : Bool) (body : State → Flow Answer) :
    Host.Outcome State Fault Refusal :=
  if stalled (performer s) s then .next (hold s)
  else if mayIssue who s then
    match refusalOf s admitted inDomain with
    | some r => .next (refuse r s)
    | none => finish (performer s) (body s)
  else .next (hold s)

/-- A step that the block itself performs for agent `a`: held when `a` takes no step or this one is not enabled (R245, R247),
whatever its operands; refused when a refusal applies (log entries 14 and 23); else performed. -/
def blockStep (s : State) (a : Agent) (enabled inDomain : Bool) (body : State → Flow Answer) :
    Host.Outcome State Fault Refusal :=
  if stalled a s || !enabled then .next (hold s)
  else
    match refusalOf s true inDomain with
    | some r => .next (refuse r s)
    | none => finish a (body s)

/-- A refusal that the command byte alone decides: REF_OPCODE or REF_INTERNAL (R115, R116, R249 (d)). -/
def refuseByByte (r : RefReason) (s : State) : Host.Outcome State Fault Refusal :=
  if stalled (performer s) s then .next (hold s) else .next (refuse r s)

/-- An internal code (0x10..0x18): refused REF_INTERNAL at the command port (R116), else a step of the block. -/
def internalStep (s : State) (a : Agent) (enabled inDomain : Bool) (body : State → Flow Answer) :
    Host.Outcome State Fault Refusal :=
  match s.issuer with
  | .port _ => refuseByByte .internal s
  | .block => blockStep s a enabled inDomain body

end Sys2Proof.Machine
end

