-- ==== Sys2Proof/Machine/Filter.lean ====
section
/-! DEFINITION. The FilterRegistry (spec file 43): REGISTER and DISPATCH. -/

namespace Sys2Proof.Machine

/-- `match(id, e)` on 32 bits (R187). The entry's `ext` is not consulted (R188). -/
def entryMatches (id : Word) (e : FilterEntry) : Bool := (id &&& e.mask) == e.pattern

/-- The lowest unused slot of a table whose first slot has index `i` (R180). -/
def freeSlot (i : Nat) : List (Option FilterEntry) → Option Nat
  | [] => none
  | e :: t => if slotValid e then freeSlot (i + 1) t else some i

/-- The first used slot that matches, with its entry, in increasing slot index (R181, R185). -/
def firstMatch (id : Word) (i : Nat) : List (Option FilterEntry) → Option (Nat × FilterEntry)
  | [] => none
  | none :: t => firstMatch id (i + 1) t
  | some e :: t => if entryMatches id e then some (i, e) else firstMatch id (i + 1) t

/-- Write slot `i` (R180). -/
def putSlot (i : Nat) (e : FilterEntry) (s : State) : State := { s with ft := s.ft.set i (some e) }

/-- The body of REGISTER (R180). -/
def registerEntry (e : FilterEntry) (s : State) : Flow Answer :=
  match freeSlot 0 s.ft with
  | none => .ok .fail s
  | some i => .ok (.okSlot i) (putSlot i e s)

/-- REGISTER (R180). -/
def execRegister (pattern mask : Word) (ext : Bool) (cb ctx : Ref) (s : State) : Host.Outcome State Fault Refusal :=
  command s isController (admitRegister s) (cbDomain cb) (registerEntry ⟨pattern, mask, ext, cb, ctx⟩)

/-- The event that dispatching frame `f` on channel `c` emits (R185). -/
def dispatchEvent (c : Nat) (f : DecFrame) (ft : List (Option FilterEntry)) : Event :=
  match firstMatch f.id 0 ft with
  | some (i, e) => .deliver i e.cb e.ctx c f
  | none => .unknownId c f.id

/-- The body of DISPATCH (R185): one DELIVER or one UNKNOWN_ID. -/
def dispatchFrame (c : Nat) (f : DecFrame) (s : State) : State := emit (dispatchEvent c f s.ft) s

/-- DISPATCH (R185), alone, as inside the Controller's standalone FEED (DESIGN CHOICE, log entry 12). -/
def execDispatch (chan : Byte) (f : DecFrame) (s : State) : Host.Outcome State Fault Refusal :=
  internalStep s (runner s) (subEnabled s) (chanDomain s.cfg.nChan chan) fun s => .ok .none (dispatchFrame chan.toNat f s)

end Sys2Proof.Machine
end

