-- ==== Sys2Proof/Machine/Assembler.lean ====
section
/-! DEFINITION. The FrameAssembler (spec file 42): FRAMECB, EXTRACT and FEED. -/

namespace Sys2Proof.Machine

/-- `CAN_FRAMECB(c, w)` (R160): verify the first 16 bytes of the window, then BAD_FRAME or DISPATCH. In a shorter window
`w[0..16)` lies outside WINDOW's precondition: F_INTERNAL (R76, R77). -/
def canFramecb (c : Nat) (w : List Byte) (s : State) : Flow Unit :=
  match bytes16? (w.take 16) with
  | none => .stop .internal s
  | some b =>
    match verifyFrame s.cfg b with
    | .invalid r => .ok () (emit (.badFrame c r) s)
    | .valid f => .ok () (dispatchFrame c f s)

/-- The outcome of header matching (R152). -/
inductive HeaderMatch where
  | matched
  | mismatch (offset : Nat) (got : Byte)
  | short
  deriving DecidableEq, Repr, Inhabited

/-- Header matching from offset `k` against the rest of the pattern, one byte at a time (R152). -/
def matchHeader (q : ByteQueue) (k : Nat) : List Byte → HeaderMatch
  | [] => .matched
  | h :: t =>
    match peek q k with
    | none => .short
    | some b => if b = h then matchHeader q (k + 1) t else .mismatch k b

/-- The resync step (R153): exactly one byte leaves the front, the assembler returns to zero, CORRUPT is emitted. PEEK and DROP on
an empty queue are F_INTERNAL (R77). -/
def resync (c : Nat) (a : AsmState) (offset : Nat) (got : Byte) (s : State) : Flow Extracted :=
  match peek a.q 0, dropFront a.q 1 with
  | some d, some q => .ok .corrupt (emit (.corrupt c offset got d) (putAsm c (idleAsm q) s))
  | _, _ => .stop .internal s

/-- Completion (R154): the window of `BASE_LEN + extra` bytes leaves the queue, the assembler returns to zero, and the
window goes to FRAMECB. DEQ of more bytes than there are is F_INTERNAL (R77). -/
def completeFrame (c : Nat) (a : AsmState) (s : State) : Flow Extracted :=
  match deq a.q (s.cfg.baseLen + a.extra) with
  | none => .stop .internal s
  | some (w, q) => (canFramecb c w (putAsm c (idleAsm q) s)).map fun _ => .complete

/-- The extra length a resolver's answer stands for (R155): `none` and `some 0` mean none. -/
def extraOf : Option Nat → Nat
  | some n => n
  | none => 0

/-- The part of an attempt after header matching (R152, R155, R156): consume the base frame, ask the resolver once, and
complete when the extra bytes are there. WINDOW beyond the queue is F_INTERNAL (R77), and so is `COUNT(a.q) - a.consumed` where it
would underflow (R13). -/
def afterHeader (c : Nat) (a : AsmState) (s : State) : Flow Extracted :=
  let a := { a with consumed := max (max a.consumed s.cfg.hdr.length) s.cfg.baseLen }
  if a.resolved then completeFrame c a s
  else
    match window a.q 0 s.cfg.baseLen with
    | none => .stop .internal s
    | some w =>
      let a := markResolved (extraOf (resolve s.cfg.resolver w)) a
      let s := putAsm c a s
      if s.cfg.rxqCap < s.cfg.baseLen + a.extra then .stop (.asmOversize c) s
      else if count a.q < a.consumed then .stop .internal s
      else if count a.q - a.consumed < a.extra then .ok .incomplete s
      else completeFrame c a s

/-- `EXTRACT(c)` (R151, R152): the gate, header matching, then the rest. F_INTERNAL is raised where `remaining` or `avail` would
underflow (R13), where PEEK fails (R77), and where there is no `asm[c]` to read (R58; DEDUCED, log entry 32). -/
def extract (c : Nat) (s : State) : Flow Extracted :=
  match s.asm[c]? with
  | none => .stop .internal s
  | some a =>
    let total := s.cfg.baseLen + a.extra
    if total < a.consumed ∨ count a.q < a.consumed then .stop .internal s
    else if count a.q - a.consumed < total - a.consumed then .ok .incomplete s
    else
      match matchHeader a.q a.consumed (s.cfg.hdr.drop a.consumed) with
      | .short => .stop .internal s
      | .mismatch k b => resync c a k b s
      | .matched => afterHeader c a s

/-- EXTRACT until it returns INCOMPLETE (R150), in at most `n` attempts. R157 bounds them by `COUNT(q) + 1`, so that the first line
is never reached (DEDUCED, log entry 32; `extractLoop_bound`). -/
def extractLoop : Nat → Nat → State → Flow Answer
  | 0, _, s => .stop .internal s
  | n + 1, c, s =>
    match extract c s with
    | .stop k s' => .stop k s'
    | .ok .incomplete s' => .ok .accepted s'
    | .ok .corrupt s' => extractLoop n c s'
    | .ok .complete s' => extractLoop n c s'

/-- `FEED(c, s)` (R150). A queue beyond its capacity would make the free space `RXQ_CAP - COUNT(a.q)` underflow: F_INTERNAL (R13);
so is a read of an `asm[c]` that is not there (R58; DEDUCED, log entry 32). -/
def feed (c : Nat) (b : List Byte) (s : State) : Flow Answer :=
  match s.asm[c]? with
  | none => .stop .internal s
  | some a =>
    if s.cfg.rxqCap < count a.q then .stop .internal s
    else
      match enq s.cfg.rxqCap a.q b with
      | none => .ok .rejected (emit (.rxOverflow c b.length) s)
      | some q => extractLoop (count q + 1) c (putAsm c { a with q := q } s)

/-- FEED as a command, the Controller's standalone use (R150). -/
def execFeed (chan : Byte) (b : List Byte) (s : State) : Host.Outcome State Fault Refusal :=
  command s isController (admitFeed s) (chanDomain s.cfg.nChan chan) (feed chan.toNat b)

/-- EXTRACT (R152), alone, as inside the Controller's standalone FEED (DESIGN CHOICE, log entry 12). -/
def execExtract (chan : Byte) (s : State) : Host.Outcome State Fault Refusal :=
  internalStep s (runner s) (subEnabled s) (chanDomain s.cfg.nChan chan) fun s => (extract chan.toNat s).map .extracted

/-- FRAMECB (R160), alone, as inside the Controller's standalone FEED (DESIGN CHOICE, log entry 12), on any window of its length:
one that EXTRACT would not hand over, without HDR at its front, is judged too, and may be HEAD (DESIGN CHOICE, log entry 23). -/
def execFramecb (chan : Byte) (w : List Byte) (s : State) : Host.Outcome State Fault Refusal :=
  internalStep s (runner s) (subEnabled s) (chanDomain s.cfg.nChan chan && windowDomain s.cfg.baseLen w) fun s =>
    (canFramecb chan.toNat w s).map fun _ => .none

end Sys2Proof.Machine
end

