-- ==== Sys2Proof/Machine/Exchange.lean ====
section
/-! DEFINITION. The duplex exchange FSM (spec file 44, section 3): the five Worker steps, and the three WireFrame rows,
whose meaning is what the exchange path does with a received frame (R109, R222; log entry 11). -/

namespace Sys2Proof.Machine

/-- The body of TICK.TOP (R215): stop on shutdown, else build the transmit buffer. `COUNT(TXQ) >= 16` is DEQ's own precondition
(R72), so the step raises nothing. -/
def tickTop (s : State) : Flow Answer :=
  if s.shutdown then .ok .none { s with ls := .stopped }
  else
    match deqFrame s.txq with
    | some (w, q) => .ok .none { putRxNew false s with txq := q, txbuf := some w, txkind := some .frame, ph := .xfer }
    | none => .ok .none { putRxNew false s with
        txbuf := some (sentinel (BitVec.ofNat 8 s.cfg.localChan)), txkind := some .idle, ph := .xfer }

/-- TICK.TOP (R215). -/
def execTickTop (s : State) : Host.Outcome State Fault Refusal :=
  internalStep s .worker (phaseEnabled .top s) true tickTop

/-- The effect of the Transport's answer to an exchange of `tx` (R219). -/
def exchange (tx : Bytes 16) (kind : TxKind) (a : XferAnswer) (s : State) : State :=
  match a with
  | .received rx => { emit (.xfer tx kind true (some rx)) s with rxbuf := some rx, ph := .rx }
  | .failed => { emit .xferFail (emit (.xfer tx kind false none) s) with ph := .decide }

/-- The body of TICK.XFER (R219): one exchange of 16 bytes with the Transport. R58: "A step that would read `txbuf`, `txkind` or
`rxbuf` before a step wrote it" must be F_INTERNAL and must not pick a value. -/
def tickXfer (s : State) : Flow Answer :=
  match s.txbuf, s.txkind with
  | some tx, some kind => .ok .none (exchange tx kind (drawXfer s).1 (drawXfer s).2)
  | _, _ => .stop .internal s

/-- TICK.XFER (R219). -/
def execTickXfer (s : State) : Host.Outcome State Fault Refusal :=
  internalStep s .worker (phaseEnabled .xfer s) true tickXfer

/-- Discard a received sequence and go on (R222). -/
def discardRx (r : Reason) (s : State) : Flow Answer :=
  .ok .none { emit (.rxDiscard r) s with ph := .decide }

/-- The judgement of a received sequence (R222): invalid, remote, out of range, or routed to its assembler. -/
def judgeRx (w : Bytes 16) (s : State) : Flow Answer :=
  match verifyFrame s.cfg w with
  | .invalid r => discardRx r s
  | .valid f =>
    if f.rem then discardRx .remote s
    else if s.cfg.nChan ≤ f.chan.toNat then discardRx .chan s
    else
      match feed f.chan.toNat w.toList s with
      | .stop k s' => .stop k s'
      | .ok _ s' => .ok .none { putRxNew true s' with ph := .decide }

/-- The body of TICK.RX (R222). Without a value in `rxbuf` the read is F_INTERNAL (R58). -/
def tickRx (s : State) : Flow Answer :=
  match s.rxbuf with
  | none => .stop .internal s
  | some w => judgeRx w s

/-- TICK.RX (R222). -/
def execTickRx (s : State) : Host.Outcome State Fault Refusal :=
  internalStep s .worker (phaseEnabled .rx s) true tickRx

/-- The body of TICK.DECIDE (R225). -/
def tickDecide (s : State) : Flow Answer :=
  if 16 ≤ count s.txq ∨ s.rxNew = true then .ok .none { s with ls := .draining, ph := .top }
  else .ok .none { s with ls := .idle, ph := .sleep }

/-- TICK.DECIDE (R225). -/
def execTickDecide (s : State) : Host.Outcome State Fault Refusal :=
  internalStep s .worker (phaseEnabled .decide s) true tickDecide

/-- TICK.SLEEP (R228) is enabled at `(IDLE, SLEEP)` alone (R210; DEDUCED, log entry 30). -/
def sleepEnabled (s : State) : Bool := s.ph == .sleep && s.ls == .idle

/-- TICK.SLEEP (R228): the backoff elapses. -/
def execTickSleep (s : State) : Host.Outcome State Fault Refusal :=
  internalStep s .worker (sleepEnabled s) true fun s => .ok .none { s with ph := .top }

/-- The Worker judges a received WireFrame that spells a row of the table: the step TICK.RX with these bytes. -/
def receiveFrame (w : Bytes 16) (s : State) : Host.Outcome State Fault Refusal :=
  blockStep s .worker (phaseEnabled .rx s) true (judgeRx w)

/-- WF.DATA (R109 line 5, R222): routed to `asm[chan]` when its checksum holds and its channel is in range. -/
def execWfData (f : WireFields) (s : State) : Host.Outcome State Fault Refusal := receiveFrame (wireBytes false f) s

/-- WF.REMOTE (R109 line 4, R222): discarded with RX_DISCARD when its checksum holds. -/
def execWfRemote (f : WireFields) (s : State) : Host.Outcome State Fault Refusal := receiveFrame (wireBytes true f) s

/-- WF.IDLE (R105, R109 line 1): discarded, its head is not HEAD. -/
def execWfIdle (chan : Bool) (s : State) : Host.Outcome State Fault Refusal := receiveFrame (sentinel (bit chan)) s

end Sys2Proof.Machine
end

