-- ==== Sys2Proof/Machine/Lifecycle.lean ====
section
/-! DEFINITION. The lifecycle commands and WRITE (spec file 44, sections 1 and 2). -/

namespace Sys2Proof.Machine

/-- The state that an outcome of INIT leaves (R195). TXQ, the assemblers and FT are not touched. -/
def initState (ok : Bool) (s : State) : State :=
  if ok then { putShutdown false (putRxNew false s) with life := .running, ls := .draining, ph := .top }
  else { s with life := .failed }

/-- The effect of an outcome of INIT (R195): OK, or FAIL with no Worker started. -/
def initWith (ok : Bool) (s : State) : Flow Answer := .ok (if ok then .ok else .fail) (initState ok s)

/-- INIT (R195). The device goes to the Transport and is not read by the block. -/
def execInit (_dev : Ref) (s : State) : Host.Outcome State Fault Refusal :=
  command s isController (admitInit s) true fun s => initWith (drawInit s).1 (drawInit s).2

/-- CLOSE (R197). The Controller may issue other commands before CLOSE.JOIN (DEDUCED, log entry 16). -/
def execClose (s : State) : Host.Outcome State Fault Refusal :=
  command s isController (admitClose s) true fun s => .ok .none (putShutdown true s)

/-- GETDESC (R202). -/
def execGetdesc (s : State) : Host.Outcome State Fault Refusal :=
  command s isController (admitGetdesc s) true fun s => .ok (.desc s.cfg.desc) s

/-- The capacity of TXQ in bytes (R34). -/
def txqCap (c : Config) : Nat := 16 * c.txqFrames

/-- The body of WRITE (R205): one atomic check and enqueue. -/
def writeFrame (f : CanFrame) (chan : Byte) (s : State) : Flow Answer :=
  match enq (txqCap s.cfg) s.txq (encodeFrame s.cfg f chan).toList with
  | none => .ok .fail s
  | some q => .ok .ok { s with txq := q }

/-- WRITE (R205). -/
def execWrite (f : CanFrame) (chan : Byte) (s : State) : Host.Outcome State Fault Refusal :=
  command s isProducer (admitWrite s) (frameDomain f chan) (writeFrame f chan)

/-- CLOSE.JOIN is enabled when the Worker has stopped and the join is still due (R200, R251; log entry 15). -/
def joinEnabled (s : State) : Bool := s.ls == .stopped && s.life == .running

/-- The body of CLOSE.JOIN (R200): TXQ and the assemblers are cleared, the transport is released. -/
def closeJoin (s : State) : Flow Answer :=
  .ok .none { s with txq := [], asm := s.asm.map fun _ => idleAsm [], life := .closed }

/-- CLOSE.JOIN (R200). -/
def execCloseJoin (s : State) : Host.Outcome State Fault Refusal :=
  internalStep s .controller (joinEnabled s) true closeJoin

end Sys2Proof.Machine
end

