-- ==== Sys2Proof/Machine/Reserved.lean ====
section
/-! DEFINITION. The reserved operation codes (spec rule R115): each is refused with REF_OPCODE, which sets the sticky mark and
changes nothing else (R246). -/

namespace Sys2Proof.Machine

/-- Reserved code 0x00 (R115). -/
def execReserved00 (s : State) : Host.Outcome State Fault Refusal := refuseByByte .opcode s

/-- Reserved code 0x0A (R115). -/
def execReserved0A (s : State) : Host.Outcome State Fault Refusal := refuseByByte .opcode s

/-- Reserved code 0x0B (R115). -/
def execReserved0B (s : State) : Host.Outcome State Fault Refusal := refuseByByte .opcode s

/-- Reserved code 0x0C (R115). -/
def execReserved0C (s : State) : Host.Outcome State Fault Refusal := refuseByByte .opcode s

/-- Reserved code 0x0D (R115). -/
def execReserved0D (s : State) : Host.Outcome State Fault Refusal := refuseByByte .opcode s

/-- Reserved code 0x0E (R115). -/
def execReserved0E (s : State) : Host.Outcome State Fault Refusal := refuseByByte .opcode s

/-- Reserved code 0x0F (R115). -/
def execReserved0F (s : State) : Host.Outcome State Fault Refusal := refuseByByte .opcode s

/-- Reserved code 0x19 (R115). -/
def execReserved19 (s : State) : Host.Outcome State Fault Refusal := refuseByByte .opcode s

/-- Reserved code 0x1A (R115). -/
def execReserved1A (s : State) : Host.Outcome State Fault Refusal := refuseByByte .opcode s

/-- Reserved code 0x1B (R115). -/
def execReserved1B (s : State) : Host.Outcome State Fault Refusal := refuseByByte .opcode s

/-- Reserved code 0x1C (R115). -/
def execReserved1C (s : State) : Host.Outcome State Fault Refusal := refuseByByte .opcode s

/-- Reserved code 0x1D (R115). -/
def execReserved1D (s : State) : Host.Outcome State Fault Refusal := refuseByByte .opcode s

/-- Reserved code 0x1E (R115). -/
def execReserved1E (s : State) : Host.Outcome State Fault Refusal := refuseByByte .opcode s

/-- Reserved code 0x1F (R115). -/
def execReserved1F (s : State) : Host.Outcome State Fault Refusal := refuseByByte .opcode s

end Sys2Proof.Machine
end

