-- ==== Sys2Proof/Machine/WireCodec.lean ====
section
/-! DEFINITION. CKSUM, ENCODE and VERIFY as commands (spec rules R130, R132, R135): admitted in every lifecycle state (R250),
no state written. -/

namespace Sys2Proof.Machine

/-- CKSUM (R130). -/
def execCksum (b : List Byte) (s : State) : Host.Outcome State Fault Refusal :=
  command s anyAgent true (cksumDomain b) fun s => .ok (.byte (cksumOf b)) s

/-- ENCODE (R132). -/
def execEncode (f : CanFrame) (chan : Byte) (s : State) : Host.Outcome State Fault Refusal :=
  command s anyAgent true (frameDomain f chan) fun s => .ok (.bytes (encodeFrame s.cfg f chan)) s

/-- What VERIFY answers: the verdict on 16 bytes (R135); bytes of another length are REF_OPERAND (R114), which `command` has
refused before. -/
def verifyAnswer (c : Config) (b : List Byte) : Answer :=
  match bytes16? b with
  | some w => .verdict (verifyFrame c w)
  | none => .refused .operand

/-- VERIFY (R135). -/
def execVerify (b : List Byte) (s : State) : Host.Outcome State Fault Refusal :=
  command s anyAgent true (verifyDomain b) fun s => .ok (verifyAnswer s.cfg b) s

end Sys2Proof.Machine
end

