-- ==== Sys2Proof/Machine/Dispatch.lean ====
section
/-! DEFINITION. The meaning of every instruction: one arm per constructor, in the order of spec/opcode_table.json. -/

namespace Sys2Proof.Machine

/-- What an operation does (spec rule R15). -/
def exec (i : Instr) (s : State) : Host.Outcome State Fault Refusal :=
  match i with
  | .init dev => Sys2Proof.Machine.execInit dev s
  | .close => Sys2Proof.Machine.execClose s
  | .getdesc => Sys2Proof.Machine.execGetdesc s
  | .write f ch => Sys2Proof.Machine.execWrite f ch s
  | .register p m e cb ctx => Sys2Proof.Machine.execRegister p m e cb ctx s
  | .feed ch b => Sys2Proof.Machine.execFeed ch b s
  | .cksum b => Sys2Proof.Machine.execCksum b s
  | .encode f ch => Sys2Proof.Machine.execEncode f ch s
  | .verify b => Sys2Proof.Machine.execVerify b s
  | .tickTop => Sys2Proof.Machine.execTickTop s
  | .tickXfer => Sys2Proof.Machine.execTickXfer s
  | .tickRx => Sys2Proof.Machine.execTickRx s
  | .tickDecide => Sys2Proof.Machine.execTickDecide s
  | .tickSleep => Sys2Proof.Machine.execTickSleep s
  | .closeJoin => Sys2Proof.Machine.execCloseJoin s
  | .extract ch => Sys2Proof.Machine.execExtract ch s
  | .framecb ch w => Sys2Proof.Machine.execFramecb ch w s
  | .dispatch ch f => Sys2Proof.Machine.execDispatch ch f s
  | .reserved00 => Sys2Proof.Machine.execReserved00 s
  | .reserved0A => Sys2Proof.Machine.execReserved0A s
  | .reserved0B => Sys2Proof.Machine.execReserved0B s
  | .reserved0C => Sys2Proof.Machine.execReserved0C s
  | .reserved0D => Sys2Proof.Machine.execReserved0D s
  | .reserved0E => Sys2Proof.Machine.execReserved0E s
  | .reserved0F => Sys2Proof.Machine.execReserved0F s
  | .reserved19 => Sys2Proof.Machine.execReserved19 s
  | .reserved1A => Sys2Proof.Machine.execReserved1A s
  | .reserved1B => Sys2Proof.Machine.execReserved1B s
  | .reserved1C => Sys2Proof.Machine.execReserved1C s
  | .reserved1D => Sys2Proof.Machine.execReserved1D s
  | .reserved1E => Sys2Proof.Machine.execReserved1E s
  | .reserved1F => Sys2Proof.Machine.execReserved1F s
  | .wfData f => Sys2Proof.Machine.execWfData f s
  | .wfRemote f => Sys2Proof.Machine.execWfRemote f s
  | .wfIdle ch => Sys2Proof.Machine.execWfIdle ch s

end Sys2Proof.Machine
end

