-- ==== Sys2Proof/Machine/Fetch.lean ====
section
/-! DEFINITION. What runs next. The block has no fetch and no program store (spec rules R42, R96): operations arrive at the
command port, and the sequencer `(ls, ph)` enables the Worker's steps. The order in which agents move is open
(R90): the oldest entry of `inbox`, or a free value when it is empty (log entry 7). -/

namespace Sys2Proof.Machine

/-- The operation code of the Worker step of a phase (R41, R112). -/
def phaseOp : Phase → Byte
  | .top => 0x10
  | .xfer => 0x11
  | .rx => 0x12
  | .decide => 0x13
  | .sleep => 0x14

/-- What a pick of the scheduler makes happen (R90): a command, the Worker's step by its sequencer (R42), or CLOSE.JOIN. -/
def turnInput (t : Turn) (s : State) : Input :=
  match t with
  | .port a bytes => .port a bytes
  | .worker => .block [phaseOp s.ph]
  | .join => .block [0x15]

/-- The next input, and the state without it. -/
def nextInput (s : State) : Input × State :=
  match s.inbox with
  | x :: t => (x, { s with inbox := t })
  | [] => (turnInput (Config.schedule s.draws) s, { s with draws := s.draws + 1 })

/-- What was fetched. -/
inductive Fetched where
  /-- An operation to perform. -/
  | run (i : Instr) (s : State)
  /-- A refusal that the command byte alone decides (R115, R116). -/
  | refused (r : RefReason) (s : State)
  /-- Bytes that spell no operands (log entry 27). -/
  | unreadable (e : DecodeError)
  deriving DecidableEq, Repr

/-- The code is one of the block's own steps (R116). -/
def internalOp (b : Byte) : Bool := commandByteOk b && 0x10 ≤ commandOp b && commandOp b ≤ 0x18

/-- What bytes that decode to no operation are: a bad command byte is REF_OPCODE, an internal code at the command port is
REF_INTERNAL whatever follows it (R249 (d)), anything else is unreadable. -/
def undecoded (bytes : List Byte) (e : DecodeError) (s : State) : Fetched :=
  match bytes with
  | [] => .unreadable e
  | b :: _ =>
    if !commandByteOk b then .refused .opcode s
    else if internalOp b && s.issuer != .block then .refused .internal s
    else .unreadable e

/-- The operation that the bytes of an input spell. Bytes left after its operands are dropped (DESIGN CHOICE, log entry 31: the
spec gives no packed format, R9, R113). -/
def fetchBytes (bytes : List Byte) (s : State) : Fetched :=
  match decode .command bytes with
  | .ok (i, _) => .run i s
  | .error e => undecoded bytes e s

/-- The operation that the WireFrame in `rxbuf` spells (R109): a row of the table, else plain TICK.RX. -/
def fetchFrame (s : State) : Fetched :=
  match s.rxbuf with
  | none => .run .tickRx s
  | some w =>
    match decodeFrame w with
    | none => .run .tickRx s
    | some i => .run i s

/-- Fetch an input: who issues it, and what it is. -/
def fetchInput (x : Input) (s : State) : Fetched :=
  match x with
  | .port a bytes => fetchBytes bytes { s with issuer := .port a }
  | .block bytes => fetchBytes bytes { s with issuer := .block }
  | .frame => fetchFrame { s with issuer := .block }

/-- Fetch what runs next. -/
def fetch (s : State) : Fetched := fetchInput (nextInput s).1 (nextInput s).2

/-- Put the sequencer where it selects the step with this code, with the buffer that the step reads (log entry 13). -/
def selectStep (op : Nat) (s : State) : State :=
  match op with
  | 0x10 => { s with life := .running, ls := .draining, ph := .top }
  | 0x11 => { s with life := .running, ls := .draining, ph := .xfer,
                     txbuf := some (s.txbuf.getD (sentinel 0)), txkind := some (s.txkind.getD .idle) }
  | 0x12 => { s with life := .running, ls := .draining, ph := .rx, rxbuf := some (s.rxbuf.getD (sentinel 0)) }
  | 0x13 => { s with life := .running, ls := .draining, ph := .decide }
  | 0x14 => { s with life := .running, ls := .idle, ph := .sleep }
  | 0x15 => { s with life := .running, ls := .stopped, ph := .top }
  | _ => s

/-- The agent that issues a command (R112). -/
def commandIssuer (op : Nat) : Agent := if op = 0x04 then .producer 0 else .controller

/-- Place the bytes of one command row as the next input. -/
def placeCommand (b : Byte) (bytes : List Byte) (s : State) : State :=
  if internalOp b then { selectStep (commandOp b) s with inbox := .block bytes :: s.inbox }
  else { s with inbox := .port (commandIssuer (commandOp b)) bytes :: s.inbox }

/-- Place a received WireFrame where the Worker judges it: in `rxbuf`, at phase RX of a running loop. -/
def placeFrame (w : Bytes 16) (s : State) : State :=
  { selectStep 0x12 s with rxbuf := some w, inbox := .frame :: s.inbox }

/-- Place an instruction, given as the opcode table numbers its bits, as what runs next. -/
def placeWord (nbits w : Nat) (s : State) : State :=
  match tableSpace nbits with
  | .command => placeCommand (BitVec.ofNat 8 w) (tableBytes nbits w) s
  | .link =>
    match bytes16? ((tableBytes nbits w).take 16) with
    | none => s
    | some f => placeFrame f s

/-- Pseudo-operation `TICK` (R119): the five Worker steps; those that are not enabled are held. -/
def pseudoTick : List Input :=
  [.block (encode .tickTop), .block (encode .tickXfer), .block (encode .tickRx), .block (encode .tickDecide),
   .block (encode .tickSleep)]

/-- Pseudo-operation `FEEDB chan=c, b=v` (R119). -/
def pseudoFeedb (c v : Byte) : List Input := [.port .controller (encode (.feed c [v]))]

/-- Pseudo-operation `SHUTDOWN` (R119): CLOSE, Worker steps until `ls = STOPPED` (two passes reach it from every phase),
CLOSE.JOIN. -/
def pseudoShutdown : List Input :=
  .port .controller (encode .close) :: (pseudoTick ++ pseudoTick ++ [.block (encode .closeJoin)])

end Sys2Proof.Machine
end

