-- ==== Sys2Proof/Machine/Step.lean ====
section
/-! DEFINITION. One step of the machine: fetch what runs next and perform it. -/

namespace Sys2Proof.Machine

/-- One atomic step of one agent (spec rules R8, R90). -/
def step (s : State) : Host.Outcome State Fault Refusal :=
  match fetch s with
  | .run i s' => exec i s'
  | .refused r s' => refuseByByte r s'
  | .unreadable e => .refused (.operandBytes e)

/-- `s` with one instruction placed as what the next step runs (log entry 13). -/
def State.withFetchWord (s : State) (nbits w : Nat) : State := placeWord nbits w s

end Sys2Proof.Machine
end

