-- ==== Sys2Proof/Safety.lean ====
section
/-! DEFINITION. What claims about the block are stated in: a run without faults, the invariants the spec states, who
moves, and the spec's tables. -/

namespace Sys2Proof.Machine

/-! ### Premises of claims -/

/-- The launch premise (R273): the reset state of a block whose configuration meets R11. -/
def Launch (s : State) : Prop := ∃ c, configOk c = true ∧ s = State.initial c

/-- The premise of every claim of the spec (R245): no fault has been recorded. -/
abbrev NoFault (s : State) : Prop := s.faults = [] ∧ s.halted = []


/-- The CAN-over-SPI instance of the assembler (R10): one head byte, 16-byte frames, no resolver. -/
abbrev CanInstance (c : Config) : Prop :=
  c.baseLen = 16 ∧ c.hdr = [c.head] ∧ c.resolver = .can

/-- The handle that INIT returned is valid (R33). -/
def handleValid (s : State) : Bool := s.life == .running

/-- The exchange loop runs (R210). -/
abbrev Active (s : State) : Prop := s.ls = .draining ∨ s.ls = .idle

/-- Agent `a` may take a step: it has not faulted (R245), and if it is the Worker its loop runs (R210, R247). -/
abbrev MayStep (s : State) (a : Agent) : Prop := a ∉ s.halted ∧ (a = .worker → Active s)

/-- Agent `a` may take a step, and the configuration is one the spec gives meaning to (R11, R196). -/
abbrev CanServe (s : State) (a : Agent) : Prop := MayStep s a ∧ configOk s.cfg = true ∧ s.cfg.mode = .framed

/-! ### The spec's tables -/

/-- The nine commands of R112. -/
def isCommand : Instr → Bool
  | .init _ | .close | .getdesc | .write .. | .register .. | .feed .. | .cksum _ | .encode .. | .verify _ => true
  | .tickTop | .tickXfer | .tickRx | .tickDecide | .tickSleep | .closeJoin => false
  | .extract _ | .framecb .. | .dispatch .. => false
  | .reserved00 | .reserved0A | .reserved0B | .reserved0C | .reserved0D | .reserved0E | .reserved0F => false
  | .reserved19 | .reserved1A | .reserved1B | .reserved1C | .reserved1D | .reserved1E | .reserved1F => false
  | .wfData _ | .wfRemote _ | .wfIdle _ => false

/-- R112's column "issued by", for the nine commands; no agent issues any other operation. -/
def issuedBy (i : Instr) (a : Agent) : Bool :=
  match i with
  | .init _ | .close | .getdesc | .register .. | .feed .. => a == .controller
  | .write .. =>
    match a with
    | .producer _ => true
    | .worker => false
    | .controller => false
  | .cksum _ | .encode .. | .verify _ => true
  | .tickTop | .tickXfer | .tickRx | .tickDecide | .tickSleep | .closeJoin | .extract _ | .framecb .. | .dispatch .. => false
  | .reserved00 | .reserved0A | .reserved0B | .reserved0C | .reserved0D | .reserved0E | .reserved0F => false
  | .reserved19 | .reserved1A | .reserved1B | .reserved1C | .reserved1D | .reserved1E | .reserved1F => false
  | .wfData _ | .wfRemote _ | .wfIdle _ => false

/-- The rows of R115. -/
def reservedRows : List Instr :=
  [.reserved00, .reserved0A, .reserved0B, .reserved0C, .reserved0D, .reserved0E, .reserved0F,
   .reserved19, .reserved1A, .reserved1B, .reserved1C, .reserved1D, .reserved1E, .reserved1F]

/-- One row of R250's table: its cells for UNINIT, RUNNING, FAILED and CLOSED. -/
def cells (uninit running failed closed : Bool) : Life → Bool
  | .uninit => uninit
  | .running => running
  | .failed => failed
  | .closed => closed

/-- R250's table, row by row, for a command at the command port; other operations have no row. -/
def tableAdmits (i : Instr) (life : Life) (shutdown : Bool) : Bool :=
  match i with
  | .init _ => cells true false false false life
  | .close => cells false (!shutdown) false false life
  | .getdesc => cells false true false false life
  | .write .. => cells false true false false life
  | .register .. => cells true false true true life
  | .feed .. => cells true false true true life
  | .cksum _ | .encode .. | .verify _ => cells true true true true life
  | .tickTop | .tickXfer | .tickRx | .tickDecide | .tickSleep | .closeJoin | .extract _ | .framecb .. | .dispatch .. => true
  | .reserved00 | .reserved0A | .reserved0B | .reserved0C | .reserved0D | .reserved0E | .reserved0F => true
  | .reserved19 | .reserved1A | .reserved1B | .reserved1C | .reserved1D | .reserved1E | .reserved1F => true
  | .wfData _ | .wfRemote _ | .wfIdle _ => true

/-- The agent whose step an operation is (R6, R112, R245): the issuer of a command or of an unreadable code, the Worker for
its steps and the frames it judges, the Controller for CLOSE.JOIN, the running agent for a sub-operation. -/
def mover (i : Instr) (s : State) : Agent :=
  match i with
  | .tickTop | .tickXfer | .tickRx | .tickDecide | .tickSleep =>
    match s.issuer with
    | .block => .worker
    | .port a => a
  | .closeJoin =>
    match s.issuer with
    | .block => .controller
    | .port a => a
  | .wfData _ | .wfRemote _ | .wfIdle _ => .worker
  | .init _ | .close | .getdesc | .write .. | .register .. | .feed .. | .cksum _ | .encode .. | .verify _
  | .extract _ | .framecb .. | .dispatch ..
  | .reserved00 | .reserved0A | .reserved0B | .reserved0C | .reserved0D | .reserved0E | .reserved0F
  | .reserved19 | .reserved1A | .reserved1B | .reserved1C | .reserved1D | .reserved1E | .reserved1F => performer s

/-- The two events that DISPATCH emits (R185). -/
def isDispatchEvent : Event → Bool
  | .deliver .. | .unknownId .. => true
  | .corrupt .. | .badFrame .. | .rxDiscard _ | .xferFail | .rxOverflow .. | .xfer .. => false

/-- The rows of R210's table, as pairs of `(ls, ph)` with each row's condition; whether the exchange succeeded is what its XFER
record says (R219). -/
def SequencerRow (s t : State) : Prop :=
  (Active s ∧ s.ph = .top ∧ s.shutdown = true ∧ t.ls = .stopped ∧ t.ph = .top) ∨
  (Active s ∧ s.ph = .top ∧ s.shutdown = false ∧ t.ls = s.ls ∧ t.ph = .xfer) ∨
  (Active s ∧ s.ph = .xfer ∧ t.ls = s.ls ∧ t.ph = .rx ∧
    ∃ tx k rx, s.txbuf = some tx ∧ s.txkind = some k ∧ t.evlog = s.evlog ++ [.xfer tx k true (some rx)]) ∨
  (Active s ∧ s.ph = .xfer ∧ t.ls = s.ls ∧ t.ph = .decide ∧
    ∃ tx k, s.txbuf = some tx ∧ s.txkind = some k ∧ t.evlog = s.evlog ++ [.xfer tx k false none, .xferFail]) ∨
  (Active s ∧ s.ph = .rx ∧ t.ls = s.ls ∧ t.ph = .decide) ∨
  (Active s ∧ s.ph = .decide ∧ (16 ≤ s.txq.length ∨ s.rxNew = true) ∧ t.ls = .draining ∧ t.ph = .top) ∨
  (Active s ∧ s.ph = .decide ∧ ¬(16 ≤ s.txq.length ∨ s.rxNew = true) ∧ t.ls = .idle ∧ t.ph = .sleep) ∨
  (s.ls = .idle ∧ s.ph = .sleep ∧ t.ls = .idle ∧ t.ph = .top)

/-! ### Bits of a frame -/

/-- Byte 15 is the checksum of bytes 0..14 (R130). -/
abbrev ChecksumHolds (w : Bytes 16) : Prop := w[15] = (w.toList.take 15).foldl (fun a b => a ^^^ b) 0

/-- `w` with bit `k` flipped, bit 0 the lowest bit of byte 0. -/
def flipBit (w : Bytes 16) (k : Fin 128) : Bytes 16 :=
  Vector.ofFn fun i => if i.val = k.val / 8 then w[i] ^^^ (1#8 <<< (k.val % 8)) else w[i]

/-- `w` with bit `p` flipped in every byte that `m` marks. -/
def flipColumn (w : Bytes 16) (p : Fin 8) (m : Vector Bool 16) : Bytes 16 :=
  Vector.ofFn fun i => if m[i] then w[i] ^^^ (1#8 <<< p.val) else w[i]

/-! ### Invariants -/

/-- R35: TXQ is a sequence of whole frames that ENCODE produced, within its capacity. -/
def TxqInv (s : State) : Prop :=
  s.txq.length ≤ 16 * s.cfg.txqFrames ∧
  ∃ fs : List (CanFrame × Byte),
    (∀ p ∈ fs, p.1.dlc.toNat ≤ 8 ∧ p.2.toNat ≤ 1) ∧ s.txq = fs.flatMap fun p => (encodeFrame s.cfg p.1 p.2).toList

/-- An assembler at rest (R38). -/
abbrev AsmIdle (a : AsmState) : Prop := a.consumed = 0 ∧ a.extra = 0 ∧ a.resolved = false

/-- An assembler that awaits extra bytes (R38). -/
abbrev AsmAwaiting (c : Config) (a : AsmState) : Prop :=
  a.consumed = c.baseLen ∧ a.resolved = true ∧ 0 < a.extra ∧ a.q.take c.hdr.length = c.hdr

/-- R38, for one assembler. -/
abbrev AsmOk (c : Config) (a : AsmState) : Prop :=
  a.consumed ≤ a.q.length ∧ a.q.length ≤ c.rxqCap ∧ (AsmIdle a ∨ AsmAwaiting c a)

/-- R36, R38: one assembler for each channel in range, each in a stable state. -/
abbrev AsmInv (s : State) : Prop := s.asm.length = s.cfg.nChan ∧ ∀ a ∈ s.asm, AsmOk s.cfg a

/-- R47, R49: the table has `FILTER_SLOTS` slots, and the used ones form an initial segment: before a used slot every slot is
used. -/
abbrev TableInv (s : State) : Prop :=
  s.ft.length = s.cfg.filterSlots ∧ s.ft.Pairwise fun before after => after.isSome = true → before.isSome = true

/-- The lifecycle and the sequencer agree (R31, R32, R40, R58): the loop is off before a successful INIT, stopped only on
shutdown, sleeps only idle, and holds the buffer its next step reads. -/
abbrev LoopInv (s : State) : Prop :=
  (s.ls = .off ↔ (s.life = .uninit ∨ s.life = .failed)) ∧
  (s.life = .closed → s.ls = .stopped) ∧
  (s.ls = .stopped → s.ph = .top ∧ s.shutdown = true) ∧
  (Active s → s.ph = .sleep → s.ls = .idle) ∧
  (Active s → s.ph = .xfer → s.txbuf.isSome = true ∧ s.txkind.isSome = true) ∧
  (Active s → s.ph = .rx → s.rxbuf.isSome = true)

/-- The two sets are held in strictly rising order of their keys (log entry 19). -/
abbrev SetInv (s : State) : Prop :=
  s.faults.Pairwise (fun x y => faultKey x < faultKey y) ∧ s.halted.Pairwise (fun x y => agentKey x < agentKey y)

/-- Every invariant together. -/
def Inv (s : State) : Prop := TxqInv s ∧ AsmInv s ∧ TableInv s ∧ LoopInv s ∧ SetInv s

/-! ### Feeding in chunks -/

/-- Feed chunks one after another; `none` when one is rejected or faults (R161). -/
def feedChunks (c : Nat) : List (List Byte) → State → Option State
  | [], s => some s
  | x :: xs, s =>
    match feed c x s with
    | .ok .accepted s' => feedChunks c xs s'
    | _ => none

end Sys2Proof.Machine
end

