-- ==== Sys2Proof/Certificates/Slice0/Obligations.lean ====
section
/-! DEFINITION. What is claimed of the machine, for the provers. Each statement says which rule of the spec it formalises. A
statement that ends in `exec i s = .next { s with … }` gives the whole frame: every field it does not name is unchanged. -/

open Sys2Proof Sys2Proof.Machine

/-! ### Encodings -/

/-- R112, R113, R100 (and the model's operand layout, log entry 9): decoding the encoding of any operation, with any bytes
after it, gives the operation back with those bytes. -/
def Obligations.DecodeEncodeRoundTrip : Prop :=
  ∀ (i : Instr) (rest : List Byte), decode i.space (encode i ++ rest) = .ok (i, rest)

/-- R112, R113, R109: bytes that decode to an operation are that operation's encoding, so no two encodings mean the same. -/
def Obligations.DecodedBytesAreTheEncoding : Prop :=
  ∀ (sp : Space) (l : List Byte) (i : Instr) (rest : List Byte),
    decode sp l = .ok (i, rest) → i.space = sp ∧ l = encode i ++ rest

/-- R112, R100, R105: words written out from the spec's tables decode to what they stand for. -/
def Obligations.SampleWordsDecode : Prop :=
  decode .command [0x02] = .ok (.close, []) ∧
  decode .command [0x03] = .ok (.getdesc, []) ∧
  decode .command [0x10] = .ok (.tickTop, []) ∧
  decode .command [0x15] = .ok (.closeJoin, []) ∧
  decode .command [0x0F] = .ok (.reserved0F, []) ∧
  decode .command [0x24] = .error (.opcode 0x24) ∧
  decode .link [0x7E, 0x02, 0xE5, 0x07, 0, 0, 0xAA, 0x55, 0, 0, 0, 0, 0, 0, 0x7D, 0x1C] =
    .ok (.wfData ⟨false, false, false, 2, 0x7E5, #v[0xAA, 0x55, 0, 0, 0, 0, 0, 0], 0x1C⟩, []) ∧
  decode .link [0x7E, 0x10, 0xE5, 0x07, 0, 0, 0, 0, 0, 0, 0, 0, 0, 0, 0x7D, 0xF1] =
    .ok (.wfRemote ⟨false, false, false, 0, 0x7E5, #v[0, 0, 0, 0, 0, 0, 0, 0], 0xF1⟩, []) ∧
  decode .link [0, 0x40, 0, 0, 0, 0, 0, 0, 0, 0, 0, 0, 0, 0, 0, 0] = .ok (.wfIdle true, [])

/-- R115, R116: at the command port, a reserved code, or a command byte whose bits 7..5 are not 0, is refused REF_OPCODE, and an
internal code REF_INTERNAL, whatever follows the byte. R116 says so of a Controller or Producer; of the Worker, while its loop
runs, it is the model's choice (log entry 26). -/
def Obligations.ReservedAndInternalBytesAreRefused : Prop :=
  ∀ (s : State) (a : Agent) (b : Byte) (l : List Byte) (rest : List Input),
    s.inbox = .port a (b :: l) :: rest → MayStep s a →
    ((b.extractLsb' 5 3 ≠ 0 ∨ b = 0 ∨ (0x0A ≤ b.toNat ∧ b.toNat ≤ 0x0F) ∨ (0x19 ≤ b.toNat ∧ b.toNat ≤ 0x1F)) →
      step s = .next { s with inbox := rest, issuer := .port a, refused := true, answer := .refused .opcode }) ∧
    (0x10 ≤ b.toNat → b.toNat ≤ 0x18 →
      step s = .next { s with inbox := rest, issuer := .port a, refused := true, answer := .refused .internal })

/-- R115, R246: the meaning of each reserved row is the refusal. -/
def Obligations.ReservedRowsRefuse : Prop :=
  ∀ (i : Instr) (s : State), i ∈ reservedRows → MayStep s (performer s) →
    exec i s = .next { s with refused := true, answer := .refused .opcode }

/-! ### The step -/

/-- R9, R90: when the oldest input's bytes decode to an operation, the step performs it, in the state without that input
and with its issuer noted (bytes after its operands are dropped: the model's choice, log entry 31); for the frame input, the
bytes are those of `rxbuf`. With nothing in the inbox the schedule (the model's
own, log entry 7) picks, and a pick of the Worker is the step of its phase. -/
def Obligations.StepRunsTheDecodedInstruction : Prop :=
  (∀ (s : State) (a : Agent) (bytes r : List Byte) (rest : List Input) (i : Instr),
    s.inbox = .port a bytes :: rest → decode .command bytes = .ok (i, r) →
    step s = exec i { s with inbox := rest, issuer := .port a }) ∧
  (∀ (s : State) (bytes r : List Byte) (rest : List Input) (i : Instr),
    s.inbox = .block bytes :: rest → decode .command bytes = .ok (i, r) →
    step s = exec i { s with inbox := rest, issuer := .block }) ∧
  (∀ (s : State) (w : Bytes 16) (rest : List Input) (i : Instr),
    s.inbox = .frame :: rest → s.rxbuf = some w → decode .link w.toList = .ok (i, []) →
    step s = exec i { s with inbox := rest, issuer := .block }) ∧
  (∀ s : State, s.inbox = [] →
    match Config.schedule s.draws with
    | .port a bytes => ∀ (i : Instr) (r : List Byte), decode .command bytes = .ok (i, r) →
      step s = exec i { s with draws := s.draws + 1, issuer := .port a }
    | .join => step s = exec .closeJoin { s with draws := s.draws + 1, issuer := .block }
    | .worker => step s = exec (match s.ph with
      | .top => .tickTop
      | .xfer => .tickXfer
      | .rx => .tickRx
      | .decide => .tickDecide
      | .sleep => .tickSleep) { s with draws := s.draws + 1, issuer := .block })

/-! ### WireCodec -/

/-- R130: CKSUM of exactly 15 bytes gives their XOR and writes no state; any other length is refused REF_OPERAND. -/
def Obligations.CksumGivesTheXorFold : Prop :=
  ∀ (b : List Byte) (s : State) (a : Agent), s.issuer = .port a → CanServe s a →
    (b.length = 15 → exec (.cksum b) s = .next { s with answer := .byte (b.foldl (fun x y => x ^^^ y) 0) }) ∧
    (b.length ≠ 15 → exec (.cksum b) s = .next { s with refused := true, answer := .refused .operand })

/-- R131: the four checksum laws. -/
def Obligations.ChecksumLaws : Prop :=
  (∀ l₁ l₂ : List Byte, l₁.Perm l₂ → cksumOf l₁ = cksumOf l₂) ∧
  (∀ w : Bytes 16, ChecksumHolds w → cksumOf w.toList = 0) ∧
  (∀ (w : Bytes 16) (k : Fin 128), ChecksumHolds w → ¬ ChecksumHolds (flipBit w k)) ∧
  (∀ (w : Bytes 16) (p : Fin 8) (m : Vector Bool 16),
    ChecksumHolds w → m.toList.count true % 2 = 0 → ChecksumHolds (flipColumn w p m))

/-- R132: ENCODE of a frame in the domain gives the 16 bytes of the pseudocode and writes no state; outside the domain it is refused
REF_OPERAND. The identifier is little-endian; under the `ID_ORDER` that R80 lets a model admit beside it, its bytes are reversed. -/
def Obligations.EncodeGivesTheFrameBytes : Prop :=
  ∀ (f : CanFrame) (ch : Byte) (s : State) (a : Agent), s.issuer = .port a → CanServe s a →
    (f.dlc.toNat ≤ 8 ∧ ch.toNat ≤ 1 →
      ∃ w : Bytes 16, exec (.encode f ch) s = .next { s with answer := .bytes w } ∧
        w[0] = s.cfg.head ∧
        w[1] = (ch <<< 6) ||| ((if f.ext then (1 : Byte) else 0) <<< 5) ||| ((if f.rem then (1 : Byte) else 0) <<< 4) |||
          f.dlc ∧
        (s.cfg.idOrder = .le → w[2] = f.id.extractLsb' 0 8 ∧ w[3] = f.id.extractLsb' 8 8 ∧
          w[4] = f.id.extractLsb' 16 8 ∧ w[5] = f.id.extractLsb' 24 8) ∧
        (s.cfg.idOrder = .be → w[5] = f.id.extractLsb' 0 8 ∧ w[4] = f.id.extractLsb' 8 8 ∧
          w[3] = f.id.extractLsb' 16 8 ∧ w[2] = f.id.extractLsb' 24 8) ∧
        (w.toList.drop 6).take 8 = f.payload.toList ∧ w[14] = s.cfg.tail ∧ ChecksumHolds w) ∧
    (¬(f.dlc.toNat ≤ 8 ∧ ch.toNat ≤ 1) →
      exec (.encode f ch) s = .next { s with refused := true, answer := .refused .operand })

/-- R133: an encoded frame has its head, tail and checksum, verifies as valid, and ENCODE is injective. -/
def Obligations.EncodedFramesVerifyAndAreDistinct : Prop :=
  (∀ (c : Config) (f : CanFrame) (ch : Byte), f.dlc.toNat ≤ 8 → ch.toNat ≤ 1 →
    (encodeFrame c f ch)[0] = c.head ∧ (encodeFrame c f ch)[14] = c.tail ∧ ChecksumHolds (encodeFrame c f ch) ∧
    ∃ g, verifyFrame c (encodeFrame c f ch) = .valid g) ∧
  (∀ (c : Config) (f g : CanFrame) (ch dh : Byte), f.dlc.toNat ≤ 8 → ch.toNat ≤ 1 → g.dlc.toNat ≤ 8 → dh.toNat ≤ 1 →
    encodeFrame c f ch = encodeFrame c g dh → f = g ∧ ch = dh)

/-- R136: verifying an encoded frame gives the frame back, all eight payload bytes, with its channel; in either identifier
order. -/
def Obligations.VerifyInvertsEncode : Prop :=
  ∀ (c : Config) (f : CanFrame) (ch : Byte), f.dlc.toNat ≤ 8 → ch.toNat ≤ 1 →
    verifyFrame c (encodeFrame c f ch) =
      .valid { id := f.id, dlc := f.dlc.setWidth 4, ext := f.ext, rem := f.rem, payload := f.payload, chan := ch.getLsbD 0 }

/-- R137: flipping any single bit of an encoded frame makes VERIFY report HEAD in byte 0, TAIL in byte 14, CSUM elsewhere. -/
def Obligations.VerifyRejectsEverySingleBitFlip : Prop :=
  ∀ (c : Config) (f : CanFrame) (ch : Byte) (k : Fin 128), f.dlc.toNat ≤ 8 → ch.toNat ≤ 1 →
    verifyFrame c (flipBit (encodeFrame c f ch) k) =
      .invalid (if k.val / 8 = 0 then .head else if k.val / 8 = 14 then .tail else .csum)

/-- R135: VERIFY of 16 bytes gives the verdict of the pseudocode and writes no state; any other length is refused REF_OPERAND. The
identifier is little-endian; under the `ID_ORDER` that R80 lets a model admit beside it, its bytes are reversed. -/
def Obligations.VerifyGivesTheVerdict : Prop :=
  (∀ (w : Bytes 16) (s : State) (a : Agent), s.issuer = .port a → CanServe s a →
    exec (.verify w.toList) s = .next { s with answer := .verdict (
      if w[0] ≠ s.cfg.head then .invalid .head
      else if w[14] ≠ s.cfg.tail then .invalid .tail
      else if ¬ ChecksumHolds w then .invalid .csum
      else .valid {
        id := match s.cfg.idOrder with
          | .le => w[2].setWidth 32 ||| w[3].setWidth 32 <<< 8 ||| w[4].setWidth 32 <<< 16 ||| w[5].setWidth 32 <<< 24
          | .be => w[5].setWidth 32 ||| w[4].setWidth 32 <<< 8 ||| w[3].setWidth 32 <<< 16 ||| w[2].setWidth 32 <<< 24
        dlc := w[1].extractLsb' 0 4
        ext := w[1].getLsbD 5
        rem := w[1].getLsbD 4
        payload := #v[w[6], w[7], w[8], w[9], w[10], w[11], w[12], w[13]]
        chan := w[1].getLsbD 6 }) }) ∧
  (∀ (b : List Byte) (s : State) (a : Agent), s.issuer = .port a → CanServe s a → b.length ≠ 16 →
    exec (.verify b) s = .next { s with refused := true, answer := .refused .operand })

/-! ### Admission, refusals, faults -/

/-- R250: a command of an agent that issues it (R112), where the table does not admit it in the lifecycle state, is refused
REF_STATE; where the table admits it, it goes on and is not. -/
def Obligations.AdmissionFollowsTheTable : Prop :=
  ∀ (i : Instr) (s : State) (a : Agent), s.issuer = .port a → CanServe s a → isCommand i = true → issuedBy i a = true →
    (tableAdmits i s.life s.shutdown = false →
      exec i s = .next { s with refused := true, answer := .refused .state }) ∧
    (tableAdmits i s.life s.shutdown = true →
      ∃ t, exec i s = .next t ∧ t.answer ≠ .refused .state ∧ t.answer ≠ .held)

/-- R114: an admitted command with an operand outside its domain is refused REF_OPERAND, and never truncated or masked; for each
agent that issues the command (R112). -/
def Obligations.OperandsOutsideTheirDomainAreRefused : Prop :=
  ∀ (s : State) (a : Agent), s.issuer = .port a → CanServe s a →
    (∀ f ch n, a = .producer n → s.life = .running → ¬(f.dlc.toNat ≤ 8 ∧ ch.toNat ≤ 1) →
      exec (.write f ch) s = .next { s with refused := true, answer := .refused .operand }) ∧
    (∀ f ch, ¬(f.dlc.toNat ≤ 8 ∧ ch.toNat ≤ 1) →
      exec (.encode f ch) s = .next { s with refused := true, answer := .refused .operand }) ∧
    (∀ ch b, a = .controller → s.life ≠ .running → s.cfg.nChan ≤ ch.toNat →
      exec (.feed ch b) s = .next { s with refused := true, answer := .refused .operand }) ∧
    (∀ b, b.length ≠ 15 → exec (.cksum b) s = .next { s with refused := true, answer := .refused .operand }) ∧
    (∀ b, b.length ≠ 16 → exec (.verify b) s = .next { s with refused := true, answer := .refused .operand }) ∧
    (∀ p m e ctx, a = .controller → s.life ≠ .running →
      exec (.register p m e 0 ctx) s = .next { s with refused := true, answer := .refused .operand })

/-- R11: construction succeeds exactly when every constraint holds, and then gives the reset state; else REF_CONFIG. And at every
command (the model's reading of "as a whole", log entry 14) a bad configuration is refused REF_CONFIG, a raw mode REF_MODE (R196). -/
def Obligations.BadConfigurationsAreRefusedWhole : Prop :=
  (∀ c : Config,
    ((1 ≤ c.hdr.length ∧ c.hdr.length ≤ c.baseLen ∧ 16 ≤ c.baseLen ∧ c.baseLen ≤ c.rxqCap ∧ 1 ≤ c.txqFrames ∧
      (c.nChan = 1 ∨ c.nChan = 2) ∧ c.localChan ≤ 1 ∧ c.head ≠ c.tail ∧ c.head ≠ 0) →
      construct c = .ok (State.initial c)) ∧
    (¬(1 ≤ c.hdr.length ∧ c.hdr.length ≤ c.baseLen ∧ 16 ≤ c.baseLen ∧ c.baseLen ≤ c.rxqCap ∧ 1 ≤ c.txqFrames ∧
      (c.nChan = 1 ∨ c.nChan = 2) ∧ c.localChan ≤ 1 ∧ c.head ≠ c.tail ∧ c.head ≠ 0) →
      construct c = .error .config)) ∧
  (∀ (i : Instr) (s : State) (a : Agent), s.issuer = .port a → isCommand i = true → issuedBy i a = true → MayStep s a →
    (configOk s.cfg = false → exec i s = .next { s with refused := true, answer := .refused .config }) ∧
    (configOk s.cfg = true → s.cfg.mode = .raw → exec i s = .next { s with refused := true, answer := .refused .mode }))

/-- R245: the agent that raised a fault takes no further step: whatever operation is its, nothing of the spec's state
changes. -/
def Obligations.FaultedAgentsAreHeld : Prop :=
  ∀ (i : Instr) (s : State), mover i s ∈ s.halted → exec i s = .next { s with answer := .held }

/-- R7, R50, R51, R52: no step changes the configuration, and none removes an event, a fault or the refusal mark (nor a halted
agent, log entry 2). -/
def Obligations.ConfigurationAndStickyStateAreKept : Prop :=
  ∀ s t : State, step s = .next t →
    t.cfg = s.cfg ∧ s.evlog <+: t.evlog ∧ (∀ k ∈ s.faults, k ∈ t.faults) ∧ (s.refused = true → t.refused = true) ∧
    (∀ a ∈ s.halted, a ∈ t.halted)

/-- R58, R245: TICK.XFER without a transmit buffer and TICK.RX without a received one are F_INTERNAL: the fault is recorded,
the Worker is stopped, nothing else changes (the step had written nothing; that the rest then stays is log entry 2). -/
def Obligations.ReadsWithoutValueFault : Prop :=
  ∀ s : State, s.issuer = .block → CanServe s .worker → Active s →
    (s.ph = .xfer → s.txbuf = none →
      exec .tickXfer s = .next { s with
        faults := setInsert faultKey .internal s.faults
        halted := setInsert agentKey .worker s.halted
        answer := .faulted .internal }) ∧
    (s.ph = .rx → s.rxbuf = none →
      exec .tickRx s = .next { s with
        faults := setInsert faultKey .internal s.faults
        halted := setInsert agentKey .worker s.halted
        answer := .faulted .internal })

/-! ### Queues -/

/-- R71 to R77: the ByteQueue primitives on a queue within its capacity: ENQ is all or nothing, DEQ and DROP take the oldest bytes,
PEEK and WINDOW read; with the precondition false each gives nothing. -/
def Obligations.QueuePrimitivesFollowTheirRules : Prop :=
  ∀ (cap n k : Nat) (q b : List Byte),
    count q = q.length ∧
    (q.length + b.length ≤ cap → enq cap q b = some (q ++ b)) ∧ (cap < q.length + b.length → enq cap q b = none) ∧
    (n ≤ q.length → ∃ l r, deq q n = some (l, r) ∧ l.length = n ∧ q = l ++ r ∧ dropFront q n = some r) ∧
    (q.length < n → deq q n = none ∧ dropFront q n = none) ∧
    (∀ h : k < q.length, peek q k = some q[k]) ∧ (q.length ≤ k → peek q k = none) ∧
    (k + n ≤ q.length → ∃ w, window q k n = some w ∧ w.length = n ∧ ∀ j : Nat, j < n → w[j]? = q[k + j]?) ∧
    (q.length < k + n → window q k n = none)

/-! ### Lifecycle and WRITE -/

/-- R195: INIT in UNINIT takes one outcome, given or drawn: on success RUNNING with the Worker at (DRAINING, TOP), on
failure FAILED with the loop still off; in any other state it is refused REF_STATE. -/
def Obligations.InitStartsTheWorkerOrFails : Prop :=
  ∀ (dev : Ref) (s : State), s.issuer = .port .controller → CanServe s .controller →
    (s.life ≠ .uninit → exec (.init dev) s = .next { s with refused := true, answer := .refused .state }) ∧
    (∀ rest, s.life = .uninit → s.initIn = true :: rest → exec (.init dev) s = .next { s with
      initIn := rest, life := .running, shutdown := false, rxNew := false, ls := .draining, ph := .top
      answer := .ok }) ∧
    (∀ rest, s.life = .uninit → s.initIn = false :: rest → exec (.init dev) s = .next { s with
      initIn := rest, life := .failed, answer := .fail }) ∧
    (s.life = .uninit → s.initIn = [] → exec (.init dev) s = .next (
      if Config.initOutcome s.draws then { s with
        draws := s.draws + 1, life := .running, shutdown := false, rxNew := false, ls := .draining, ph := .top
        answer := .ok }
      else { s with draws := s.draws + 1, life := .failed, answer := .fail }))

/-- R197: CLOSE while RUNNING sets shutdown; otherwise, and a second time, it is refused REF_STATE. -/
def Obligations.CloseSetsShutdownOnce : Prop :=
  ∀ s : State, s.issuer = .port .controller → CanServe s .controller →
    (s.life = .running → s.shutdown = false → exec .close s = .next { s with shutdown := true, answer := .none }) ∧
    (¬(s.life = .running ∧ s.shutdown = false) →
      exec .close s = .next { s with refused := true, answer := .refused .state })

/-- R202: GETDESC returns DESC, only while RUNNING, and writes no state. -/
def Obligations.GetdescReturnsTheDescriptor : Prop :=
  ∀ s : State, s.issuer = .port .controller → CanServe s .controller →
    (s.life = .running → exec .getdesc s = .next { s with answer := .desc s.cfg.desc }) ∧
    (s.life ≠ .running → exec .getdesc s = .next { s with refused := true, answer := .refused .state })

/-- R205: WRITE while RUNNING, of a frame in the domain, enqueues the 16 encoded bytes and returns OK when they fit, and returns
FAIL and changes nothing when they do not; outside the domain, or in another state, it is refused. -/
def Obligations.WriteEnqueuesOrFails : Prop :=
  ∀ (f : CanFrame) (ch : Byte) (s : State) (n : Nat), s.issuer = .port (.producer n) → CanServe s (.producer n) →
    (s.life = .running → f.dlc.toNat ≤ 8 → ch.toNat ≤ 1 → s.txq.length + 16 ≤ 16 * s.cfg.txqFrames →
      exec (.write f ch) s = .next { s with txq := s.txq ++ (encodeFrame s.cfg f ch).toList, answer := .ok }) ∧
    (s.life = .running → f.dlc.toNat ≤ 8 → ch.toNat ≤ 1 → 16 * s.cfg.txqFrames < s.txq.length + 16 →
      exec (.write f ch) s = .next { s with answer := .fail }) ∧
    (s.life = .running → ¬(f.dlc.toNat ≤ 8 ∧ ch.toNat ≤ 1) →
      exec (.write f ch) s = .next { s with refused := true, answer := .refused .operand }) ∧
    (s.life ≠ .running → exec (.write f ch) s = .next { s with refused := true, answer := .refused .state })

/-- R200: CLOSE.JOIN, once the Worker has stopped, empties TXQ and every assembler and closes; until then the Controller is
held. -/
def Obligations.CloseJoinClearsTheQueues : Prop :=
  ∀ s : State, s.issuer = .block → CanServe s .controller → s.life = .running →
    (s.ls = .stopped → exec .closeJoin s = .next { s with
      txq := [], asm := s.asm.map (fun _ => { q := [], consumed := 0, extra := 0, resolved := false })
      life := .closed, answer := .none }) ∧
    (s.ls ≠ .stopped → exec .closeJoin s = .next { s with answer := .held })

/-! ### FilterRegistry -/

/-- R180: REGISTER with a callback, while not RUNNING, fills the lowest unused slot and returns it, or returns FAIL and changes
nothing when every slot is used; while RUNNING, or with a null callback, it is refused. -/
def Obligations.RegisterFillsTheLowestFreeSlot : Prop :=
  ∀ (p m : Word) (e : Bool) (cb ctx : Ref) (s : State), s.issuer = .port .controller → CanServe s .controller →
    (∀ i : Nat, s.life ≠ .running → cb ≠ 0 → s.ft[i]? = some none → (∀ j : Nat, j < i → s.ft[j]? ≠ some none) →
      exec (.register p m e cb ctx) s = .next { s with
        ft := s.ft.set i (some { pattern := p, mask := m, ext := e, cb := cb, ctx := ctx }), answer := .okSlot i }) ∧
    (s.life ≠ .running → cb ≠ 0 → (∀ x ∈ s.ft, x ≠ none) →
      exec (.register p m e cb ctx) s = .next { s with answer := .fail }) ∧
    (s.life = .running →
      exec (.register p m e cb ctx) s = .next { s with refused := true, answer := .refused .state }) ∧
    (s.life ≠ .running → cb = 0 →
      exec (.register p m e cb ctx) s = .next { s with refused := true, answer := .refused .operand })

/-- R181, R49: when the used slots form an initial segment, a successful REGISTER gets the slot whose index is the number of
used slots. -/
def Obligations.RegisterSlotIsTheNumberRegistered : Prop :=
  ∀ (p m : Word) (e : Bool) (cb ctx : Ref) (s t : State) (n : Nat), TableInv s →
    exec (.register p m e cb ctx) s = .next t → t.answer = .okSlot n →
    n = s.ft.countP (fun x => x.isSome)

/-- R185: dispatching a frame, in any lifecycle state, delivers to the first used slot that matches on all 32 bits, or reports the
identifier unknown, and writes the log alone; and DISPATCH performed alone outside RUNNING (the model's choice, log entry 12) has this
effect. -/
def Obligations.DispatchDeliversToTheFirstMatch : Prop :=
  ∀ (ch : Byte) (f : DecFrame) (s : State),
    (∀ (i : Nat) (e : FilterEntry), s.ft[i]? = some (some e) → f.id &&& e.mask = e.pattern →
      (∀ (j : Nat) (d : FilterEntry), j < i → s.ft[j]? = some (some d) → f.id &&& d.mask ≠ d.pattern) →
      dispatchFrame ch.toNat f s = { s with evlog := s.evlog ++ [.deliver i e.cb e.ctx ch.toNat f] }) ∧
    ((∀ e : FilterEntry, some e ∈ s.ft → f.id &&& e.mask ≠ e.pattern) →
      dispatchFrame ch.toNat f s = { s with evlog := s.evlog ++ [.unknownId ch.toNat f.id] }) ∧
    (s.issuer = .block → CanServe s .controller → s.life ≠ .running → ch.toNat < s.cfg.nChan →
      exec (.dispatch ch f) s = .next { dispatchFrame ch.toNat f s with answer := .none })

/-- R187 (all but the count of its last sentence) and R188: a pattern bit outside the mask never matches; a full mask matches one
identifier; an empty mask and pattern match all; and the extended flags, of the frame and of the entries, decide nothing. -/
def Obligations.MatchArithmetic : Prop :=
  (∀ (id : Word) (e : FilterEntry),
    (e.pattern &&& ~~~e.mask ≠ 0 → entryMatches id e = false) ∧
    (e.mask = BitVec.allOnes 32 → (entryMatches id e = true ↔ id = e.pattern)) ∧
    (e.mask = 0 → e.pattern = 0 → entryMatches id e = true)) ∧
  (∀ (c : Nat) (f g : DecFrame) (ft : List (Option FilterEntry)) (h : FilterEntry → Bool) (i : Nat) (cb ctx : Ref),
    f.id = g.id →
    (dispatchEvent c f ft = .deliver i cb ctx c f ↔
      dispatchEvent c g (ft.map (Option.map fun e => { e with ext := h e })) = .deliver i cb ctx c g))

/-! ### FrameAssembler -/

/-- R151: with fewer bytes than the attempt still needs, an extraction attempt, inside a FEED in any lifecycle state, returns
INCOMPLETE and changes nothing; so does EXTRACT performed alone outside RUNNING (the model's choice, log entry 12). -/
def Obligations.ExtractWaitsForAWholeFrame : Prop :=
  ∀ (ch : Byte) (s : State) (a : AsmState),
    s.asm[ch.toNat]? = some a → a.consumed ≤ a.q.length → a.consumed ≤ s.cfg.baseLen + a.extra →
    a.q.length - a.consumed < s.cfg.baseLen + a.extra - a.consumed →
    extract ch.toNat s = .ok .incomplete s ∧
    (s.issuer = .block → CanServe s .controller → s.life ≠ .running → ch.toNat < s.cfg.nChan →
      exec (.extract ch) s = .next { s with answer := .extracted .incomplete })

/-- R153 (and R152's branch): on the first byte that differs from the pattern, an extraction attempt takes exactly one byte off the
front of the queue, the assembler returns to zero, CORRUPT is emitted; inside a FEED in any lifecycle state, and by EXTRACT
performed alone outside RUNNING (log entry 12). -/
def Obligations.ExtractDropsExactlyOneByte : Prop :=
  ∀ (ch : Byte) (s : State) (d b h : Byte) (q : List Byte) (k : Nat), configOk s.cfg = true →
    s.asm[ch.toNat]? = some { q := d :: q } → s.cfg.baseLen ≤ (d :: q).length →
    (d :: q).take k = s.cfg.hdr.take k → (d :: q)[k]? = some b → s.cfg.hdr[k]? = some h → b ≠ h →
    let t : State := { s with
      asm := s.asm.set ch.toNat { q := q, consumed := 0, extra := 0, resolved := false }
      evlog := s.evlog ++ [.corrupt ch.toNat k b d] }
    extract ch.toNat s = .ok .corrupt t ∧
    (s.issuer = .block → CanServe s .controller → s.life ≠ .running → ch.toNat < s.cfg.nChan →
      exec (.extract ch) s = .next { t with answer := .extracted .corrupt })

/-- R154, R155, R160: when the header matches and the bytes the resolver asks for, now or in an attempt before, are there, the
window leaves the queue whole, and its first 16 bytes are judged: BAD_FRAME or a dispatch; inside a FEED in any lifecycle state,
and by EXTRACT performed alone outside RUNNING (log entry 12). -/
def Obligations.ExtractCompletesTheWindow : Prop :=
  ∀ (ch : Byte) (s : State) (q : List Byte) (n : Nat) (w : Bytes 16), configOk s.cfg = true →
    q.take s.cfg.hdr.length = s.cfg.hdr →
    ((s.asm[ch.toNat]? = some { q := q } ∧ n = (resolve s.cfg.resolver (q.take s.cfg.baseLen)).getD 0 ∧
        s.cfg.baseLen + n ≤ s.cfg.rxqCap) ∨
      (s.asm[ch.toNat]? = some { q := q, consumed := s.cfg.baseLen, extra := n, resolved := true } ∧ 0 < n)) →
    s.cfg.baseLen + n ≤ q.length → q.take 16 = w.toList →
    let t : State := { s with
      asm := s.asm.set ch.toNat { q := q.drop (s.cfg.baseLen + n), consumed := 0, extra := 0, resolved := false }
      evlog := s.evlog ++ [match verifyFrame s.cfg w with
        | .invalid r => .badFrame ch.toNat r
        | .valid f => dispatchEvent ch.toNat f s.ft] }
    extract ch.toNat s = .ok .complete t ∧
    (s.issuer = .block → CanServe s .controller → s.life ≠ .running → ch.toNat < s.cfg.nChan →
      exec (.extract ch) s = .next { t with answer := .extracted .complete })

/-- R155: when the resolver asks for bytes that have not come, the assembler awaits them, and the answer is recorded; inside a FEED
in any lifecycle state, and by EXTRACT performed alone outside RUNNING (log entry 12). -/
def Obligations.ExtractAwaitsExtraBytes : Prop :=
  ∀ (ch : Byte) (s : State) (q : List Byte) (n : Nat), configOk s.cfg = true →
    s.asm[ch.toNat]? = some { q := q } → q.take s.cfg.hdr.length = s.cfg.hdr →
    s.cfg.baseLen ≤ q.length → resolve s.cfg.resolver (q.take s.cfg.baseLen) = some n →
    q.length < s.cfg.baseLen + n → s.cfg.baseLen + n ≤ s.cfg.rxqCap →
    let t : State := { s with
      asm := s.asm.set ch.toNat { q := q, consumed := s.cfg.baseLen, extra := n, resolved := true } }
    extract ch.toNat s = .ok .incomplete t ∧
    (s.issuer = .block → CanServe s .controller → s.life ≠ .running → ch.toNat < s.cfg.nChan →
      exec (.extract ch) s = .next { t with answer := .extracted .incomplete })

/-- R156, R245: a resolver answer beyond the queue's capacity is F_ASM_OVERSIZE, inside a FEED in any lifecycle state: no event is
emitted; and by EXTRACT performed alone outside RUNNING (log entry 12) the fault is recorded and the Controller stopped (the
assembler's fields are the model's choice, log entry 2, and are not stated). -/
def Obligations.OversizeFramesFault : Prop :=
  ∀ (ch : Byte) (s : State) (q : List Byte) (n : Nat), configOk s.cfg = true →
    s.asm[ch.toNat]? = some { q := q } → q.take s.cfg.hdr.length = s.cfg.hdr →
    s.cfg.baseLen ≤ q.length → resolve s.cfg.resolver (q.take s.cfg.baseLen) = some n →
    s.cfg.rxqCap < s.cfg.baseLen + n →
    (∃ u, extract ch.toNat s = .stop (.asmOversize ch.toNat) u ∧ u.evlog = s.evlog ∧ u.txq = s.txq ∧ u.ft = s.ft) ∧
    (s.issuer = .block → CanServe s .controller → s.life ≠ .running → ch.toNat < s.cfg.nChan →
      ∃ t, exec (.extract ch) s = .next t ∧ t.answer = .faulted (.asmOversize ch.toNat) ∧
        (.asmOversize ch.toNat) ∈ t.faults ∧ .controller ∈ t.halted ∧ t.evlog = s.evlog ∧ t.txq = s.txq ∧ t.ft = s.ft)

/-- R160: the frame callback, inside a FEED in any lifecycle state, verifies the first 16 bytes of its window and emits BAD_FRAME,
or dispatches the frame; it writes the log alone; and with `HDR = [HEAD]` no window that an extraction attempt takes gives the reason
HEAD. FRAMECB performed alone outside RUNNING judges any window of `BASE_LEN` bytes or more (the model's choice, log entries 12 and
23). -/
def Obligations.FramecbVerifiesThenDispatches : Prop :=
  (∀ (ch : Byte) (l : List Byte) (w : Bytes 16) (s : State), l.take 16 = w.toList →
    let t : State := { s with evlog := s.evlog ++ [match verifyFrame s.cfg w with
      | .invalid r => .badFrame ch.toNat r
      | .valid f => dispatchEvent ch.toNat f s.ft] }
    canFramecb ch.toNat l s = .ok () t ∧
    (s.issuer = .block → CanServe s .controller → s.life ≠ .running → ch.toNat < s.cfg.nChan → s.cfg.baseLen ≤ l.length →
      exec (.framecb ch l) s = .next { t with answer := .none })) ∧
  (∀ (c : Nat) (s t : State) (r : Extracted) (es : List Event), configOk s.cfg = true → s.cfg.hdr = [s.cfg.head] →
    (∀ a ∈ s.asm, AsmOk s.cfg a) → extract c s = .ok r t → t.evlog = s.evlog ++ es → .badFrame c .head ∉ es)

/-- R150: a chunk that does not fit is rejected whole: RX_OVERFLOW is emitted and nothing is appended. -/
def Obligations.FeedRejectsAnOverfullChunk : Prop :=
  ∀ (ch : Byte) (b : List Byte) (s : State) (a : AsmState), s.issuer = .port .controller → CanServe s .controller →
    s.life ≠ .running → ch.toNat < s.cfg.nChan → s.asm[ch.toNat]? = some a →
    a.q.length ≤ s.cfg.rxqCap → s.cfg.rxqCap - a.q.length < b.length →
    exec (.feed ch b) s = .next { s with
      evlog := s.evlog ++ [.rxOverflow ch.toNat b.length], answer := .rejected }

/-- R162 and R164: on an empty assembler of the CAN instance, a prefix without HEAD costs exactly one CORRUPT for each of its
bytes, and every encoded frame after it is completed and dispatched, in order; the queue ends empty. -/
def Obligations.FeedRecoversAndDeliversInOrder : Prop :=
  ∀ (ch : Byte) (g : List Byte) (fs : List (CanFrame × Byte)) (s : State), s.issuer = .port .controller →
    CanServe s .controller → CanInstance s.cfg → s.life ≠ .running → ch.toNat < s.cfg.nChan →
    s.asm[ch.toNat]? = some {} → s.cfg.head ∉ g → (∀ p ∈ fs, p.1.dlc.toNat ≤ 8 ∧ p.2.toNat ≤ 1) →
    (g = [] ∨ fs ≠ []) → g.length + 16 * fs.length ≤ s.cfg.rxqCap →
    exec (.feed ch (g ++ fs.flatMap fun p => (encodeFrame s.cfg p.1 p.2).toList)) s = .next { s with
      evlog := s.evlog ++ (g.map fun b => .corrupt ch.toNat 0 b b) ++
        (fs.map fun p => dispatchEvent ch.toNat
          { id := p.1.id, dlc := p.1.dlc.setWidth 4, ext := p.1.ext, rem := p.1.rem, payload := p.1.payload
            chan := p.2.getLsbD 0 } s.ft)
      answer := .accepted }

/-- R163: a HEAD byte before a frame takes the frame's first 15 bytes into its window; the window is removed whole, whatever
VERIFY says of it, and the frame's last byte is left. -/
def Obligations.SpuriousHeadLosesTheFrame : Prop :=
  ∀ (ch : Byte) (f w : Bytes 16) (s : State), s.issuer = .port .controller → CanServe s .controller →
    CanInstance s.cfg → s.life ≠ .running → ch.toNat < s.cfg.nChan → s.asm[ch.toNat]? = some {} →
    17 ≤ s.cfg.rxqCap → w.toList = s.cfg.head :: f.toList.take 15 →
    exec (.feed ch (s.cfg.head :: f.toList)) s = .next { s with
      asm := s.asm.set ch.toNat { q := [f[15]] }
      evlog := s.evlog ++ [match verifyFrame s.cfg w with
        | .invalid r => .badFrame ch.toNat r
        | .valid g => dispatchEvent ch.toNat g s.ft]
      answer := .accepted }

/-- R161: from an empty assembler at rest, two ways of cutting one byte sequence into chunks, none of them rejected, give the
same state: the same events in the same order and the same assembler. -/
def Obligations.ChunkingDoesNotMatter : Prop :=
  ∀ (c : Nat) (xs ys : List (List Byte)) (s t u : State), configOk s.cfg = true → s.asm[c]? = some {} →
    xs.flatten = ys.flatten → feedChunks c xs s = some t → feedChunks c ys s = some u → t = u

/-- R150, R157, R38, R156: an admitted FEED in its domain, from stable assemblers, always completes: accepted, with nothing more to
extract, or rejected because the chunk does not fit, and the assemblers are stable; or in the oversize fault of R156. -/
def Obligations.FeedEndsInAStableState : Prop :=
  ∀ (ch : Byte) (b : List Byte) (s : State), s.issuer = .port .controller → CanServe s .controller → AsmInv s →
    s.life ≠ .running → ch.toNat < s.cfg.nChan →
    ∃ t, exec (.feed ch b) s = .next t ∧
      ((t.answer = .accepted ∧ extract ch.toNat t = .ok .incomplete t ∧ AsmInv t) ∨
       (t.answer = .rejected ∧ t.evlog = s.evlog ++ [.rxOverflow ch.toNat b.length] ∧ t.asm = s.asm ∧ AsmInv t) ∨
       (t.answer = .faulted (.asmOversize ch.toNat) ∧ .asmOversize ch.toNat ∈ t.faults))

/-- R150 (state written), R98: FEED writes its own assembler and the log, and nothing else but its result and the marks of R245
and R246; the log grows at its end. -/
def Obligations.FeedFrame : Prop :=
  ∀ (ch : Byte) (b : List Byte) (s t : State), exec (.feed ch b) s = .next t →
    t = { s with asm := t.asm, evlog := t.evlog, faults := t.faults, halted := t.halted, refused := t.refused
                 answer := t.answer } ∧
    s.evlog <+: t.evlog ∧ t.asm.length = s.asm.length ∧ ∀ c, c ≠ ch.toNat → t.asm[c]? = s.asm[c]?

/-! ### Exchange FSM -/

/-- R215: TICK.TOP stops on shutdown, else takes the oldest frame of TXQ or the idle sentinel (R105) into the transmit
buffer. -/
def Obligations.TickTopBuildsTheTransmitBuffer : Prop :=
  ∀ s : State, s.issuer = .block → CanServe s .worker → s.ph = .top → Active s →
    (s.shutdown = true → exec .tickTop s = .next { s with ls := .stopped, answer := .none }) ∧
    (∀ w : Bytes 16, s.shutdown = false → s.txq.take 16 = w.toList →
      exec .tickTop s = .next { s with
        rxNew := false, txq := s.txq.drop 16, txbuf := some w, txkind := some .frame, ph := .xfer, answer := .none }) ∧
    (s.shutdown = false → s.txq.length < 16 →
      exec .tickTop s = .next { s with
        rxNew := false
        txbuf := some #v[0, BitVec.ofNat 8 s.cfg.localChan <<< 6, 0, 0, 0, 0, 0, 0, 0, 0, 0, 0, 0, 0, 0, 0]
        txkind := some .idle, ph := .xfer, answer := .none })

/-- R219: TICK.XFER records one exchange of the transmit buffer; on success it fills the receive buffer, on failure it logs and
loses the frame. The answer is a given one or, with none given, the free value. -/
def Obligations.TickXferExchangesOnce : Prop :=
  ∀ (s : State) (tx : Bytes 16) (kind : TxKind), s.issuer = .block → CanServe s .worker → s.ph = .xfer → Active s →
    s.txbuf = some tx → s.txkind = some kind →
    (∀ rx rest, s.xferIn = .received rx :: rest → exec .tickXfer s = .next { s with
      xferIn := rest, evlog := s.evlog ++ [.xfer tx kind true (some rx)], rxbuf := some rx, ph := .rx
      answer := .none }) ∧
    (∀ rest, s.xferIn = .failed :: rest → exec .tickXfer s = .next { s with
      xferIn := rest, evlog := s.evlog ++ [.xfer tx kind false none, .xferFail], ph := .decide, answer := .none }) ∧
    (s.xferIn = [] → exec .tickXfer s = .next (match Config.transport s.draws with
      | .received rx => { s with
        draws := s.draws + 1, evlog := s.evlog ++ [.xfer tx kind true (some rx)], rxbuf := some rx, ph := .rx
        answer := .none }
      | .failed => { s with
        draws := s.draws + 1, evlog := s.evlog ++ [.xfer tx kind false none, .xferFail], ph := .decide
        answer := .none }))

/-- R222 (and R109): TICK.RX judges the received bytes in the order HEAD, TAIL, CSUM, REMOTE, CHAN, and discards with the first
that applies; what passes is fed to its assembler, and the new-data flag is set. Where the feed ends in a fault (F_ASM_OVERSIZE,
R156), the fault is recorded and the Worker halted (R245), the rest of the step is preempted (R249 (e)), and every other field, `ph`,
`rxNew` and the assembler among them, is as the feed left it: what they hold then is the model's choice (log entry 2). -/
def Obligations.TickRxJudgesTheReceivedBytes : Prop :=
  ∀ (s : State) (w : Bytes 16), s.issuer = .block → CanServe s .worker → s.ph = .rx → Active s → s.rxbuf = some w →
    let discarded (r : Reason) : State :=
      { s with evlog := s.evlog ++ [.rxDiscard r], ph := .decide, answer := .none }
    if w[0] ≠ s.cfg.head then exec .tickRx s = .next (discarded .head)
    else if w[14] ≠ s.cfg.tail then exec .tickRx s = .next (discarded .tail)
    else if ¬ ChecksumHolds w then exec .tickRx s = .next (discarded .csum)
    else if w[1].getLsbD 4 = true then exec .tickRx s = .next (discarded .remote)
    else if s.cfg.nChan ≤ (w[1].getLsbD 6).toNat then exec .tickRx s = .next (discarded .chan)
    else
      (∀ r t, feed (w[1].getLsbD 6).toNat w.toList s = .ok r t →
        exec .tickRx s = .next { t with rxNew := true, ph := .decide, answer := .none }) ∧
      (∀ k t, feed (w[1].getLsbD 6).toNat w.toList s = .stop k t →
        exec .tickRx s = .next { t with
          faults := setInsert faultKey k t.faults
          halted := setInsert agentKey .worker t.halted
          answer := .faulted k })

/-- R165, with the premise that the assembler is at rest and empty (log entry 21): in the CAN instance a received frame that
passes every check is dispatched once, its assembler is empty again, and the new-data flag is set. -/
def Obligations.ReceivedFrameIsDispatchedOnce : Prop :=
  ∀ (s : State) (w : Bytes 16) (f : DecFrame), s.issuer = .block → CanServe s .worker → CanInstance s.cfg → s.ph = .rx →
    Active s → s.rxbuf = some w → verifyFrame s.cfg w = .valid f → f.rem = false → f.chan.toNat < s.cfg.nChan →
    s.asm[f.chan.toNat]? = some {} →
    exec .tickRx s = .next { s with
      evlog := s.evlog ++ [dispatchEvent f.chan.toNat f s.ft], rxNew := true, ph := .decide, answer := .none }

/-- R109, R222: WF.DATA is discarded for a wrong checksum or a channel out of range, and else dispatched (premise as above, log
entry 21). -/
def Obligations.WfDataIsRoutedOrDiscarded : Prop :=
  ∀ (s : State) (f : WireFields), CanServe s .worker → CanInstance s.cfg → s.cfg.head = 0x7E → s.cfg.tail = 0x7D →
    s.cfg.idOrder = .le → s.ph = .rx → Active s →
    (¬ ChecksumHolds (wireBytes false f) → exec (.wfData f) s = .next { s with
      evlog := s.evlog ++ [.rxDiscard .csum], ph := .decide, answer := .none }) ∧
    (ChecksumHolds (wireBytes false f) → s.cfg.nChan ≤ f.chan.toNat → exec (.wfData f) s = .next { s with
      evlog := s.evlog ++ [.rxDiscard .chan], ph := .decide, answer := .none }) ∧
    (ChecksumHolds (wireBytes false f) → f.chan.toNat < s.cfg.nChan → s.asm[f.chan.toNat]? = some {} →
      exec (.wfData f) s = .next { s with
        evlog := s.evlog ++ [dispatchEvent f.chan.toNat
          { id := f.id, dlc := f.dlc, ext := f.ext, rem := false, payload := f.payload, chan := f.chan } s.ft]
        rxNew := true, ph := .decide, answer := .none })

/-- R109, R222, R105: WF.REMOTE with a good checksum is discarded as remote, else for its checksum; WF.IDLE, the idle sentinel, is
discarded for its head at any receiver; no assembler sees either. -/
def Obligations.WfRemoteAndWfIdleAreDiscarded : Prop :=
  (∀ (s : State) (f : WireFields), CanServe s .worker → s.cfg.head = 0x7E → s.cfg.tail = 0x7D → s.ph = .rx → Active s →
    exec (.wfRemote f) s = .next { s with
      evlog := s.evlog ++ [.rxDiscard (if ChecksumHolds (wireBytes true f) then .remote else .csum)]
      ph := .decide, answer := .none }) ∧
  (∀ (s : State) (c : Bool), CanServe s .worker → s.ph = .rx → Active s →
    exec (.wfIdle c) s = .next { s with evlog := s.evlog ++ [.rxDiscard .head], ph := .decide, answer := .none })

/-- R109, R222: TICK.RX does what the WireFrame row in the receive buffer means. -/
def Obligations.TickRxRunsTheFrameInTheBuffer : Prop :=
  ∀ (s : State) (w : Bytes 16) (i : Instr), s.issuer = .block → s.rxbuf = some w → decode .link w.toList = .ok (i, []) →
    exec .tickRx s = exec i s

/-- R225, R228: TICK.DECIDE goes on draining when TXQ holds a frame or new data came, else goes idle and sleeps; TICK.SLEEP
returns to the top of the iteration and does nothing else. -/
def Obligations.TickDecideDrainsOrSleeps : Prop :=
  ∀ s : State, s.issuer = .block → CanServe s .worker →
    (s.ph = .decide → Active s → 16 ≤ s.txq.length ∨ s.rxNew = true →
      exec .tickDecide s = .next { s with ls := .draining, ph := .top, answer := .none }) ∧
    (s.ph = .decide → Active s → ¬(16 ≤ s.txq.length ∨ s.rxNew = true) →
      exec .tickDecide s = .next { s with ls := .idle, ph := .sleep, answer := .none }) ∧
    (s.ph = .sleep → s.ls = .idle → exec .tickSleep s = .next { s with ph := .top, answer := .none })

/-- R233, R210, R247: with the loop off or stopped, no operation of the Worker is performed or refused, whichever it is and wherever
it is issued; no Worker step runs outside its row of R210. R92: while RUNNING, no sub-operation by itself (log entry 12). R6,
R112: a command is no step of an agent that the table does not give it to (log entry 26). Each is held. -/
def Obligations.WhatIsNotEnabledIsHeld : Prop :=
  (∀ (i : Instr) (s : State), mover i s = .worker → (s.ls = .off ∨ s.ls = .stopped) →
    exec i s = .next { s with answer := .held }) ∧
  (∀ s : State, s.issuer = .block →
    (s.ph ≠ .top → exec .tickTop s = .next { s with answer := .held }) ∧
    (s.ph ≠ .xfer → exec .tickXfer s = .next { s with answer := .held }) ∧
    (s.ph ≠ .rx → exec .tickRx s = .next { s with answer := .held }) ∧
    (s.ph ≠ .decide → exec .tickDecide s = .next { s with answer := .held }) ∧
    (¬(s.ph = .sleep ∧ s.ls = .idle) → exec .tickSleep s = .next { s with answer := .held })) ∧
  (∀ (ch : Byte) (l : List Byte) (f : DecFrame) (s : State), s.issuer = .block → s.life = .running →
    exec (.extract ch) s = .next { s with answer := .held } ∧
    exec (.framecb ch l) s = .next { s with answer := .held } ∧
    exec (.dispatch ch f) s = .next { s with answer := .held }) ∧
  (∀ (i : Instr) (s : State), isCommand i = true → (∀ a, s.issuer = .port a → issuedBy i a = false) →
    exec i s = .next { s with answer := .held })

/-! ### The whole machine -/

/-- R57: what reset leaves, under any configuration, field by field (the fields after `refused` are the model's own). -/
def Obligations.ResetValues : Prop :=
  ∀ c : Config,
    let s := State.initial c
    s.life = .uninit ∧ s.shutdown = false ∧ s.txq = [] ∧ s.asm.length = c.nChan ∧
    (∀ a ∈ s.asm, a.q = [] ∧ a.consumed = 0 ∧ a.extra = 0 ∧ a.resolved = false) ∧
    s.ls = .off ∧ s.ph = .top ∧ s.txbuf = none ∧ s.txkind = none ∧ s.rxbuf = none ∧ s.rxNew = false ∧
    s.ft = List.replicate c.filterSlots none ∧ s.evlog = [] ∧ s.faults = [] ∧ s.refused = false

/-- The invariants of R35, R38, R49 and of the sequencer hold at reset, and after construction with any configuration that R11
allows. -/
def Obligations.ResetMeetsTheInvariants : Prop :=
  Inv State.reset ∧ ∀ s, Launch s → Inv s

/-- R35, R38, R49, R58 as one inductive invariant: every step of every agent keeps it, from every state that has it. That R38 holds
also after a step that ends in F_ASM_OVERSIZE rests on what the model leaves in the other fields (log entry 2, the model's choice);
that the fault and halted sets are in order (SetInv) is the model's own form (log entry 19). -/
def Obligations.StepKeepsTheInvariants : Prop :=
  ∀ s t : State, Inv s → step s = .next t → Inv t

/-- R245, R58: with the CAN instance no fault is reachable: no step from an unfaulted state that meets the invariants ends in
one. -/
def Obligations.CanInstanceNeverFaults : Prop :=
  ∀ s t : State, Inv s → CanInstance s.cfg → NoFault s → step s = .next t → NoFault t

/-- R251, R31: the lifecycle state changes only from UNINIT to RUNNING or FAILED, and from RUNNING to CLOSED. -/
def Obligations.LifecycleMovesOnlyForward : Prop :=
  ∀ s t : State, step s = .next t →
    t.life = s.life ∨ (s.life = .uninit ∧ (t.life = .running ∨ t.life = .failed)) ∨
    (s.life = .running ∧ s.ls = .stopped ∧ t.life = .closed)

/-- R210, R195: `(ls, ph)` moves only by a row of the Worker's table, under that row's condition (an exchange succeeded or failed as
its XFER record says, R219), or when INIT starts the loop. -/
def Obligations.SequencerMovesOnlyByItsTable : Prop :=
  ∀ s t : State, step s = .next t →
    (t.ls = s.ls ∧ t.ph = s.ph) ∨ SequencerRow s t ∨
    (s.life = .uninit ∧ t.life = .running ∧ t.ls = .draining ∧ t.ph = .top)

/-- R92, R280: the filter table does not change while the link runs, a frame is dispatched then only where TICK.RX is enabled, and no
used slot is ever changed. -/
def Obligations.FilterTableIsWrittenOnlyBeforeOrAfterRunning : Prop :=
  ∀ s t : State, step s = .next t →
    (s.life = .running → t.ft = s.ft) ∧
    (s.life = .running → ∀ es e, t.evlog = s.evlog ++ es → e ∈ es → isDispatchEvent e = true → Active s ∧ s.ph = .rx) ∧
    ∀ (i : Nat) (e : FilterEntry), s.ft[i]? = some (some e) → t.ft[i]? = some (some e)

/-- R91, R34: TXQ changes only by one encoded frame at its end while RUNNING, by its oldest 16 bytes going to the transmit buffer,
or by being emptied once the Worker has stopped. -/
def Obligations.OutboundQueueIsAFifoOfFrames : Prop :=
  ∀ s t : State, step s = .next t →
    t.txq = s.txq ∨
    (∃ (f : CanFrame) (ch : Byte), s.life = .running ∧ f.dlc.toNat ≤ 8 ∧ ch.toNat ≤ 1 ∧
      s.txq.length + 16 ≤ 16 * s.cfg.txqFrames ∧ t.txq = s.txq ++ (encodeFrame s.cfg f ch).toList) ∨
    (∃ w : Bytes 16, Active s ∧ s.ph = .top ∧ s.txq = w.toList ++ t.txq ∧ t.txbuf = some w ∧
      t.txkind = some .frame) ∨
    (s.ls = .stopped ∧ s.life = .running ∧ t.txq = [])

/-- R198: once CLOSE has been taken, no step begins another exchange: the Worker is due to exchange after a step only when it was
due before it. -/
def Obligations.NoExchangeBeginsAfterClose : Prop :=
  ∀ s t : State, s.life ≠ .uninit → s.shutdown = true → step s = .next t →
    t.shutdown = true ∧ (Active t → t.ph = .xfer → Active s ∧ s.ph = .xfer)

/-- R98, R219, R281: the transmit buffer is written only by TICK.TOP and the receive buffer only by TICK.XFER, performed by the
block for the Worker, each where it is enabled; an exchange is logged only by TICK.XFER. -/
def Obligations.OnlyTheWorkerTouchesTheBuffers : Prop :=
  ∀ s t : State, step s = .next t →
    (t.txbuf ≠ s.txbuf → Active s ∧ s.ph = .top ∧ ∃ u, fetch s = .run .tickTop u ∧ u.issuer = .block) ∧
    (t.rxbuf ≠ s.rxbuf → Active s ∧ s.ph = .xfer ∧ ∃ u, fetch s = .run .tickXfer u ∧ u.issuer = .block) ∧
    (∀ es tx k ok rx, t.evlog = s.evlog ++ es → .xfer tx k ok rx ∈ es →
      Active s ∧ s.ph = .xfer ∧ s.txbuf = some tx ∧ s.txkind = some k ∧
      ∃ u, fetch s = .run .tickXfer u ∧ u.issuer = .block)
end

