-- ==== Sys2Proof/Laws/Codec.lean ====
section
/-! SUPPORT. The checksum as an XOR fold, sixteen bytes from a list, and the bytes of a frame one by one. -/

namespace Sys2Proof.Machine

theorem foldl_xor_start (l : List Byte) (a : Byte) :
    l.foldl (fun x y => x ^^^ y) a = a ^^^ l.foldl (fun x y => x ^^^ y) 0 := by
  induction l generalizing a with
  | nil => simp
  | cons b t ih =>
    simp only [List.foldl_cons]
    rw [ih (a ^^^ b), ih (0 ^^^ b)]
    simp [BitVec.xor_assoc]

@[simp] theorem cksumOf_nil : cksumOf [] = 0 := rfl

theorem cksumOf_cons (b : Byte) (l : List Byte) : cksumOf (b :: l) = b ^^^ cksumOf l := by
  simp only [cksumOf, List.foldl_cons]
  rw [foldl_xor_start]
  simp

theorem cksumOf_append (l m : List Byte) : cksumOf (l ++ m) = cksumOf l ^^^ cksumOf m := by
  induction l with
  | nil => simp
  | cons b t ih => simp [cksumOf_cons, ih, BitVec.xor_assoc]

theorem bytes16?_eq_some_iff (l : List Byte) (w : Bytes 16) : bytes16? l = some w ↔ l = w.toList := by
  unfold bytes16?
  constructor
  · intro h
    split at h
    · cases h; rfl
    · cases h
  · rintro rfl
    obtain ⟨⟨l⟩, h⟩ := w
    exact dif_pos h

@[simp] theorem bytes16?_toList (w : Bytes 16) : bytes16? w.toList = some w := (bytes16?_eq_some_iff _ _).2 rfl

theorem bytes16?_isSome (l : List Byte) (h : l.length = 16) : ∃ w, bytes16? l = some w :=
  ⟨⟨⟨l⟩, h⟩, (bytes16?_eq_some_iff _ _).2 rfl⟩

theorem bytes16?_eq_none_iff (l : List Byte) : bytes16? l = none ↔ l.length ≠ 16 := by
  simp [bytes16?]

/-- A 16-byte sequence is the list of its bytes. -/
theorem toList_eq (w : Bytes 16) : w.toList =
    [w[0], w[1], w[2], w[3], w[4], w[5], w[6], w[7], w[8], w[9], w[10], w[11], w[12], w[13], w[14], w[15]] := by
  apply List.ext_getElem
  · simp
  · intro i h1 h2
    simp only [Vector.getElem_toList]
    have : i < 16 := by simpa using h1
    interval_cases i <;> rfl

/-- Two 16-byte sequences with the same list are the same. -/
theorem toList_inj16 {v w : Bytes 16} (h : v.toList = w.toList) : v = w := Vector.toList_inj.1 h

theorem sealFrame_toList (b : Bytes 15) : (sealFrame b).toList = b.toList ++ [cksumOf b.toList] := by
  obtain ⟨⟨l⟩, h⟩ := b
  simp [sealFrame]

/-- Bytes 0..14 of a sealed frame are its body. -/
theorem sealFrame_take (b : Bytes 15) : (sealFrame b).toList.take 15 = b.toList := by
  rw [sealFrame_toList, List.take_left' (by simp)]

theorem sealFrame_last (b : Bytes 15) : (sealFrame b)[15] = cksumOf b.toList := by
  simp [sealFrame]

theorem sealFrame_getElem (b : Bytes 15) (i : Nat) (h : i < 15) : (sealFrame b)[i] = b[i] := by
  simp [sealFrame, h]

theorem frameBody_toList (hd ct : Byte) (id : Bytes 4) (p : Bytes 8) (tl : Byte) : (frameBody hd ct id p tl).toList =
    [hd, ct, id[0], id[1], id[2], id[3], p[0], p[1], p[2], p[3], p[4], p[5], p[6], p[7], tl] := rfl

/-- Bit `i` of the word of four bytes (R80). -/
theorem wordOfLE_getLsbD (a b c d : Byte) (i : Nat) (hi : i < 32) :
    (wordOfLE a b c d).getLsbD i =
      if i < 8 then a.getLsbD i else if i < 16 then b.getLsbD (i - 8)
      else if i < 24 then c.getLsbD (i - 16) else d.getLsbD (i - 24) := by
  simp only [wordOfLE, BitVec.getLsbD_or, BitVec.getLsbD_setWidth, BitVec.getLsbD_shiftLeft]
  by_cases h0 : i < 8
  · simp [hi, h0, show i < 16 by omega, show i < 24 by omega]
  by_cases h1 : i < 16
  · simp [hi, h0, h1, show i < 24 by omega, show i - 8 < 32 by omega, a.getLsbD_of_ge i (by omega)]
  by_cases h2 : i < 24
  · simp [hi, h0, h1, h2, show i - 8 < 32 by omega, show i - 16 < 32 by omega, a.getLsbD_of_ge i (by omega),
      b.getLsbD_of_ge (i - 8) (by omega)]
  · simp [hi, h0, h1, h2, show i - 8 < 32 by omega, show i - 16 < 32 by omega, show i - 24 < 32 by omega,
      a.getLsbD_of_ge i (by omega), b.getLsbD_of_ge (i - 8) (by omega), c.getLsbD_of_ge (i - 16) (by omega)]

/-- The word of the bytes of a word (R80): the bytes come back in the same order. -/
theorem wordOfLE_bytesOfLE (v : Word) :
    wordOfLE (bytesOfLE v)[0] (bytesOfLE v)[1] (bytesOfLE v)[2] (bytesOfLE v)[3] = v := by
  apply BitVec.eq_of_getLsbD_eq
  intro i hi
  rw [wordOfLE_getLsbD _ _ _ _ i hi]
  have e (k j : Nat) (hj : j < 8) : (v.extractLsb' k 8).getLsbD j = v.getLsbD (k + j) := by
    simp [hj]
  show (if i < 8 then (v.extractLsb' 0 8).getLsbD i else if i < 16 then (v.extractLsb' 8 8).getLsbD (i - 8)
    else if i < 24 then (v.extractLsb' 16 8).getLsbD (i - 16) else (v.extractLsb' 24 8).getLsbD (i - 24)) = _
  split
  · rw [e _ _ (by omega)]; congr 1; omega
  · split
    · rw [e _ _ (by omega)]; congr 1; omega
    · split
      · rw [e _ _ (by omega)]; congr 1; omega
      · rw [e _ _ (by omega)]; congr 1; omega

/-- Byte `k` of the word of four bytes. -/
theorem wordOfLE_extract (a b c d x : Byte) (k : Nat)
    (h : ∀ j : Nat, j < 8 → (wordOfLE a b c d).getLsbD (k + j) = x.getLsbD j) :
    (wordOfLE a b c d).extractLsb' k 8 = x := by
  apply BitVec.eq_of_getLsbD_eq
  intro j hj
  simp [hj, h j hj]

/-- The bytes of a word made of four bytes are those bytes. -/
theorem bytesOfLE_wordOfLE (a b c d : Byte) : bytesOfLE (wordOfLE a b c d) = #v[a, b, c, d] := by
  have h0 : (wordOfLE a b c d).extractLsb' 0 8 = a := by
    refine wordOfLE_extract a b c d a 0 fun j hj => ?_
    rw [wordOfLE_getLsbD _ _ _ _ _ (by omega), if_pos (by omega), Nat.zero_add]
  have h1 : (wordOfLE a b c d).extractLsb' 8 8 = b := by
    refine wordOfLE_extract a b c d b 8 fun j hj => ?_
    rw [wordOfLE_getLsbD _ _ _ _ _ (by omega), if_neg (by omega), if_pos (by omega), Nat.add_sub_cancel_left]
  have h2 : (wordOfLE a b c d).extractLsb' 16 8 = c := by
    refine wordOfLE_extract a b c d c 16 fun j hj => ?_
    rw [wordOfLE_getLsbD _ _ _ _ _ (by omega), if_neg (by omega), if_neg (by omega), if_pos (by omega),
      Nat.add_sub_cancel_left]
  have h3 : (wordOfLE a b c d).extractLsb' 24 8 = d := by
    refine wordOfLE_extract a b c d d 24 fun j hj => ?_
    rw [wordOfLE_getLsbD _ _ _ _ _ (by omega), if_neg (by omega), if_neg (by omega), if_neg (by omega),
      Nat.add_sub_cancel_left]
  simp only [bytesOfLE, h0, h1, h2, h3]

theorem payload_eq (p : Bytes 8) : #v[p[0], p[1], p[2], p[3], p[4], p[5], p[6], p[7]] = p := by
  apply Vector.ext
  intro i hi
  have : i = 0 ∨ i = 1 ∨ i = 2 ∨ i = 3 ∨ i = 4 ∨ i = 5 ∨ i = 6 ∨ i = 7 := by omega
  rcases this with rfl | rfl | rfl | rfl | rfl | rfl | rfl | rfl <;> simp

/-- The control byte's fields are what it was made of (R102). -/
theorem ctrlByte_fields (r c e m : Bool) (d : BitVec 4) :
    (ctrlByte r c e m d).extractLsb' 0 4 = d ∧ (ctrlByte r c e m d).getLsbD 4 = m ∧ (ctrlByte r c e m d).getLsbD 5 = e ∧
    (ctrlByte r c e m d).getLsbD 6 = c ∧ (ctrlByte r c e m d).getLsbD 7 = r := by
  revert r c e m d; decide +kernel

/-- A control byte is made of its fields (R102). -/
theorem ctrlByte_of_fields (b : Byte) :
    ctrlByte (b.getLsbD 7) (b.getLsbD 6) (b.getLsbD 5) (b.getLsbD 4) (b.extractLsb' 0 4) = b := by
  revert b; decide +kernel

/-- What ENCODE writes into the control byte, for operands in their domain (R102, R114). -/
theorem encodeCtrl_eq (f : CanFrame) (ch : Byte) (hd : f.dlc.toNat ≤ 8) (hc : ch.toNat ≤ 1) :
    encodeCtrl f ch = ctrlByte false (ch.getLsbD 0) f.ext f.rem (f.dlc.setWidth 4) := by
  have key : ∀ (c : Fin 2) (d : Fin 9) (e m : Bool),
      (BitVec.ofNat 8 c <<< 6) ||| (bit e <<< 5) ||| (bit m <<< 4) ||| BitVec.ofNat 8 d =
        ctrlByte false ((BitVec.ofNat 8 c).getLsbD 0) e m ((BitVec.ofNat 8 d).setWidth 4) := by decide +kernel
  have h := key ⟨ch.toNat, by omega⟩ ⟨f.dlc.toNat, by omega⟩ f.ext f.rem
  simpa [encodeCtrl] using h


/-! ### The encoded frame -/

/-- The bytes of an encoded frame, by offset (R132). -/
theorem encodeFrame_getElem (c : Config) (f : CanFrame) (ch : Byte) :
    (encodeFrame c f ch)[0] = c.head ∧ (encodeFrame c f ch)[1] = encodeCtrl f ch ∧
    (encodeFrame c f ch)[2] = (idBytes c.idOrder f.id)[0] ∧ (encodeFrame c f ch)[3] = (idBytes c.idOrder f.id)[1] ∧
    (encodeFrame c f ch)[4] = (idBytes c.idOrder f.id)[2] ∧ (encodeFrame c f ch)[5] = (idBytes c.idOrder f.id)[3] ∧
    (encodeFrame c f ch)[6] = f.payload[0] ∧ (encodeFrame c f ch)[7] = f.payload[1] ∧
    (encodeFrame c f ch)[8] = f.payload[2] ∧ (encodeFrame c f ch)[9] = f.payload[3] ∧
    (encodeFrame c f ch)[10] = f.payload[4] ∧ (encodeFrame c f ch)[11] = f.payload[5] ∧
    (encodeFrame c f ch)[12] = f.payload[6] ∧ (encodeFrame c f ch)[13] = f.payload[7] ∧
    (encodeFrame c f ch)[14] = c.tail ∧
    (encodeFrame c f ch)[15] = cksumOf ((encodeFrame c f ch).toList.take 15) := by
  refine ⟨?_, ?_, ?_, ?_, ?_, ?_, ?_, ?_, ?_, ?_, ?_, ?_, ?_, ?_, ?_, ?_⟩
  case refine_16 =>
    unfold encodeFrame
    rw [sealFrame_take, sealFrame_last]
  all_goals simp [encodeFrame, sealFrame, frameBody]

/-- Reading back the identifier's four bytes (R80). -/
theorem wireId_of_idBytes (o : IdOrder) (v : Word) (w : Bytes 16) (h2 : w[2] = (idBytes o v)[0])
    (h3 : w[3] = (idBytes o v)[1]) (h4 : w[4] = (idBytes o v)[2]) (h5 : w[5] = (idBytes o v)[3]) : wireId o w = v := by
  cases o <;> (unfold wireId; dsimp only; rw [h2, h3, h4, h5]; exact wordOfLE_bytesOfLE v)

/-- The verdict of VERIFY, said over the bytes (R135). -/
theorem verifyFrame_eq (c : Config) (w : Bytes 16) :
    verifyFrame c w =
      if w[0] ≠ c.head then .invalid .head
      else if w[14] ≠ c.tail then .invalid .tail
      else if w[15] ≠ cksumOf (w.toList.take 15) then .invalid .csum
      else .valid (decodedFrame c w) := rfl

end Sys2Proof.Machine
end

