-- ==== Sys2Proof/Laws/State.lean ====
section
/-! SUPPORT. One lemma per field of State and named update: what the field holds after it. -/

namespace Sys2Proof.Machine

@[simp] theorem emit_life (e : Event) (s : State) : (emit e s).life = s.life := rfl
@[simp] theorem emit_shutdown (e : Event) (s : State) : (emit e s).shutdown = s.shutdown := rfl
@[simp] theorem emit_txq (e : Event) (s : State) : (emit e s).txq = s.txq := rfl
@[simp] theorem emit_asm (e : Event) (s : State) : (emit e s).asm = s.asm := rfl
@[simp] theorem emit_ls (e : Event) (s : State) : (emit e s).ls = s.ls := rfl
@[simp] theorem emit_ph (e : Event) (s : State) : (emit e s).ph = s.ph := rfl
@[simp] theorem emit_txbuf (e : Event) (s : State) : (emit e s).txbuf = s.txbuf := rfl
@[simp] theorem emit_txkind (e : Event) (s : State) : (emit e s).txkind = s.txkind := rfl
@[simp] theorem emit_rxbuf (e : Event) (s : State) : (emit e s).rxbuf = s.rxbuf := rfl
@[simp] theorem emit_rxNew (e : Event) (s : State) : (emit e s).rxNew = s.rxNew := rfl
@[simp] theorem emit_ft (e : Event) (s : State) : (emit e s).ft = s.ft := rfl
@[simp] theorem emit_evlog (e : Event) (s : State) : (emit e s).evlog = s.evlog ++ [e] := rfl
@[simp] theorem emit_faults (e : Event) (s : State) : (emit e s).faults = s.faults := rfl
@[simp] theorem emit_refused (e : Event) (s : State) : (emit e s).refused = s.refused := rfl
@[simp] theorem emit_cfg (e : Event) (s : State) : (emit e s).cfg = s.cfg := rfl
@[simp] theorem emit_halted (e : Event) (s : State) : (emit e s).halted = s.halted := rfl
@[simp] theorem emit_inbox (e : Event) (s : State) : (emit e s).inbox = s.inbox := rfl
@[simp] theorem emit_issuer (e : Event) (s : State) : (emit e s).issuer = s.issuer := rfl
@[simp] theorem emit_answer (e : Event) (s : State) : (emit e s).answer = s.answer := rfl
@[simp] theorem emit_xferIn (e : Event) (s : State) : (emit e s).xferIn = s.xferIn := rfl
@[simp] theorem emit_initIn (e : Event) (s : State) : (emit e s).initIn = s.initIn := rfl
@[simp] theorem emit_draws (e : Event) (s : State) : (emit e s).draws = s.draws := rfl

@[simp] theorem give_life (r : Answer) (s : State) : (give r s).life = s.life := rfl
@[simp] theorem give_shutdown (r : Answer) (s : State) : (give r s).shutdown = s.shutdown := rfl
@[simp] theorem give_txq (r : Answer) (s : State) : (give r s).txq = s.txq := rfl
@[simp] theorem give_asm (r : Answer) (s : State) : (give r s).asm = s.asm := rfl
@[simp] theorem give_ls (r : Answer) (s : State) : (give r s).ls = s.ls := rfl
@[simp] theorem give_ph (r : Answer) (s : State) : (give r s).ph = s.ph := rfl
@[simp] theorem give_txbuf (r : Answer) (s : State) : (give r s).txbuf = s.txbuf := rfl
@[simp] theorem give_txkind (r : Answer) (s : State) : (give r s).txkind = s.txkind := rfl
@[simp] theorem give_rxbuf (r : Answer) (s : State) : (give r s).rxbuf = s.rxbuf := rfl
@[simp] theorem give_rxNew (r : Answer) (s : State) : (give r s).rxNew = s.rxNew := rfl
@[simp] theorem give_ft (r : Answer) (s : State) : (give r s).ft = s.ft := rfl
@[simp] theorem give_evlog (r : Answer) (s : State) : (give r s).evlog = s.evlog := rfl
@[simp] theorem give_faults (r : Answer) (s : State) : (give r s).faults = s.faults := rfl
@[simp] theorem give_refused (r : Answer) (s : State) : (give r s).refused = s.refused := rfl
@[simp] theorem give_cfg (r : Answer) (s : State) : (give r s).cfg = s.cfg := rfl
@[simp] theorem give_halted (r : Answer) (s : State) : (give r s).halted = s.halted := rfl
@[simp] theorem give_inbox (r : Answer) (s : State) : (give r s).inbox = s.inbox := rfl
@[simp] theorem give_issuer (r : Answer) (s : State) : (give r s).issuer = s.issuer := rfl
@[simp] theorem give_answer (r : Answer) (s : State) : (give r s).answer = r := rfl
@[simp] theorem give_xferIn (r : Answer) (s : State) : (give r s).xferIn = s.xferIn := rfl
@[simp] theorem give_initIn (r : Answer) (s : State) : (give r s).initIn = s.initIn := rfl
@[simp] theorem give_draws (r : Answer) (s : State) : (give r s).draws = s.draws := rfl

@[simp] theorem markRefused_life (s : State) : (markRefused s).life = s.life := rfl
@[simp] theorem markRefused_shutdown (s : State) : (markRefused s).shutdown = s.shutdown := rfl
@[simp] theorem markRefused_txq (s : State) : (markRefused s).txq = s.txq := rfl
@[simp] theorem markRefused_asm (s : State) : (markRefused s).asm = s.asm := rfl
@[simp] theorem markRefused_ls (s : State) : (markRefused s).ls = s.ls := rfl
@[simp] theorem markRefused_ph (s : State) : (markRefused s).ph = s.ph := rfl
@[simp] theorem markRefused_txbuf (s : State) : (markRefused s).txbuf = s.txbuf := rfl
@[simp] theorem markRefused_txkind (s : State) : (markRefused s).txkind = s.txkind := rfl
@[simp] theorem markRefused_rxbuf (s : State) : (markRefused s).rxbuf = s.rxbuf := rfl
@[simp] theorem markRefused_rxNew (s : State) : (markRefused s).rxNew = s.rxNew := rfl
@[simp] theorem markRefused_ft (s : State) : (markRefused s).ft = s.ft := rfl
@[simp] theorem markRefused_evlog (s : State) : (markRefused s).evlog = s.evlog := rfl
@[simp] theorem markRefused_faults (s : State) : (markRefused s).faults = s.faults := rfl
@[simp] theorem markRefused_refused (s : State) : (markRefused s).refused = true := rfl
@[simp] theorem markRefused_cfg (s : State) : (markRefused s).cfg = s.cfg := rfl
@[simp] theorem markRefused_halted (s : State) : (markRefused s).halted = s.halted := rfl
@[simp] theorem markRefused_inbox (s : State) : (markRefused s).inbox = s.inbox := rfl
@[simp] theorem markRefused_issuer (s : State) : (markRefused s).issuer = s.issuer := rfl
@[simp] theorem markRefused_answer (s : State) : (markRefused s).answer = s.answer := rfl
@[simp] theorem markRefused_xferIn (s : State) : (markRefused s).xferIn = s.xferIn := rfl
@[simp] theorem markRefused_initIn (s : State) : (markRefused s).initIn = s.initIn := rfl
@[simp] theorem markRefused_draws (s : State) : (markRefused s).draws = s.draws := rfl

@[simp] theorem refuse_life (r : RefReason) (s : State) : (refuse r s).life = s.life := rfl
@[simp] theorem refuse_shutdown (r : RefReason) (s : State) : (refuse r s).shutdown = s.shutdown := rfl
@[simp] theorem refuse_txq (r : RefReason) (s : State) : (refuse r s).txq = s.txq := rfl
@[simp] theorem refuse_asm (r : RefReason) (s : State) : (refuse r s).asm = s.asm := rfl
@[simp] theorem refuse_ls (r : RefReason) (s : State) : (refuse r s).ls = s.ls := rfl
@[simp] theorem refuse_ph (r : RefReason) (s : State) : (refuse r s).ph = s.ph := rfl
@[simp] theorem refuse_txbuf (r : RefReason) (s : State) : (refuse r s).txbuf = s.txbuf := rfl
@[simp] theorem refuse_txkind (r : RefReason) (s : State) : (refuse r s).txkind = s.txkind := rfl
@[simp] theorem refuse_rxbuf (r : RefReason) (s : State) : (refuse r s).rxbuf = s.rxbuf := rfl
@[simp] theorem refuse_rxNew (r : RefReason) (s : State) : (refuse r s).rxNew = s.rxNew := rfl
@[simp] theorem refuse_ft (r : RefReason) (s : State) : (refuse r s).ft = s.ft := rfl
@[simp] theorem refuse_evlog (r : RefReason) (s : State) : (refuse r s).evlog = s.evlog := rfl
@[simp] theorem refuse_faults (r : RefReason) (s : State) : (refuse r s).faults = s.faults := rfl
@[simp] theorem refuse_refused (r : RefReason) (s : State) : (refuse r s).refused = true := rfl
@[simp] theorem refuse_cfg (r : RefReason) (s : State) : (refuse r s).cfg = s.cfg := rfl
@[simp] theorem refuse_halted (r : RefReason) (s : State) : (refuse r s).halted = s.halted := rfl
@[simp] theorem refuse_inbox (r : RefReason) (s : State) : (refuse r s).inbox = s.inbox := rfl
@[simp] theorem refuse_issuer (r : RefReason) (s : State) : (refuse r s).issuer = s.issuer := rfl
@[simp] theorem refuse_answer (r : RefReason) (s : State) : (refuse r s).answer = .refused r := rfl
@[simp] theorem refuse_xferIn (r : RefReason) (s : State) : (refuse r s).xferIn = s.xferIn := rfl
@[simp] theorem refuse_initIn (r : RefReason) (s : State) : (refuse r s).initIn = s.initIn := rfl
@[simp] theorem refuse_draws (r : RefReason) (s : State) : (refuse r s).draws = s.draws := rfl

@[simp] theorem hold_life (s : State) : (hold s).life = s.life := rfl
@[simp] theorem hold_shutdown (s : State) : (hold s).shutdown = s.shutdown := rfl
@[simp] theorem hold_txq (s : State) : (hold s).txq = s.txq := rfl
@[simp] theorem hold_asm (s : State) : (hold s).asm = s.asm := rfl
@[simp] theorem hold_ls (s : State) : (hold s).ls = s.ls := rfl
@[simp] theorem hold_ph (s : State) : (hold s).ph = s.ph := rfl
@[simp] theorem hold_txbuf (s : State) : (hold s).txbuf = s.txbuf := rfl
@[simp] theorem hold_txkind (s : State) : (hold s).txkind = s.txkind := rfl
@[simp] theorem hold_rxbuf (s : State) : (hold s).rxbuf = s.rxbuf := rfl
@[simp] theorem hold_rxNew (s : State) : (hold s).rxNew = s.rxNew := rfl
@[simp] theorem hold_ft (s : State) : (hold s).ft = s.ft := rfl
@[simp] theorem hold_evlog (s : State) : (hold s).evlog = s.evlog := rfl
@[simp] theorem hold_faults (s : State) : (hold s).faults = s.faults := rfl
@[simp] theorem hold_refused (s : State) : (hold s).refused = s.refused := rfl
@[simp] theorem hold_cfg (s : State) : (hold s).cfg = s.cfg := rfl
@[simp] theorem hold_halted (s : State) : (hold s).halted = s.halted := rfl
@[simp] theorem hold_inbox (s : State) : (hold s).inbox = s.inbox := rfl
@[simp] theorem hold_issuer (s : State) : (hold s).issuer = s.issuer := rfl
@[simp] theorem hold_answer (s : State) : (hold s).answer = .held := rfl
@[simp] theorem hold_xferIn (s : State) : (hold s).xferIn = s.xferIn := rfl
@[simp] theorem hold_initIn (s : State) : (hold s).initIn = s.initIn := rfl
@[simp] theorem hold_draws (s : State) : (hold s).draws = s.draws := rfl

@[simp] theorem raiseFault_life (k : Fault) (a : Agent) (s : State) : (raiseFault k a s).life = s.life := rfl
@[simp] theorem raiseFault_shutdown (k : Fault) (a : Agent) (s : State) : (raiseFault k a s).shutdown = s.shutdown := rfl
@[simp] theorem raiseFault_txq (k : Fault) (a : Agent) (s : State) : (raiseFault k a s).txq = s.txq := rfl
@[simp] theorem raiseFault_asm (k : Fault) (a : Agent) (s : State) : (raiseFault k a s).asm = s.asm := rfl
@[simp] theorem raiseFault_ls (k : Fault) (a : Agent) (s : State) : (raiseFault k a s).ls = s.ls := rfl
@[simp] theorem raiseFault_ph (k : Fault) (a : Agent) (s : State) : (raiseFault k a s).ph = s.ph := rfl
@[simp] theorem raiseFault_txbuf (k : Fault) (a : Agent) (s : State) : (raiseFault k a s).txbuf = s.txbuf := rfl
@[simp] theorem raiseFault_txkind (k : Fault) (a : Agent) (s : State) : (raiseFault k a s).txkind = s.txkind := rfl
@[simp] theorem raiseFault_rxbuf (k : Fault) (a : Agent) (s : State) : (raiseFault k a s).rxbuf = s.rxbuf := rfl
@[simp] theorem raiseFault_rxNew (k : Fault) (a : Agent) (s : State) : (raiseFault k a s).rxNew = s.rxNew := rfl
@[simp] theorem raiseFault_ft (k : Fault) (a : Agent) (s : State) : (raiseFault k a s).ft = s.ft := rfl
@[simp] theorem raiseFault_evlog (k : Fault) (a : Agent) (s : State) : (raiseFault k a s).evlog = s.evlog := rfl
@[simp] theorem raiseFault_faults (k : Fault) (a : Agent) (s : State) : (raiseFault k a s).faults = setInsert faultKey k s.faults := rfl
@[simp] theorem raiseFault_refused (k : Fault) (a : Agent) (s : State) : (raiseFault k a s).refused = s.refused := rfl
@[simp] theorem raiseFault_cfg (k : Fault) (a : Agent) (s : State) : (raiseFault k a s).cfg = s.cfg := rfl
@[simp] theorem raiseFault_halted (k : Fault) (a : Agent) (s : State) : (raiseFault k a s).halted = setInsert agentKey a s.halted := rfl
@[simp] theorem raiseFault_inbox (k : Fault) (a : Agent) (s : State) : (raiseFault k a s).inbox = s.inbox := rfl
@[simp] theorem raiseFault_issuer (k : Fault) (a : Agent) (s : State) : (raiseFault k a s).issuer = s.issuer := rfl
@[simp] theorem raiseFault_answer (k : Fault) (a : Agent) (s : State) : (raiseFault k a s).answer = .faulted k := rfl
@[simp] theorem raiseFault_xferIn (k : Fault) (a : Agent) (s : State) : (raiseFault k a s).xferIn = s.xferIn := rfl
@[simp] theorem raiseFault_initIn (k : Fault) (a : Agent) (s : State) : (raiseFault k a s).initIn = s.initIn := rfl
@[simp] theorem raiseFault_draws (k : Fault) (a : Agent) (s : State) : (raiseFault k a s).draws = s.draws := rfl

@[simp] theorem putAsm_life (c : Nat) (a : AsmState) (s : State) : (putAsm c a s).life = s.life := rfl
@[simp] theorem putAsm_shutdown (c : Nat) (a : AsmState) (s : State) : (putAsm c a s).shutdown = s.shutdown := rfl
@[simp] theorem putAsm_txq (c : Nat) (a : AsmState) (s : State) : (putAsm c a s).txq = s.txq := rfl
@[simp] theorem putAsm_asm (c : Nat) (a : AsmState) (s : State) : (putAsm c a s).asm = s.asm.set c a := rfl
@[simp] theorem putAsm_ls (c : Nat) (a : AsmState) (s : State) : (putAsm c a s).ls = s.ls := rfl
@[simp] theorem putAsm_ph (c : Nat) (a : AsmState) (s : State) : (putAsm c a s).ph = s.ph := rfl
@[simp] theorem putAsm_txbuf (c : Nat) (a : AsmState) (s : State) : (putAsm c a s).txbuf = s.txbuf := rfl
@[simp] theorem putAsm_txkind (c : Nat) (a : AsmState) (s : State) : (putAsm c a s).txkind = s.txkind := rfl
@[simp] theorem putAsm_rxbuf (c : Nat) (a : AsmState) (s : State) : (putAsm c a s).rxbuf = s.rxbuf := rfl
@[simp] theorem putAsm_rxNew (c : Nat) (a : AsmState) (s : State) : (putAsm c a s).rxNew = s.rxNew := rfl
@[simp] theorem putAsm_ft (c : Nat) (a : AsmState) (s : State) : (putAsm c a s).ft = s.ft := rfl
@[simp] theorem putAsm_evlog (c : Nat) (a : AsmState) (s : State) : (putAsm c a s).evlog = s.evlog := rfl
@[simp] theorem putAsm_faults (c : Nat) (a : AsmState) (s : State) : (putAsm c a s).faults = s.faults := rfl
@[simp] theorem putAsm_refused (c : Nat) (a : AsmState) (s : State) : (putAsm c a s).refused = s.refused := rfl
@[simp] theorem putAsm_cfg (c : Nat) (a : AsmState) (s : State) : (putAsm c a s).cfg = s.cfg := rfl
@[simp] theorem putAsm_halted (c : Nat) (a : AsmState) (s : State) : (putAsm c a s).halted = s.halted := rfl
@[simp] theorem putAsm_inbox (c : Nat) (a : AsmState) (s : State) : (putAsm c a s).inbox = s.inbox := rfl
@[simp] theorem putAsm_issuer (c : Nat) (a : AsmState) (s : State) : (putAsm c a s).issuer = s.issuer := rfl
@[simp] theorem putAsm_answer (c : Nat) (a : AsmState) (s : State) : (putAsm c a s).answer = s.answer := rfl
@[simp] theorem putAsm_xferIn (c : Nat) (a : AsmState) (s : State) : (putAsm c a s).xferIn = s.xferIn := rfl
@[simp] theorem putAsm_initIn (c : Nat) (a : AsmState) (s : State) : (putAsm c a s).initIn = s.initIn := rfl
@[simp] theorem putAsm_draws (c : Nat) (a : AsmState) (s : State) : (putAsm c a s).draws = s.draws := rfl

@[simp] theorem putSlot_life (i : Nat) (e : FilterEntry) (s : State) : (putSlot i e s).life = s.life := rfl
@[simp] theorem putSlot_shutdown (i : Nat) (e : FilterEntry) (s : State) : (putSlot i e s).shutdown = s.shutdown := rfl
@[simp] theorem putSlot_txq (i : Nat) (e : FilterEntry) (s : State) : (putSlot i e s).txq = s.txq := rfl
@[simp] theorem putSlot_asm (i : Nat) (e : FilterEntry) (s : State) : (putSlot i e s).asm = s.asm := rfl
@[simp] theorem putSlot_ls (i : Nat) (e : FilterEntry) (s : State) : (putSlot i e s).ls = s.ls := rfl
@[simp] theorem putSlot_ph (i : Nat) (e : FilterEntry) (s : State) : (putSlot i e s).ph = s.ph := rfl
@[simp] theorem putSlot_txbuf (i : Nat) (e : FilterEntry) (s : State) : (putSlot i e s).txbuf = s.txbuf := rfl
@[simp] theorem putSlot_txkind (i : Nat) (e : FilterEntry) (s : State) : (putSlot i e s).txkind = s.txkind := rfl
@[simp] theorem putSlot_rxbuf (i : Nat) (e : FilterEntry) (s : State) : (putSlot i e s).rxbuf = s.rxbuf := rfl
@[simp] theorem putSlot_rxNew (i : Nat) (e : FilterEntry) (s : State) : (putSlot i e s).rxNew = s.rxNew := rfl
@[simp] theorem putSlot_ft (i : Nat) (e : FilterEntry) (s : State) : (putSlot i e s).ft = s.ft.set i (some e) := rfl
@[simp] theorem putSlot_evlog (i : Nat) (e : FilterEntry) (s : State) : (putSlot i e s).evlog = s.evlog := rfl
@[simp] theorem putSlot_faults (i : Nat) (e : FilterEntry) (s : State) : (putSlot i e s).faults = s.faults := rfl
@[simp] theorem putSlot_refused (i : Nat) (e : FilterEntry) (s : State) : (putSlot i e s).refused = s.refused := rfl
@[simp] theorem putSlot_cfg (i : Nat) (e : FilterEntry) (s : State) : (putSlot i e s).cfg = s.cfg := rfl
@[simp] theorem putSlot_halted (i : Nat) (e : FilterEntry) (s : State) : (putSlot i e s).halted = s.halted := rfl
@[simp] theorem putSlot_inbox (i : Nat) (e : FilterEntry) (s : State) : (putSlot i e s).inbox = s.inbox := rfl
@[simp] theorem putSlot_issuer (i : Nat) (e : FilterEntry) (s : State) : (putSlot i e s).issuer = s.issuer := rfl
@[simp] theorem putSlot_answer (i : Nat) (e : FilterEntry) (s : State) : (putSlot i e s).answer = s.answer := rfl
@[simp] theorem putSlot_xferIn (i : Nat) (e : FilterEntry) (s : State) : (putSlot i e s).xferIn = s.xferIn := rfl
@[simp] theorem putSlot_initIn (i : Nat) (e : FilterEntry) (s : State) : (putSlot i e s).initIn = s.initIn := rfl
@[simp] theorem putSlot_draws (i : Nat) (e : FilterEntry) (s : State) : (putSlot i e s).draws = s.draws := rfl

@[simp] theorem putRxNew_life (b : Bool) (s : State) : (putRxNew b s).life = s.life := rfl
@[simp] theorem putRxNew_shutdown (b : Bool) (s : State) : (putRxNew b s).shutdown = s.shutdown := rfl
@[simp] theorem putRxNew_txq (b : Bool) (s : State) : (putRxNew b s).txq = s.txq := rfl
@[simp] theorem putRxNew_asm (b : Bool) (s : State) : (putRxNew b s).asm = s.asm := rfl
@[simp] theorem putRxNew_ls (b : Bool) (s : State) : (putRxNew b s).ls = s.ls := rfl
@[simp] theorem putRxNew_ph (b : Bool) (s : State) : (putRxNew b s).ph = s.ph := rfl
@[simp] theorem putRxNew_txbuf (b : Bool) (s : State) : (putRxNew b s).txbuf = s.txbuf := rfl
@[simp] theorem putRxNew_txkind (b : Bool) (s : State) : (putRxNew b s).txkind = s.txkind := rfl
@[simp] theorem putRxNew_rxbuf (b : Bool) (s : State) : (putRxNew b s).rxbuf = s.rxbuf := rfl
@[simp] theorem putRxNew_rxNew (b : Bool) (s : State) : (putRxNew b s).rxNew = b := rfl
@[simp] theorem putRxNew_ft (b : Bool) (s : State) : (putRxNew b s).ft = s.ft := rfl
@[simp] theorem putRxNew_evlog (b : Bool) (s : State) : (putRxNew b s).evlog = s.evlog := rfl
@[simp] theorem putRxNew_faults (b : Bool) (s : State) : (putRxNew b s).faults = s.faults := rfl
@[simp] theorem putRxNew_refused (b : Bool) (s : State) : (putRxNew b s).refused = s.refused := rfl
@[simp] theorem putRxNew_cfg (b : Bool) (s : State) : (putRxNew b s).cfg = s.cfg := rfl
@[simp] theorem putRxNew_halted (b : Bool) (s : State) : (putRxNew b s).halted = s.halted := rfl
@[simp] theorem putRxNew_inbox (b : Bool) (s : State) : (putRxNew b s).inbox = s.inbox := rfl
@[simp] theorem putRxNew_issuer (b : Bool) (s : State) : (putRxNew b s).issuer = s.issuer := rfl
@[simp] theorem putRxNew_answer (b : Bool) (s : State) : (putRxNew b s).answer = s.answer := rfl
@[simp] theorem putRxNew_xferIn (b : Bool) (s : State) : (putRxNew b s).xferIn = s.xferIn := rfl
@[simp] theorem putRxNew_initIn (b : Bool) (s : State) : (putRxNew b s).initIn = s.initIn := rfl
@[simp] theorem putRxNew_draws (b : Bool) (s : State) : (putRxNew b s).draws = s.draws := rfl

@[simp] theorem putShutdown_life (b : Bool) (s : State) : (putShutdown b s).life = s.life := rfl
@[simp] theorem putShutdown_shutdown (b : Bool) (s : State) : (putShutdown b s).shutdown = b := rfl
@[simp] theorem putShutdown_txq (b : Bool) (s : State) : (putShutdown b s).txq = s.txq := rfl
@[simp] theorem putShutdown_asm (b : Bool) (s : State) : (putShutdown b s).asm = s.asm := rfl
@[simp] theorem putShutdown_ls (b : Bool) (s : State) : (putShutdown b s).ls = s.ls := rfl
@[simp] theorem putShutdown_ph (b : Bool) (s : State) : (putShutdown b s).ph = s.ph := rfl
@[simp] theorem putShutdown_txbuf (b : Bool) (s : State) : (putShutdown b s).txbuf = s.txbuf := rfl
@[simp] theorem putShutdown_txkind (b : Bool) (s : State) : (putShutdown b s).txkind = s.txkind := rfl
@[simp] theorem putShutdown_rxbuf (b : Bool) (s : State) : (putShutdown b s).rxbuf = s.rxbuf := rfl
@[simp] theorem putShutdown_rxNew (b : Bool) (s : State) : (putShutdown b s).rxNew = s.rxNew := rfl
@[simp] theorem putShutdown_ft (b : Bool) (s : State) : (putShutdown b s).ft = s.ft := rfl
@[simp] theorem putShutdown_evlog (b : Bool) (s : State) : (putShutdown b s).evlog = s.evlog := rfl
@[simp] theorem putShutdown_faults (b : Bool) (s : State) : (putShutdown b s).faults = s.faults := rfl
@[simp] theorem putShutdown_refused (b : Bool) (s : State) : (putShutdown b s).refused = s.refused := rfl
@[simp] theorem putShutdown_cfg (b : Bool) (s : State) : (putShutdown b s).cfg = s.cfg := rfl
@[simp] theorem putShutdown_halted (b : Bool) (s : State) : (putShutdown b s).halted = s.halted := rfl
@[simp] theorem putShutdown_inbox (b : Bool) (s : State) : (putShutdown b s).inbox = s.inbox := rfl
@[simp] theorem putShutdown_issuer (b : Bool) (s : State) : (putShutdown b s).issuer = s.issuer := rfl
@[simp] theorem putShutdown_answer (b : Bool) (s : State) : (putShutdown b s).answer = s.answer := rfl
@[simp] theorem putShutdown_xferIn (b : Bool) (s : State) : (putShutdown b s).xferIn = s.xferIn := rfl
@[simp] theorem putShutdown_initIn (b : Bool) (s : State) : (putShutdown b s).initIn = s.initIn := rfl
@[simp] theorem putShutdown_draws (b : Bool) (s : State) : (putShutdown b s).draws = s.draws := rfl

@[simp] theorem dispatchFrame_life (c : Nat) (f : DecFrame) (s : State) : (dispatchFrame c f s).life = s.life := rfl
@[simp] theorem dispatchFrame_shutdown (c : Nat) (f : DecFrame) (s : State) : (dispatchFrame c f s).shutdown = s.shutdown := rfl
@[simp] theorem dispatchFrame_txq (c : Nat) (f : DecFrame) (s : State) : (dispatchFrame c f s).txq = s.txq := rfl
@[simp] theorem dispatchFrame_asm (c : Nat) (f : DecFrame) (s : State) : (dispatchFrame c f s).asm = s.asm := rfl
@[simp] theorem dispatchFrame_ls (c : Nat) (f : DecFrame) (s : State) : (dispatchFrame c f s).ls = s.ls := rfl
@[simp] theorem dispatchFrame_ph (c : Nat) (f : DecFrame) (s : State) : (dispatchFrame c f s).ph = s.ph := rfl
@[simp] theorem dispatchFrame_txbuf (c : Nat) (f : DecFrame) (s : State) : (dispatchFrame c f s).txbuf = s.txbuf := rfl
@[simp] theorem dispatchFrame_txkind (c : Nat) (f : DecFrame) (s : State) : (dispatchFrame c f s).txkind = s.txkind := rfl
@[simp] theorem dispatchFrame_rxbuf (c : Nat) (f : DecFrame) (s : State) : (dispatchFrame c f s).rxbuf = s.rxbuf := rfl
@[simp] theorem dispatchFrame_rxNew (c : Nat) (f : DecFrame) (s : State) : (dispatchFrame c f s).rxNew = s.rxNew := rfl
@[simp] theorem dispatchFrame_ft (c : Nat) (f : DecFrame) (s : State) : (dispatchFrame c f s).ft = s.ft := rfl
@[simp] theorem dispatchFrame_evlog (c : Nat) (f : DecFrame) (s : State) : (dispatchFrame c f s).evlog = s.evlog ++ [dispatchEvent c f s.ft] := rfl
@[simp] theorem dispatchFrame_faults (c : Nat) (f : DecFrame) (s : State) : (dispatchFrame c f s).faults = s.faults := rfl
@[simp] theorem dispatchFrame_refused (c : Nat) (f : DecFrame) (s : State) : (dispatchFrame c f s).refused = s.refused := rfl
@[simp] theorem dispatchFrame_cfg (c : Nat) (f : DecFrame) (s : State) : (dispatchFrame c f s).cfg = s.cfg := rfl
@[simp] theorem dispatchFrame_halted (c : Nat) (f : DecFrame) (s : State) : (dispatchFrame c f s).halted = s.halted := rfl
@[simp] theorem dispatchFrame_inbox (c : Nat) (f : DecFrame) (s : State) : (dispatchFrame c f s).inbox = s.inbox := rfl
@[simp] theorem dispatchFrame_issuer (c : Nat) (f : DecFrame) (s : State) : (dispatchFrame c f s).issuer = s.issuer := rfl
@[simp] theorem dispatchFrame_answer (c : Nat) (f : DecFrame) (s : State) : (dispatchFrame c f s).answer = s.answer := rfl
@[simp] theorem dispatchFrame_xferIn (c : Nat) (f : DecFrame) (s : State) : (dispatchFrame c f s).xferIn = s.xferIn := rfl
@[simp] theorem dispatchFrame_initIn (c : Nat) (f : DecFrame) (s : State) : (dispatchFrame c f s).initIn = s.initIn := rfl
@[simp] theorem dispatchFrame_draws (c : Nat) (f : DecFrame) (s : State) : (dispatchFrame c f s).draws = s.draws := rfl

@[simp] theorem drawXfer_life (s : State) : (drawXfer s).2.life = s.life := by unfold drawXfer; split <;> rfl
@[simp] theorem drawXfer_shutdown (s : State) : (drawXfer s).2.shutdown = s.shutdown := by unfold drawXfer; split <;> rfl
@[simp] theorem drawXfer_txq (s : State) : (drawXfer s).2.txq = s.txq := by unfold drawXfer; split <;> rfl
@[simp] theorem drawXfer_asm (s : State) : (drawXfer s).2.asm = s.asm := by unfold drawXfer; split <;> rfl
@[simp] theorem drawXfer_ls (s : State) : (drawXfer s).2.ls = s.ls := by unfold drawXfer; split <;> rfl
@[simp] theorem drawXfer_ph (s : State) : (drawXfer s).2.ph = s.ph := by unfold drawXfer; split <;> rfl
@[simp] theorem drawXfer_txbuf (s : State) : (drawXfer s).2.txbuf = s.txbuf := by unfold drawXfer; split <;> rfl
@[simp] theorem drawXfer_txkind (s : State) : (drawXfer s).2.txkind = s.txkind := by unfold drawXfer; split <;> rfl
@[simp] theorem drawXfer_rxbuf (s : State) : (drawXfer s).2.rxbuf = s.rxbuf := by unfold drawXfer; split <;> rfl
@[simp] theorem drawXfer_rxNew (s : State) : (drawXfer s).2.rxNew = s.rxNew := by unfold drawXfer; split <;> rfl
@[simp] theorem drawXfer_ft (s : State) : (drawXfer s).2.ft = s.ft := by unfold drawXfer; split <;> rfl
@[simp] theorem drawXfer_evlog (s : State) : (drawXfer s).2.evlog = s.evlog := by unfold drawXfer; split <;> rfl
@[simp] theorem drawXfer_faults (s : State) : (drawXfer s).2.faults = s.faults := by unfold drawXfer; split <;> rfl
@[simp] theorem drawXfer_refused (s : State) : (drawXfer s).2.refused = s.refused := by unfold drawXfer; split <;> rfl
@[simp] theorem drawXfer_cfg (s : State) : (drawXfer s).2.cfg = s.cfg := by unfold drawXfer; split <;> rfl
@[simp] theorem drawXfer_halted (s : State) : (drawXfer s).2.halted = s.halted := by unfold drawXfer; split <;> rfl
@[simp] theorem drawXfer_inbox (s : State) : (drawXfer s).2.inbox = s.inbox := by unfold drawXfer; split <;> rfl
@[simp] theorem drawXfer_issuer (s : State) : (drawXfer s).2.issuer = s.issuer := by unfold drawXfer; split <;> rfl
@[simp] theorem drawXfer_answer (s : State) : (drawXfer s).2.answer = s.answer := by unfold drawXfer; split <;> rfl
@[simp] theorem drawXfer_initIn (s : State) : (drawXfer s).2.initIn = s.initIn := by unfold drawXfer; split <;> rfl

@[simp] theorem drawInit_life (s : State) : (drawInit s).2.life = s.life := by unfold drawInit; split <;> rfl
@[simp] theorem drawInit_shutdown (s : State) : (drawInit s).2.shutdown = s.shutdown := by unfold drawInit; split <;> rfl
@[simp] theorem drawInit_txq (s : State) : (drawInit s).2.txq = s.txq := by unfold drawInit; split <;> rfl
@[simp] theorem drawInit_asm (s : State) : (drawInit s).2.asm = s.asm := by unfold drawInit; split <;> rfl
@[simp] theorem drawInit_ls (s : State) : (drawInit s).2.ls = s.ls := by unfold drawInit; split <;> rfl
@[simp] theorem drawInit_ph (s : State) : (drawInit s).2.ph = s.ph := by unfold drawInit; split <;> rfl
@[simp] theorem drawInit_txbuf (s : State) : (drawInit s).2.txbuf = s.txbuf := by unfold drawInit; split <;> rfl
@[simp] theorem drawInit_txkind (s : State) : (drawInit s).2.txkind = s.txkind := by unfold drawInit; split <;> rfl
@[simp] theorem drawInit_rxbuf (s : State) : (drawInit s).2.rxbuf = s.rxbuf := by unfold drawInit; split <;> rfl
@[simp] theorem drawInit_rxNew (s : State) : (drawInit s).2.rxNew = s.rxNew := by unfold drawInit; split <;> rfl
@[simp] theorem drawInit_ft (s : State) : (drawInit s).2.ft = s.ft := by unfold drawInit; split <;> rfl
@[simp] theorem drawInit_evlog (s : State) : (drawInit s).2.evlog = s.evlog := by unfold drawInit; split <;> rfl
@[simp] theorem drawInit_faults (s : State) : (drawInit s).2.faults = s.faults := by unfold drawInit; split <;> rfl
@[simp] theorem drawInit_refused (s : State) : (drawInit s).2.refused = s.refused := by unfold drawInit; split <;> rfl
@[simp] theorem drawInit_cfg (s : State) : (drawInit s).2.cfg = s.cfg := by unfold drawInit; split <;> rfl
@[simp] theorem drawInit_halted (s : State) : (drawInit s).2.halted = s.halted := by unfold drawInit; split <;> rfl
@[simp] theorem drawInit_inbox (s : State) : (drawInit s).2.inbox = s.inbox := by unfold drawInit; split <;> rfl
@[simp] theorem drawInit_issuer (s : State) : (drawInit s).2.issuer = s.issuer := by unfold drawInit; split <;> rfl
@[simp] theorem drawInit_answer (s : State) : (drawInit s).2.answer = s.answer := by unfold drawInit; split <;> rfl
@[simp] theorem drawInit_xferIn (s : State) : (drawInit s).2.xferIn = s.xferIn := by unfold drawInit; split <;> rfl

end Sys2Proof.Machine
end

