-- ==== Sys2Proof/Laws/Ops.lean ====
section
/-! SUPPORT. For each shared operation, one lemma that says everything it can do. -/

namespace Sys2Proof.Machine

/-! ### ByteQueue primitives -/

theorem enq_eq_some_iff (cap : Nat) (q s r : List Byte) : enq cap q s = some r ↔ q.length + s.length ≤ cap ∧ r = q ++ s := by
  unfold enq count
  split <;> simp_all [eq_comm]

theorem enq_eq_none_iff (cap : Nat) (q s : List Byte) : enq cap q s = none ↔ cap < q.length + s.length := by
  unfold enq count
  split <;> simp_all

theorem deq_eq_some_iff (q : ByteQueue) (n : Nat) (l r : List Byte) :
    deq q n = some (l, r) ↔ n ≤ q.length ∧ l = q.take n ∧ r = q.drop n := by
  unfold deq count
  split <;> simp_all [eq_comm]

theorem deq_eq_none_iff (q : ByteQueue) (n : Nat) : deq q n = none ↔ q.length < n := by
  unfold deq count
  split <;> simp_all

/-- A queue that holds a whole frame gives its oldest 16 bytes, and keeps the rest (R72). -/
theorem deqFrame_eq_some_iff (q : ByteQueue) (w : Bytes 16) (r : ByteQueue) :
    deqFrame q = some (w, r) ↔ q = w.toList ++ q.drop 16 ∧ r = q.drop 16 := by
  constructor
  · intro h
    obtain ⟨⟨l, t⟩, hd, h⟩ := Option.bind_eq_some_iff.1 h
    obtain ⟨v, hv, h⟩ := Option.map_eq_some_iff.1 h
    cases h
    obtain ⟨_, rfl, rfl⟩ := (deq_eq_some_iff _ _ _ _).1 hd
    exact ⟨by rw [← (bytes16?_eq_some_iff _ _).1 hv, List.take_append_drop], rfl⟩
  · rintro ⟨h, rfl⟩
    have hl := congrArg List.length h
    simp at hl
    have ht : q.take 16 = w.toList := by rw [h, List.take_left' (by simp)]
    simp [deqFrame, (deq_eq_some_iff q 16 _ _).2 ⟨by omega, rfl, rfl⟩, ht]

theorem deqFrame_eq_none_iff (q : ByteQueue) : deqFrame q = none ↔ q.length < 16 := by
  constructor
  · intro h
    by_contra hn
    obtain ⟨w, hw⟩ := bytes16?_isSome (q.take 16) (by simp; omega)
    have := (deqFrame_eq_some_iff q w _).2 ⟨by rw [← (bytes16?_eq_some_iff _ _).1 hw, List.take_append_drop], rfl⟩
    rw [h] at this
    cases this
  · intro h
    simp [deqFrame, (deq_eq_none_iff q 16).2 h]

theorem window_eq_some_iff (q : ByteQueue) (k n : Nat) (l : List Byte) :
    window q k n = some l ↔ k + n ≤ q.length ∧ l = (q.drop k).take n := by
  unfold window count
  split <;> simp_all [eq_comm]

theorem window_eq_none_iff (q : ByteQueue) (k n : Nat) : window q k n = none ↔ q.length < k + n := by
  unfold window count
  split <;> simp_all

@[simp] theorem dropFront_cons (b : Byte) (q : ByteQueue) : dropFront (b :: q) 1 = some q := by
  simp [dropFront, deq, count]

/-! ### Sets -/

theorem mem_setInsert {α : Type} (key : α → Nat) (x y : α) (l : List α) (h : y ∈ l) : y ∈ setInsert key x l := by
  induction l with
  | nil => cases h
  | cons z t ih =>
    unfold setInsert
    split
    · exact List.mem_cons_of_mem _ h
    · split
      · exact h
      · rcases List.mem_cons.1 h with rfl | h
        · exact List.mem_cons_self
        · exact List.mem_cons_of_mem _ (ih h)

theorem self_mem_setInsert {α : Type} (key : α → Nat) (hk : ∀ a b, key a = key b → a = b) (x : α) (l : List α) :
    x ∈ setInsert key x l := by
  induction l with
  | nil => exact List.mem_cons_self
  | cons z t ih =>
    unfold setInsert
    split
    · exact List.mem_cons_self
    · split
      · next h => rw [hk _ _ h]; exact List.mem_cons_self
      · exact List.mem_cons_of_mem _ ih

/-- Every element of a set after an insertion is the new one or an old one. -/
theorem mem_of_mem_setInsert {α : Type} (key : α → Nat) (x y : α) (l : List α) (h : y ∈ setInsert key x l) :
    y = x ∨ y ∈ l := by
  induction l with
  | nil => simpa [setInsert] using h
  | cons z t ih =>
    unfold setInsert at h
    split at h
    · simpa using h
    · split at h
      · exact .inr h
      · rcases List.mem_cons.1 h with rfl | h
        · exact .inr List.mem_cons_self
        · rcases ih h with h | h
          · exact .inl h
          · exact .inr (List.mem_cons_of_mem _ h)

/-- Insertion keeps the strictly rising order of the keys. -/
theorem setInsert_pairwise {α : Type} (key : α → Nat) (x : α) (l : List α)
    (h : l.Pairwise fun a b => key a < key b) : (setInsert key x l).Pairwise fun a b => key a < key b := by
  induction l with
  | nil => simp [setInsert]
  | cons z t ih =>
    obtain ⟨hz, ht⟩ := List.pairwise_cons.1 h
    unfold setInsert
    split
    · next hx =>
      refine List.pairwise_cons.2 ⟨fun b hb => ?_, h⟩
      rcases List.mem_cons.1 hb with rfl | hb
      · exact hx
      · exact hx.trans (hz b hb)
    · split
      · exact h
      · refine List.pairwise_cons.2 ⟨fun b hb => ?_, ih ht⟩
        rcases mem_of_mem_setInsert key x b t hb with rfl | hb
        · omega
        · exact hz b hb

theorem faultKey_inj : ∀ a b, faultKey a = faultKey b → a = b := by
  intro a b h
  cases a <;> cases b <;> simp_all [faultKey]

theorem agentKey_inj : ∀ a b, agentKey a = agentKey b → a = b := by
  intro a b h
  cases a <;> cases b <;> simp_all [agentKey]

/-! ### The frame of a meaning -/

/-- The state in which a computation ends, whether with a result or with a fault. -/
def Flow.state {α : Type} : Flow α → State
  | .ok _ s => s
  | .stop _ s => s

@[simp] theorem Flow.state_ok {α : Type} (a : α) (s : State) : (Flow.ok a s).state = s := rfl
@[simp] theorem Flow.state_stop {α : Type} (k : Fault) (s : State) : (Flow.stop k s : Flow α).state = s := rfl
@[simp] theorem Flow.state_map {α β : Type} (f : α → β) (x : Flow α) : (x.map f).state = x.state := by cases x <;> rfl

theorem configOk_iff (c : Config) : configOk c = true ↔
    1 ≤ c.hdr.length ∧ c.hdr.length ≤ c.baseLen ∧ 16 ≤ c.baseLen ∧ c.baseLen ≤ c.rxqCap ∧ 1 ≤ c.txqFrames ∧
      (c.nChan = 1 ∨ c.nChan = 2) ∧ c.localChan ≤ 1 ∧ c.head ≠ c.tail ∧ c.head ≠ 0 := by
  simp [configOk, and_assoc]

theorem refusalOf_none_iff (s : State) (adm dom : Bool) : refusalOf s adm dom = none ↔
    configOk s.cfg = true ∧ s.cfg.mode = .framed ∧ adm = true ∧ dom = true := by
  unfold refusalOf
  split <;> [simp_all; split <;> [simp_all; (split <;> [simp_all; (split <;> simp_all)])]]

/-- How a step can end: held, refused, with a result, or in a fault. -/
theorem finish_next (a : Agent) (x : Flow Answer) (t : State) (h : finish a x = .next t) :
    (∃ r s', x = .ok r s' ∧ t = give r s') ∨ (∃ k s', x = .stop k s' ∧ t = raiseFault k a s') := by
  cases x with
  | ok r s' => simp [finish] at h; exact .inl ⟨r, s', rfl, h.symm⟩
  | stop k s' => simp [finish] at h; exact .inr ⟨k, s', rfl, h.symm⟩

/-- How a performed operation can end, for an agent `a` and a body `x`. -/
def Performed (a : Agent) (x : Flow Answer) (t : State) : Prop :=
  (∃ r s', x = .ok r s' ∧ t = give r s') ∨ (∃ k s', x = .stop k s' ∧ t = raiseFault k a s')

/-- An agent that may issue a command stands at the command port. -/
theorem mayIssue_iff (who : Agent → Bool) (s : State) :
    mayIssue who s = true ↔ ∃ a, s.issuer = .port a ∧ who a = true := by
  unfold mayIssue
  split <;> simp_all

theorem loopActive_iff (s : State) : loopActive s = true ↔ Active s := by simp [loopActive]

/-- An agent is stalled exactly when it may not step (R245, R247). -/
theorem stalled_eq_false_iff (a : Agent) (s : State) : stalled a s = false ↔ MayStep s a := by
  unfold stalled MayStep
  rw [← loopActive_iff]
  cases loopActive s <;> simp

theorem stalled_iff (a : Agent) (s : State) : stalled a s = true ↔ ¬ MayStep s a := by
  rw [← stalled_eq_false_iff]; simp

/-- An agent that has faulted is stalled (R245). -/
theorem stalled_of_halted (a : Agent) (s : State) (h : a ∈ s.halted) : stalled a s = true := by simp [stalled, h]

theorem command_run (s : State) (who : Agent → Bool) (adm dom : Bool) (body : State → Flow Answer)
    (h : CanServe s (performer s)) (hw : mayIssue who s = true) (ha : adm = true) (hd : dom = true) :
    command s who adm dom body = finish (performer s) (body s) := by
  obtain ⟨h1, h2, h3⟩ := h
  simp [command, (stalled_eq_false_iff _ _).2 h1, hw, (refusalOf_none_iff s adm dom).2 ⟨h2, h3, ha, hd⟩]

/-- A command of an agent that may not issue it is held. -/
theorem command_held (s : State) (who : Agent → Bool) (adm dom : Bool) (body : State → Flow Answer)
    (hw : mayIssue who s = false) : command s who adm dom body = .next (hold s) := by simp [command, hw]

/-- A command is refused with the first refusal that applies. -/
theorem command_refused (s : State) (who : Agent → Bool) (adm dom : Bool) (body : State → Flow Answer) (r : RefReason)
    (hp : MayStep s (performer s)) (hw : mayIssue who s = true) (hr : refusalOf s adm dom = some r) :
    command s who adm dom body = .next (refuse r s) := by
  simp [command, (stalled_eq_false_iff _ _).2 hp, hw, hr]

theorem command_next (s t : State) (who : Agent → Bool) (adm dom : Bool) (body : State → Flow Answer)
    (h : command s who adm dom body = .next t) :
    t = hold s ∨ (∃ r, t = refuse r s) ∨
    (CanServe s (performer s) ∧ mayIssue who s = true ∧ adm = true ∧ dom = true ∧
      Performed (performer s) (body s) t) := by
  unfold command at h
  split at h
  · simp at h; exact .inl h.symm
  · next hp =>
    split at h
    · next hw =>
      split at h
      · next r _ => simp at h; exact .inr (.inl ⟨r, h.symm⟩)
      · next hr =>
        obtain ⟨h1, h2, h3, h4⟩ := (refusalOf_none_iff s adm dom).1 hr
        exact .inr (.inr ⟨⟨(stalled_eq_false_iff _ _).1 (by simpa using hp), h1, h2⟩, hw, h3, h4, finish_next _ _ _ h⟩)
    · simp at h; exact .inl h.symm

theorem blockStep_run (s : State) (a : Agent) (en dom : Bool) (body : State → Flow Answer) (h : CanServe s a)
    (he : en = true) (hd : dom = true) : blockStep s a en dom body = finish a (body s) := by
  obtain ⟨h1, h2, h3⟩ := h
  simp [blockStep, (stalled_eq_false_iff _ _).2 h1, (refusalOf_none_iff s true dom).2 ⟨h2, h3, rfl, hd⟩, he]

/-- A step that is not enabled is held, whatever its operands (R247). -/
theorem blockStep_held (s : State) (a : Agent) (en dom : Bool) (body : State → Flow Answer) (he : en = false) :
    blockStep s a en dom body = .next (hold s) := by simp [blockStep, he]

/-- A step of an agent that takes none is held (R245, R247). -/
theorem blockStep_stalled (s : State) (a : Agent) (en dom : Bool) (body : State → Flow Answer) (h : stalled a s = true) :
    blockStep s a en dom body = .next (hold s) := by simp [blockStep, h]

theorem blockStep_next (s t : State) (a : Agent) (en dom : Bool) (body : State → Flow Answer)
    (h : blockStep s a en dom body = .next t) :
    t = hold s ∨ (∃ r, t = refuse r s) ∨ (CanServe s a ∧ en = true ∧ dom = true ∧ Performed a (body s) t) := by
  unfold blockStep at h
  split at h
  · simp at h; exact .inl h.symm
  · next hp =>
    obtain ⟨hp, he⟩ : stalled a s = false ∧ en = true := by simpa using hp
    split at h
    · next r _ => simp at h; exact .inr (.inl ⟨r, h.symm⟩)
    · next hr =>
      obtain ⟨h1, h2, _, h4⟩ := (refusalOf_none_iff s true dom).1 hr
      exact .inr (.inr ⟨⟨(stalled_eq_false_iff _ _).1 hp, h1, h2⟩, he, h4, finish_next _ _ _ h⟩)

/-- A refusal that the byte alone decides is given to an agent that may step (R115, R116). -/
theorem refuseByByte_refused (r : RefReason) (s : State) (hp : MayStep s (performer s)) :
    refuseByByte r s = .next (refuse r s) := by simp [refuseByByte, (stalled_eq_false_iff _ _).2 hp]

theorem refuseByByte_next (r : RefReason) (s t : State) (h : refuseByByte r s = .next t) :
    t = hold s ∨ t = refuse r s := by
  unfold refuseByByte at h
  split at h <;> simp at h
  · exact .inl h.symm
  · exact .inr h.symm

theorem internalStep_run (s : State) (a : Agent) (en dom : Bool) (body : State → Flow Answer) (hb : s.issuer = .block)
    (h : CanServe s a) (he : en = true) (hd : dom = true) : internalStep s a en dom body = finish a (body s) := by
  simp [internalStep, hb, blockStep_run s a en dom body h he hd]

theorem internalStep_next (s t : State) (a : Agent) (en dom : Bool) (body : State → Flow Answer)
    (h : internalStep s a en dom body = .next t) :
    t = hold s ∨ (∃ r, t = refuse r s) ∨
    (s.issuer = .block ∧ CanServe s a ∧ en = true ∧ dom = true ∧ Performed a (body s) t) := by
  unfold internalStep at h
  split at h
  · rcases refuseByByte_next _ _ _ h with h | h
    · exact .inl h
    · exact .inr (.inl ⟨_, h⟩)
  · next hb =>
    rcases blockStep_next _ _ _ _ _ _ h with h | h | h
    · exact .inl h
    · exact .inr (.inl h)
    · exact .inr (.inr ⟨hb, h⟩)

/-! ### Draws -/

theorem drawXfer_given (s : State) (a : XferAnswer) (t : List XferAnswer) (h : s.xferIn = a :: t) :
    drawXfer s = (a, { s with xferIn := t }) := by simp [drawXfer, h]

theorem drawXfer_free (s : State) (h : s.xferIn = []) :
    drawXfer s = (Config.transport s.draws, { s with draws := s.draws + 1 }) := by simp [drawXfer, h]

theorem drawInit_given (s : State) (b : Bool) (t : List Bool) (h : s.initIn = b :: t) :
    drawInit s = (b, { s with initIn := t }) := by simp [drawInit, h]

theorem drawInit_free (s : State) (h : s.initIn = []) :
    drawInit s = (Config.initOutcome s.draws, { s with draws := s.draws + 1 }) := by simp [drawInit, h]

end Sys2Proof.Machine
end

