-- ==== Sys2Proof/Laws/Assembler.lean ====
section
/-! SUPPORT. The FrameAssembler: what one extraction attempt decides from the assembler alone, what it writes, and that a FEED
ends in a stable state. -/

namespace Sys2Proof.Machine

/-! ### Header matching -/

theorem matchHeader_append (q y : List Byte) (k : Nat) (t : List Byte) (h : k + t.length ≤ q.length) :
    matchHeader (q ++ y) k t = matchHeader q k t := by
  induction t generalizing k with
  | nil => rfl
  | cons b t ih =>
    simp only [List.length_cons] at h
    have hk : k < q.length := by omega
    simp only [matchHeader, peek, List.getElem?_append_left hk]
    rw [ih (k + 1) (by omega)]

theorem matchHeader_ne_short (q : ByteQueue) (k : Nat) (t : List Byte) (h : k + t.length ≤ q.length) :
    matchHeader q k t ≠ .short := by
  induction t generalizing k with
  | nil => simp [matchHeader]
  | cons b t ih =>
    simp only [List.length_cons] at h
    have hk : k < q.length := by omega
    simp only [matchHeader, peek, List.getElem?_eq_getElem hk]
    split
    · exact ih (k + 1) (by omega)
    · simp

theorem matchHeader_eq_matched_iff (q : ByteQueue) (k : Nat) (t : List Byte) (h : k + t.length ≤ q.length) :
    matchHeader q k t = .matched ↔ (q.drop k).take t.length = t := by
  induction t generalizing k with
  | nil => simp [matchHeader]
  | cons b t ih =>
    simp only [List.length_cons] at h
    have hk : k < q.length := by omega
    rw [List.drop_eq_getElem_cons hk]
    simp only [matchHeader, peek, List.getElem?_eq_getElem hk, List.length_cons, List.take_succ_cons, List.cons.injEq]
    split
    · next e => rw [ih (k + 1) (by omega)]; simp [e]
    · next e => simp [e]

/-- When the first `j` bytes match and the next one does not, header matching stops at that byte (R152). -/
theorem matchHeader_mismatch (q : ByteQueue) (k j : Nat) (t : List Byte) (b h : Byte)
    (hp : (q.drop k).take j = t.take j) (hb : q[k + j]? = some b) (hh : t[j]? = some h) (hne : b ≠ h) :
    matchHeader q k t = .mismatch (k + j) b := by
  induction t generalizing k j with
  | nil => simp at hh
  | cons c t ih =>
    have hlen : k + j < q.length := by
      by_contra hc
      rw [List.getElem?_eq_none (by omega)] at hb
      cases hb
    cases j with
    | zero =>
      simp only [List.getElem?_cons_zero, Option.some.injEq] at hh
      subst hh
      simp only [Nat.add_zero] at hb ⊢
      simp [matchHeader, peek, hb, hne]
    | succ j =>
      have hk : k < q.length := by omega
      rw [List.drop_eq_getElem_cons hk] at hp
      simp only [List.take_succ_cons, List.cons.injEq] at hp
      simp only [matchHeader, peek, List.getElem?_eq_getElem hk, hp.1, if_true]
      rw [ih (k + 1) j hp.2 (by rw [← hb]; congr 1; omega) (by simpa using hh)]
      congr 1
      omega

/-! ### FRAMECB -/

/-- The event of a completed window of at least 16 bytes (R160). -/
def windowEvent (c : Nat) (w : List Byte) (s : State) : Event :=
  match bytes16? (w.take 16) with
  | none => .xferFail
  | some b =>
    match verifyFrame s.cfg b with
    | .invalid r => .badFrame c r
    | .valid f => dispatchEvent c f s.ft

theorem canFramecb_eq (c : Nat) (w : List Byte) (s : State) (h : 16 ≤ w.length) :
    canFramecb c w s = .ok () (emit (windowEvent c w s) s) := by
  obtain ⟨b, hb⟩ := bytes16?_isSome (w.take 16) (by simp; omega)
  unfold canFramecb windowEvent
  rw [hb]
  dsimp only
  cases verifyFrame s.cfg b <;> rfl

theorem windowEvent_of (c : Nat) (w : List Byte) (b : Bytes 16) (s : State) (h : w.take 16 = b.toList) :
    windowEvent c w s = match verifyFrame s.cfg b with
      | .invalid r => .badFrame c r
      | .valid f => dispatchEvent c f s.ft := by
  simp [windowEvent, h]

/-! ### One attempt -/

/-- What one extraction attempt decides (R151..R156). -/
inductive Attempt where
  | wait
  | await (n : Nat)
  | drop (k : Nat) (got front : Byte) (q : ByteQueue)
  | take (w q : ByteQueue)
  | oversize (n : Nat)

/-- The decision once the header has matched and the resolver has asked for `n` extra bytes (R154..R156). -/
def attemptSized (c : Config) (q : ByteQueue) (n : Nat) : Attempt :=
  if c.rxqCap < c.baseLen + n then .oversize n
  else if q.length < c.baseLen + n then .await n
  else .take (q.take (c.baseLen + n)) (q.drop (c.baseLen + n))

/-- The decision of an attempt, from the configuration and the assembler alone. -/
def attempt (c : Config) (a : AsmState) : Attempt :=
  if a.q.length < c.baseLen + a.extra then .wait
  else if a.resolved then .take (a.q.take (c.baseLen + a.extra)) (a.q.drop (c.baseLen + a.extra))
  else
    match matchHeader a.q 0 c.hdr with
    | .mismatch k b => .drop k b (a.q.headD 0) a.q.tail
    | _ => attemptSized c a.q (extraOf (resolve c.resolver (a.q.take c.baseLen)))

/-- An assembler that awaits `n` extra bytes (R155). -/
def awaitAsm (c : Config) (q : ByteQueue) (n : Nat) : AsmState :=
  { q := q, consumed := c.baseLen, extra := n, resolved := true }

/-- What an attempt with a given decision does to the state. -/
def runAttempt (c : Nat) (q : ByteQueue) (s : State) : Attempt → Flow Extracted
  | .wait => .ok .incomplete s
  | .await n => .ok .incomplete (putAsm c (awaitAsm s.cfg q n) s)
  | .drop k b d q' => .ok .corrupt (emit (.corrupt c k b d) (putAsm c (idleAsm q') s))
  | .take w q' => .ok .complete (emit (windowEvent c w s) (putAsm c (idleAsm q') s))
  | .oversize n => .stop (.asmOversize c) (putAsm c (awaitAsm s.cfg q n) s)

theorem completeFrame_eq (c : Nat) (a : AsmState) (s : State) (hb : 16 ≤ s.cfg.baseLen)
    (h : s.cfg.baseLen + a.extra ≤ a.q.length) :
    completeFrame c a s = .ok .complete (emit (windowEvent c (a.q.take (s.cfg.baseLen + a.extra)) s)
      (putAsm c (idleAsm (a.q.drop (s.cfg.baseLen + a.extra))) s)) := by
  unfold completeFrame
  rw [(deq_eq_some_iff a.q (s.cfg.baseLen + a.extra) _ _).2 ⟨h, rfl, rfl⟩]
  dsimp only
  rw [canFramecb_eq _ _ _ (by simp; omega)]
  rfl

/-- A stable assembler, whatever its queue's capacity (R38). -/
abbrev AsmShape (c : Config) (a : AsmState) : Prop := a.consumed ≤ a.q.length ∧ (AsmIdle a ∨ AsmAwaiting c a)

theorem AsmOk.shape {c : Config} {a : AsmState} (h : AsmOk c a) : AsmShape c a := ⟨h.1, h.2.2⟩

/-- EXTRACT from a stable assembler does what its decision says (R151..R156). -/
theorem extract_eq (c : Nat) (a : AsmState) (s : State) (hc : configOk s.cfg = true) (ha : s.asm[c]? = some a)
    (hok : AsmShape s.cfg a) : extract c s = runAttempt c a.q s (attempt s.cfg a) := by
  obtain ⟨h1, h2, h3, _⟩ := (configOk_iff s.cfg).1 hc
  obtain ⟨g1, g3⟩ := hok
  have hlt : c < s.asm.length := by
    by_contra hn
    rw [List.getElem?_eq_none (by omega)] at ha
    cases ha
  unfold extract attempt
  rw [ha]
  dsimp only [count]
  rcases g3 with ⟨i1, i2, i3⟩ | ⟨w1, w2, w3, w4⟩
  · obtain ⟨q, cons, extra, res⟩ := a
    dsimp only at i1 i2 i3 g1 ha ⊢
    subst i1 i2 i3
    simp only [Nat.add_zero, Nat.not_lt_zero, or_self, if_false, Nat.sub_zero, List.drop_zero, Bool.false_eq_true]
    by_cases hq : q.length < s.cfg.baseLen
    · simp [hq, runAttempt]
    · simp only [hq, if_false]
      have hs : matchHeader q 0 s.cfg.hdr ≠ .short := matchHeader_ne_short _ _ _ (by omega)
      cases hm : matchHeader q 0 s.cfg.hdr with
      | short => exact absurd hm hs
      | mismatch k b =>
        cases q with
        | nil => simp at hq; omega
        | cons d q => simp [resync, peek, runAttempt]
      | matched =>
        have hmax : max (max 0 s.cfg.hdr.length) s.cfg.baseLen = s.cfg.baseLen := by omega
        have hw : window q 0 s.cfg.baseLen = some (q.take s.cfg.baseLen) :=
          (window_eq_some_iff _ _ _ _).2 ⟨by omega, by simp⟩
        simp only [afterHeader, attemptSized, hmax, hw, Bool.false_eq_true, if_false, markResolved, count, putAsm_cfg]
        rw [if_neg hq]
        by_cases hv : s.cfg.rxqCap < s.cfg.baseLen + extraOf (resolve s.cfg.resolver (q.take s.cfg.baseLen))
        · simp only [hv, if_true]; rfl
        · by_cases hx : q.length < s.cfg.baseLen + extraOf (resolve s.cfg.resolver (q.take s.cfg.baseLen))
          · rw [if_neg hv, if_neg hv, if_pos (by omega), if_pos hx]; rfl
          · rw [if_neg hv, if_neg hv, if_neg (by omega), if_neg hx]
            rw [completeFrame_eq _ _ _ (by simpa using h3) (by simp; omega)]
            simp [runAttempt, putAsm, windowEvent]
  · have hd : s.cfg.hdr.drop a.consumed = [] := by rw [w1]; exact List.drop_eq_nil_of_le h2
    have n1 : ¬ (s.cfg.baseLen + a.extra < a.consumed ∨ a.q.length < a.consumed) := by omega
    simp only [n1, if_false, hd]
    by_cases hq : a.q.length < s.cfg.baseLen + a.extra
    · have n2 : a.q.length - a.consumed < s.cfg.baseLen + a.extra - a.consumed := by omega
      simp only [n2, hq, if_true, runAttempt]
    · have n2 : ¬ (a.q.length - a.consumed < s.cfg.baseLen + a.extra - a.consumed) := by omega
      simp only [n2, hq, if_false, matchHeader, afterHeader, w2, if_true, runAttempt]
      exact completeFrame_eq c _ s h3 (by simpa using hq)

/-! ### Stability (R38) -/

theorem asmOk_idle (c : Config) (q : ByteQueue) (h : q.length ≤ c.rxqCap) : AsmOk c (idleAsm q) :=
  ⟨Nat.zero_le _, h, .inl ⟨rfl, rfl, rfl⟩⟩

theorem asmOk_await (c : Config) (q : ByteQueue) (n : Nat) (hn : 0 < n) (hb : c.baseLen ≤ q.length)
    (hq : q.length ≤ c.rxqCap) (hh : q.take c.hdr.length = c.hdr) : AsmOk c (awaitAsm c q n) :=
  ⟨hb, hq, .inr ⟨rfl, rfl, hn, hh⟩⟩

/-- Bytes appended to a stable assembler leave it stable while they fit. -/
theorem asmOk_append (c : Config) (a : AsmState) (y : List Byte) (h : AsmOk c a) (hl : c.hdr.length ≤ c.baseLen)
    (hq : a.q.length + y.length ≤ c.rxqCap) : AsmOk c { a with q := a.q ++ y } := by
  obtain ⟨g1, g2, g3⟩ := h
  refine ⟨by simp; omega, by simpa using hq, ?_⟩
  rcases g3 with g | ⟨w1, w2, w3, w4⟩
  · exact .inl g
  · refine .inr ⟨w1, w2, w3, ?_⟩
    show (a.q ++ y).take _ = _
    rw [List.take_append_of_le_length (by omega)]
    exact w4

/-- The assembler that a decision leaves. -/
def nextAsm (c : Config) (a : AsmState) : Attempt → AsmState
  | .wait => a
  | .await n => awaitAsm c a.q n
  | .drop _ _ _ q => idleAsm q
  | .take _ q => idleAsm q
  | .oversize n => awaitAsm c a.q n

/-- A decision of a stable assembler leaves a stable one. -/
theorem nextAsm_ok (c : Config) (a : AsmState) (hc : configOk c = true) (h : AsmOk c a) :
    AsmOk c (nextAsm c a (attempt c a)) := by
  obtain ⟨h1, h2, h3, h4, _⟩ := (configOk_iff c).1 hc
  have hq := h.2.1
  unfold attempt
  split
  · exact h
  · next hg =>
    split
    · exact asmOk_idle _ _ (by simp; omega)
    · cases hm : matchHeader a.q 0 c.hdr with
      | mismatch k b => exact asmOk_idle _ _ (by simp; omega)
      | short => exact absurd hm (matchHeader_ne_short _ _ _ (by omega))
      | matched =>
        have hh : a.q.take c.hdr.length = c.hdr := by
          simpa using (matchHeader_eq_matched_iff a.q 0 c.hdr (by omega)).1 hm
        dsimp only [attemptSized]
        split
        · exact asmOk_await _ _ _ (by omega) (by omega) hq hh
        · split
          · exact asmOk_await _ _ _ (by omega) (by omega) hq hh
          · exact asmOk_idle _ _ (by simp; omega)

/-- The window that a stable assembler hands over begins with the header (R152, R38). -/
theorem attempt_take_header (c : Config) (a : AsmState) (w q : List Byte) (hc : configOk c = true) (h : AsmOk c a)
    (ht : attempt c a = .take w q) : c.baseLen ≤ w.length ∧ w.take c.hdr.length = c.hdr := by
  obtain ⟨h1, h2, h3, _⟩ := (configOk_iff c).1 hc
  have key : ∀ n, c.baseLen + n ≤ a.q.length → a.q.take c.hdr.length = c.hdr →
      c.baseLen ≤ (a.q.take (c.baseLen + n)).length ∧ (a.q.take (c.baseLen + n)).take c.hdr.length = c.hdr := by
    intro n hn hh
    exact ⟨by simp; omega, by rw [List.take_take, min_eq_left (by omega), hh]⟩
  unfold attempt at ht
  split at ht
  · cases ht
  · next hg =>
    split at ht
    · next hr =>
      cases ht
      rcases h.2.2 with ⟨_, _, hi⟩ | ⟨_, _, _, hw⟩
      · rw [hi] at hr; cases hr
      · exact key _ (by omega) hw
    · cases hm : matchHeader a.q 0 c.hdr with
      | mismatch k b => rw [hm] at ht; cases ht
      | short => exact absurd hm (matchHeader_ne_short _ _ _ (by omega))
      | matched =>
        have hh : a.q.take c.hdr.length = c.hdr := by
          simpa using (matchHeader_eq_matched_iff a.q 0 c.hdr (by omega)).1 hm
        rw [hm] at ht
        dsimp only [attemptSized] at ht
        split at ht
        · cases ht
        · split at ht
          · cases ht
          · cases ht; exact key _ (by omega) hh

/-! ### Frames -/

/-- An XFER record, which no part of the assembler emits. -/
def isXfer : Event → Bool
  | .xfer .. => true
  | .corrupt .. | .badFrame .. | .rxDiscard _ | .unknownId .. | .xferFail | .rxOverflow .. | .deliver .. => false

/-- What an operation on assembler `c` may change: that assembler and the end of the log (R150, R152, R160). -/
def AsmFrame (c : Nat) (s t : State) : Prop :=
  t = { s with asm := t.asm, evlog := t.evlog } ∧ t.asm.length = s.asm.length ∧
  (∀ d, d ≠ c → t.asm[d]? = s.asm[d]?) ∧ ∃ es, t.evlog = s.evlog ++ es ∧ ∀ e ∈ es, isXfer e = false

theorem AsmFrame.refl (c : Nat) (s : State) : AsmFrame c s s := ⟨rfl, rfl, fun _ _ => rfl, [], by simp⟩

theorem AsmFrame.trans {c : Nat} {s t u : State} (h : AsmFrame c s t) (k : AsmFrame c t u) : AsmFrame c s u := by
  obtain ⟨h1, h2, h3, es, h4, h5⟩ := h
  obtain ⟨k1, k2, k3, fs, k4, k5⟩ := k
  refine ⟨?_, k2.trans h2, fun d hd => (k3 d hd).trans (h3 d hd), es ++ fs, by rw [k4, h4, List.append_assoc], ?_⟩
  · rw [k1, h1]
  · intro e he
    rcases List.mem_append.1 he with he | he
    · exact h5 e he
    · exact k5 e he

theorem asmFrame_emit (c : Nat) (e : Event) (s : State) (h : isXfer e = false) : AsmFrame c s (emit e s) :=
  ⟨rfl, rfl, fun _ _ => rfl, [e], rfl, by simpa using h⟩

theorem asmFrame_putAsm (c : Nat) (a : AsmState) (s : State) : AsmFrame c s (putAsm c a s) :=
  ⟨rfl, by simp, fun d hd => by simp [List.getElem?_set_ne (Ne.symm hd)], [], by simp⟩

theorem isXfer_dispatchEvent (c : Nat) (f : DecFrame) (ft : List (Option FilterEntry)) :
    isXfer (dispatchEvent c f ft) = false := by
  unfold dispatchEvent
  split <;> rfl

theorem canFramecb_frame (d c : Nat) (w : List Byte) (s : State) : AsmFrame d s (canFramecb c w s).state := by
  unfold canFramecb
  split
  · exact .refl _ _
  · split
    · exact asmFrame_emit _ _ _ rfl
    · exact asmFrame_emit _ _ _ (isXfer_dispatchEvent _ _ _)

theorem completeFrame_frame (c : Nat) (a : AsmState) (s : State) : AsmFrame c s (completeFrame c a s).state := by
  unfold completeFrame
  split
  · exact .refl _ _
  · rw [Flow.state_map]
    exact (asmFrame_putAsm _ _ _).trans (canFramecb_frame _ _ _ _)

theorem afterHeader_frame (c : Nat) (a : AsmState) (s : State) : AsmFrame c s (afterHeader c a s).state := by
  unfold afterHeader
  dsimp only
  split
  · exact completeFrame_frame _ _ _
  · split
    · exact .refl _ _
    · split
      · exact asmFrame_putAsm _ _ _
      · split
        · exact asmFrame_putAsm _ _ _
        · split
          · exact asmFrame_putAsm _ _ _
          · exact (asmFrame_putAsm _ _ _).trans (completeFrame_frame _ _ _)

theorem resync_frame (c : Nat) (a : AsmState) (k : Nat) (b : Byte) (s : State) :
    AsmFrame c s (resync c a k b s).state := by
  unfold resync
  split
  · exact (asmFrame_putAsm _ _ _).trans (asmFrame_emit _ _ _ rfl)
  · exact .refl _ _

theorem extract_frame (c : Nat) (s : State) : AsmFrame c s (extract c s).state := by
  unfold extract
  split
  · exact .refl _ _
  · dsimp only
    split
    · exact .refl _ _
    · split
      · exact .refl _ _
      · split
        · exact .refl _ _
        · exact resync_frame _ _ _ _ _
        · exact afterHeader_frame _ _ _

theorem extractLoop_frame (n c : Nat) (s : State) : AsmFrame c s (extractLoop n c s).state := by
  induction n generalizing s with
  | zero => exact .refl _ _
  | succ n ih =>
    have hf := extract_frame c s
    unfold extractLoop
    cases he : extract c s with
    | stop k s' => rw [he] at hf; exact hf
    | ok r s' =>
      rw [he] at hf
      cases r with
      | incomplete => exact hf
      | corrupt => exact hf.trans (ih s')
      | complete => exact hf.trans (ih s')

theorem feed_frame (c : Nat) (b : List Byte) (s : State) : AsmFrame c s (feed c b s).state := by
  unfold feed
  split
  · exact .refl _ _
  · split
    · exact .refl _ _
    · split
      · exact asmFrame_emit _ _ _ rfl
      · exact (asmFrame_putAsm _ _ _).trans (extractLoop_frame _ _ _)

theorem feed_ok_frame {c : Nat} {b : List Byte} {s t : State} {r : Answer} (h : feed c b s = .ok r t) : AsmFrame c s t := by
  have hf := feed_frame c b s
  rwa [h] at hf

theorem feed_stop_frame {c : Nat} {b : List Byte} {s t : State} {k : Fault} (h : feed c b s = .stop k t) :
    AsmFrame c s t := by
  have hf := feed_frame c b s
  rwa [h] at hf

end Sys2Proof.Machine
end

