-- ==== Sys2Proof/Laws/Decode.lean ====
section
/-! SUPPORT. Each operand reader undoes its writer, and what it reads is what the writer writes. -/

namespace Sys2Proof

/-- Reader `r` and writer `w` of one operand agree in both directions. -/
structure Agree {α : Type} (r : Reader α) (w : α → List Byte) : Prop where
  reads : ∀ x l, r (w x ++ l) = .ok (x, l)
  writes : ∀ l x l', r l = .ok (x, l') → l = w x ++ l'

theorem leBytes_length (n v : Nat) : (leBytes n v).length = n := by
  induction n generalizing v with
  | zero => rfl
  | succ n ih => simp [leBytes, ih]

theorem leNat_leBytes (n v : Nat) : leNat (leBytes n v) = v % 256 ^ n := by
  induction n generalizing v with
  | zero => simp [leBytes, leNat, Nat.mod_one]
  | succ n ih =>
    simp only [leBytes, leNat, ih, BitVec.toNat_ofNat]
    rw [show (256 : Nat) ^ (n + 1) = 256 * 256 ^ n from Nat.pow_succ', Nat.mod_mul]

theorem leNat_lt (l : List Byte) : leNat l < 256 ^ l.length := by
  induction l with
  | nil => simp [leNat]
  | cons b t ih =>
    have := b.isLt
    simp only [leNat, List.length_cons, Nat.pow_succ']
    omega

theorem leBytes_leNat (l : List Byte) : leBytes l.length (leNat l) = l := by
  induction l with
  | nil => rfl
  | cons b t ih =>
    have hb := b.isLt
    simp only [List.length_cons, leBytes, leNat]
    rw [show (b.toNat + 256 * leNat t) / 256 = leNat t by omega, ih]
    congr 1
    apply BitVec.eq_of_toNat_eq
    simp only [BitVec.toNat_ofNat]
    omega

theorem readList_eq (n : Nat) (l a b : List Byte) : readList n l = .ok (a, b) ↔ a.length = n ∧ l = a ++ b := by
  unfold readList
  split
  · next h =>
    constructor
    · intro h; cases h
    · rintro ⟨h1, rfl⟩; simp at h; omega
  · next h =>
    constructor
    · intro h'
      simp only [Except.ok.injEq, Prod.mk.injEq] at h'
      obtain ⟨rfl, rfl⟩ := h'
      exact ⟨by simp; omega, (List.take_append_drop n l).symm⟩
    · rintro ⟨rfl, rfl⟩
      simp

theorem agree_word (n : Nat) : Agree (readWord n) fun x => leBytes n x.toNat where
  reads := fun x l => by
    unfold readWord
    rw [(readList_eq n _ (leBytes n x.toNat) l).2 ⟨leBytes_length _ _, rfl⟩]
    dsimp only
    congr 2
    apply BitVec.eq_of_toNat_eq
    rw [BitVec.toNat_ofNat, leNat_leBytes, show (256 : Nat) = 2 ^ 8 from rfl, ← Nat.pow_mul, Nat.mod_mod,
      Nat.mod_eq_of_lt x.isLt]
  writes := fun l x l' h => by
    unfold readWord at h
    cases hr : readList n l with
    | error e => rw [hr] at h; cases h
    | ok p =>
      obtain ⟨a, b⟩ := p
      rw [hr] at h
      obtain ⟨h1, rfl⟩ := (readList_eq n l a b).1 hr
      simp only [Except.ok.injEq, Prod.mk.injEq] at h
      obtain ⟨rfl, rfl⟩ := h
      have hlt := leNat_lt a
      rw [h1, show (256 : Nat) = 2 ^ 8 from rfl, ← Nat.pow_mul] at hlt
      rw [BitVec.toNat_ofNat, Nat.mod_eq_of_lt hlt, ← h1, leBytes_leNat]

theorem agree_byte : Agree readByte fun x => [x] where
  reads := fun _ _ => rfl
  writes := fun l x l' h => by
    cases l with
    | nil => cases h
    | cons b t => cases h; rfl

theorem agree_bit : Agree readBit fun x => [putBit x] where
  reads := fun x l => by cases x <;> rfl
  writes := fun l x l' h => by
    cases l with
    | nil => cases h
    | cons b t =>
      simp only [readBit] at h
      split at h
      · next hb => cases h; rw [hb]; rfl
      · split at h
        · next hb => cases h; rw [hb]; rfl
        · cases h

theorem agree_nibble : Agree readNibble fun x => [x.setWidth 8] where
  reads := fun x l => by
    have hx := x.isLt
    have h : (x.setWidth 8).toNat = x.toNat := by rw [BitVec.toNat_setWidth]; omega
    simp only [List.singleton_append, readNibble, h, show x.toNat < 16 from hx, if_true]
    congr 2
    apply BitVec.eq_of_toNat_eq
    rw [BitVec.toNat_setWidth, h]
    omega
  writes := fun l x l' h => by
    cases l with
    | nil => cases h
    | cons b t =>
      simp only [readNibble] at h
      split at h
      · next hb =>
        cases h
        simp only [List.singleton_append, List.cons.injEq, and_true]
        apply BitVec.eq_of_toNat_eq
        simp only [BitVec.toNat_setWidth]
        omega
      · cases h

theorem agree_seq : Agree readSeq putSeq where
  reads := fun x => by
    induction x with
    | nil => intro l; cases l <;> rfl
    | cons b x ih =>
      intro l
      simp only [putSeq, List.cons_append]
      unfold readSeq
      rw [ih l]
      rfl
  writes := fun l => by
    induction hn : l.length using Nat.strong_induction_on generalizing l with
    | _ n ih =>
      intro x l' h
      match l, hn, h with
      | [], _, h => cases h
      | [t], _, h =>
        simp only [readSeq] at h
        split at h
        · next ht => cases h; rw [ht]; rfl
        · split at h <;> cases h
      | t :: b :: l, hn, h =>
        simp only [readSeq] at h
        split at h
        · next ht => cases h; rw [ht]; rfl
        · split at h
          · next ht =>
            cases hr : readSeq l with
            | error e => rw [hr] at h; cases h
            | ok p =>
              obtain ⟨y, l1⟩ := p
              rw [hr] at h
              simp only [Except.ok.injEq, Prod.mk.injEq] at h
              obtain ⟨rfl, rfl⟩ := h
              simp only [List.length_cons] at hn
              rw [ih l.length (by omega) l rfl y l1 hr, ht]
              rfl
          · cases h

theorem agree_payload : Agree readPayload fun p => p.toList where
  reads := fun p l => by
    have : p.toList = [p[0], p[1], p[2], p[3], p[4], p[5], p[6], p[7]] := by
      conv_lhs => rw [← Machine.payload_eq p]
      rfl
    rw [this]
    show Except.ok (_, l) = _
    rw [Machine.payload_eq]
  writes := fun l p l' h => by
    unfold readPayload at h
    split at h
    · cases h; rfl
    · cases h

theorem bind_ok {α β : Type} (x : α) (f : α → Except DecodeError β) : ((Except.ok x : Except DecodeError α) >>= f) = f x :=
  rfl

theorem bind_eq_ok {α β : Type} (e : Except DecodeError α) (f : α → Except DecodeError β) (y : β)
    (h : (e >>= f) = .ok y) : ∃ x, e = .ok x ∧ f x = .ok y := by
  cases e with
  | error e => cases h
  | ok x => exact ⟨x, rfl, h⟩

theorem readWord_append {n : Nat} (x : BitVec (8 * n)) (l : List Byte) :
    readWord n (leBytes n x.toNat ++ l) = .ok (x, l) := (agree_word n).reads x l
theorem readByte_cons (x : Byte) (l : List Byte) : readByte (x :: l) = .ok (x, l) := rfl
theorem readBit_cons (x : Bool) (l : List Byte) : readBit (putBit x :: l) = .ok (x, l) := agree_bit.reads x l
theorem readNibble_cons (x : BitVec 4) (l : List Byte) : readNibble (x.setWidth 8 :: l) = .ok (x, l) :=
  agree_nibble.reads x l
theorem readPayload_append (p : Bytes 8) (l : List Byte) : readPayload (p.toList ++ l) = .ok (p, l) :=
  agree_payload.reads p l
theorem readSeq_append (x l : List Byte) : readSeq (putSeq x ++ l) = .ok (x, l) := agree_seq.reads x l

theorem agree_canFrame : Agree readCanFrame putCanFrame where
  reads := fun f l => by
    have h := readWord_append (n := 4) f.id
    simp only [readCanFrame, putCanFrame, List.append_assoc, List.cons_append, h, bind_ok, readByte_cons, readBit_cons,
      readPayload_append]
  writes := fun l f l' h => by
    obtain ⟨⟨x1, l1⟩, h1, h⟩ := bind_eq_ok _ _ _ h
    obtain ⟨⟨x2, l2⟩, h2, h⟩ := bind_eq_ok _ _ _ h
    obtain ⟨⟨x3, l3⟩, h3, h⟩ := bind_eq_ok _ _ _ h
    obtain ⟨⟨x4, l4⟩, h4, h⟩ := bind_eq_ok _ _ _ h
    obtain ⟨⟨x5, l5⟩, h5, h⟩ := bind_eq_ok _ _ _ h
    cases h
    rw [(agree_word 4).writes _ _ _ h1, agree_byte.writes _ _ _ h2, agree_bit.writes _ _ _ h3, agree_bit.writes _ _ _ h4,
      agree_payload.writes _ _ _ h5]
    simp [putCanFrame]

theorem agree_decFrame : Agree readDecFrame putDecFrame where
  reads := fun f l => by
    have h := readWord_append (n := 4) f.id
    simp only [readDecFrame, putDecFrame, List.append_assoc, List.cons_append, h, bind_ok, readNibble_cons, readBit_cons,
      readPayload_append, List.nil_append]
  writes := fun l f l' h => by
    obtain ⟨⟨x1, l1⟩, h1, h⟩ := bind_eq_ok _ _ _ h
    obtain ⟨⟨x2, l2⟩, h2, h⟩ := bind_eq_ok _ _ _ h
    obtain ⟨⟨x3, l3⟩, h3, h⟩ := bind_eq_ok _ _ _ h
    obtain ⟨⟨x4, l4⟩, h4, h⟩ := bind_eq_ok _ _ _ h
    obtain ⟨⟨x5, l5⟩, h5, h⟩ := bind_eq_ok _ _ _ h
    obtain ⟨⟨x6, l6⟩, h6, h⟩ := bind_eq_ok _ _ _ h
    cases h
    rw [(agree_word 4).writes _ _ _ h1, agree_nibble.writes _ _ _ h2, agree_bit.writes _ _ _ h3,
      agree_bit.writes _ _ _ h4, agree_payload.writes _ _ _ h5, agree_bit.writes _ _ _ h6]
    simp [putDecFrame]

/-! ### WireFrames -/

namespace Machine

theorem wireBytes_getElem (m : Bool) (f : WireFields) :
    (wireBytes m f)[0] = 0x7E ∧ (wireBytes m f)[1] = ctrlByte f.rsv f.chan f.ext m f.dlc ∧
    (wireBytes m f)[2] = (bytesOfLE f.id)[0] ∧ (wireBytes m f)[3] = (bytesOfLE f.id)[1] ∧
    (wireBytes m f)[4] = (bytesOfLE f.id)[2] ∧ (wireBytes m f)[5] = (bytesOfLE f.id)[3] ∧
    (wireBytes m f)[6] = f.payload[0] ∧ (wireBytes m f)[7] = f.payload[1] ∧ (wireBytes m f)[8] = f.payload[2] ∧
    (wireBytes m f)[9] = f.payload[3] ∧ (wireBytes m f)[10] = f.payload[4] ∧ (wireBytes m f)[11] = f.payload[5] ∧
    (wireBytes m f)[12] = f.payload[6] ∧ (wireBytes m f)[13] = f.payload[7] ∧ (wireBytes m f)[14] = 0x7D ∧
    (wireBytes m f)[15] = f.csum := by
  refine ⟨?_, ?_, ?_, ?_, ?_, ?_, ?_, ?_, ?_, ?_, ?_, ?_, ?_, ?_, ?_, ?_⟩ <;> simp [wireBytes, frameBody]

/-- The fields of a WireFrame are what it was made of (R107). -/
theorem wireFields_wireBytes (m : Bool) (f : WireFields) : wireFields (wireBytes m f) = f := by
  obtain ⟨h0, h1, h2, h3, h4, h5, h6, h7, h8, h9, h10, h11, h12, h13, h14, h15⟩ := wireBytes_getElem m f
  obtain ⟨c0, c1, c2, c3, c4⟩ := ctrlByte_fields f.rsv f.chan f.ext m f.dlc
  obtain ⟨r, ch, e, d, id, p, cs⟩ := f
  simp only [wireFields, wireRsv, wireChan, wireExt, wireDlc, wireId, wirePayload, wireCsum, wireCtrl, h1, h2, h3, h4, h5, h6,
    h7, h8, h9, h10, h11, h12, h13, h15, c0, c2, c3, c4, wordOfLE_bytesOfLE, payload_eq]

theorem wireRem_wireBytes (m : Bool) (f : WireFields) : wireRem (wireBytes m f) = m := by
  obtain ⟨_, h1, _⟩ := wireBytes_getElem m f
  simp only [wireRem, wireCtrl, h1]
  exact (ctrlByte_fields f.rsv f.chan f.ext m f.dlc).2.1

/-- A sequence with the fixed head and tail is made of its fields (R100). -/
theorem wireBytes_wireFields (w : Bytes 16) (hh : w[0] = 0x7E) (ht : w[14] = 0x7D) :
    wireBytes (wireRem w) (wireFields w) = w := by
  apply toList_inj16
  have e := bytesOfLE_wordOfLE w[2] w[3] w[4] w[5]
  have c : ctrlByte (wireRsv w) (wireChan w) (wireExt w) (wireRem w) (wireDlc w) = w[1] := ctrlByte_of_fields w[1]
  rw [toList_eq w]
  simp only [wireBytes, wireFields, wireId, wirePayload, wireCsum, e, c, Vector.toList_push, frameBody_toList, hh, ht]
  rfl

theorem decodeFrame_wireBytes (m : Bool) (f : WireFields) :
    decodeFrame (wireBytes m f) = some (if m then .wfRemote f else .wfData f) := by
  have h := wireBytes_getElem m f
  simp only [decodeFrame, wireHead, wireTail, h.1, h.2.2.2.2.2.2.2.2.2.2.2.2.2.2.1, and_self, if_true, wireRem_wireBytes,
    wireFields_wireBytes]

theorem decodeFrame_sentinel (b : Bool) : decodeFrame (sentinel (bit b)) = some (.wfIdle b) := by
  cases b <;> decide

/-- What a sequence decodes to is a WireFrame row with exactly these bytes (R109). -/
theorem decodeFrame_some (w : Bytes 16) (i : Instr) (h : decodeFrame w = some i) :
    i.space = .link ∧ encode i = w.toList := by
  unfold decodeFrame at h
  split at h
  · next hw =>
    have e := wireBytes_wireFields w hw.1 hw.2
    simp only [Option.some.injEq] at h
    subst h
    cases hr : wireRem w <;> rw [hr] at e <;> simp [Instr.space, encode, e]
  · split at h
    · next hw => cases h; rw [hw]; exact ⟨rfl, rfl⟩
    · split at h
      · next hw => cases h; rw [hw]; exact ⟨rfl, rfl⟩
      · cases h

end Machine

end Sys2Proof
end

