-- ==== Sys2Proof/Laws/Exec.lean ====
section
/-! SUPPORT. What `exec` can do, said once: when it performs an operation's body, and what it answers otherwise. -/

namespace Sys2Proof.Machine

theorem verifyAnswer_toList (c : Config) (w : Bytes 16) : verifyAnswer c w.toList = .verdict (verifyFrame c w) := by
  simp [verifyAnswer]

/-- What an operation does once nothing refuses or holds it. -/
def body : Instr → State → Flow Answer
  | .init _, s => initWith (drawInit s).1 (drawInit s).2
  | .close, s => .ok .none (putShutdown true s)
  | .getdesc, s => .ok (.desc s.cfg.desc) s
  | .write f ch, s => writeFrame f ch s
  | .register p m e cb ctx, s => registerEntry ⟨p, m, e, cb, ctx⟩ s
  | .feed ch b, s => feed ch.toNat b s
  | .cksum b, s => .ok (.byte (cksumOf b)) s
  | .encode f ch, s => .ok (.bytes (encodeFrame s.cfg f ch)) s
  | .verify b, s => .ok (verifyAnswer s.cfg b) s
  | .tickTop, s => tickTop s
  | .tickXfer, s => tickXfer s
  | .tickRx, s => tickRx s
  | .tickDecide, s => tickDecide s
  | .tickSleep, s => .ok .none { s with ph := .top }
  | .closeJoin, s => closeJoin s
  | .extract ch, s => (extract ch.toNat s).map .extracted
  | .framecb ch w, s => (canFramecb ch.toNat w s).map fun _ => .none
  | .dispatch ch f, s => .ok .none (dispatchFrame ch.toNat f s)
  | .reserved00, s | .reserved0A, s | .reserved0B, s | .reserved0C, s | .reserved0D, s | .reserved0E, s
  | .reserved0F, s | .reserved19, s | .reserved1A, s | .reserved1B, s | .reserved1C, s | .reserved1D, s
  | .reserved1E, s | .reserved1F, s => .stop .internal s
  | .wfData f, s => judgeRx (wireBytes false f) s
  | .wfRemote f, s => judgeRx (wireBytes true f) s
  | .wfIdle c, s => judgeRx (sentinel (bit c)) s

/-- When the body is performed, for an agent that may take a step: the issuer of R112 and R116, the admission of R250, the
operand domains of R114, the enabling of R210, R200 and R92. -/
def runnable : Instr → State → Prop
  | .init _, s => mayIssue isController s = true ∧ admitInit s = true
  | .close, s => mayIssue isController s = true ∧ admitClose s = true
  | .getdesc, s => mayIssue isController s = true ∧ admitGetdesc s = true
  | .write f ch, s => mayIssue isProducer s = true ∧ admitWrite s = true ∧ frameDomain f ch = true
  | .register _ _ _ cb _, s => mayIssue isController s = true ∧ admitRegister s = true ∧ cbDomain cb = true
  | .feed ch _, s => mayIssue isController s = true ∧ admitFeed s = true ∧ chanDomain s.cfg.nChan ch = true
  | .cksum b, s => mayIssue anyAgent s = true ∧ cksumDomain b = true
  | .encode f ch, s => mayIssue anyAgent s = true ∧ frameDomain f ch = true
  | .verify b, s => mayIssue anyAgent s = true ∧ verifyDomain b = true
  | .tickTop, s => s.issuer = .block ∧ phaseEnabled .top s = true
  | .tickXfer, s => s.issuer = .block ∧ phaseEnabled .xfer s = true
  | .tickRx, s => s.issuer = .block ∧ phaseEnabled .rx s = true
  | .tickDecide, s => s.issuer = .block ∧ phaseEnabled .decide s = true
  | .tickSleep, s => s.issuer = .block ∧ sleepEnabled s = true
  | .closeJoin, s => s.issuer = .block ∧ joinEnabled s = true
  | .extract ch, s => s.issuer = .block ∧ subEnabled s = true ∧ chanDomain s.cfg.nChan ch = true
  | .framecb ch w, s => s.issuer = .block ∧ subEnabled s = true ∧ (chanDomain s.cfg.nChan ch && windowDomain s.cfg.baseLen w) = true
  | .dispatch ch _, s => s.issuer = .block ∧ subEnabled s = true ∧ chanDomain s.cfg.nChan ch = true
  | .reserved00, _ | .reserved0A, _ | .reserved0B, _ | .reserved0C, _ | .reserved0D, _ | .reserved0E, _
  | .reserved0F, _ | .reserved19, _ | .reserved1A, _ | .reserved1B, _ | .reserved1C, _ | .reserved1D, _
  | .reserved1E, _ | .reserved1F, _ => False
  | .wfData _, s | .wfRemote _, s | .wfIdle _, s => phaseEnabled .rx s = true

theorem performer_block (s : State) (h : s.issuer = .block) : performer s = runner s := by simp [performer, h]

theorem performer_port (s : State) (a : Agent) (h : s.issuer = .port a) : performer s = a := by simp [performer, h]

/-- An agent at the command port issues the commands that are its own, and a command that the block issues is nobody's. -/
theorem mayIssue_port (who : Agent → Bool) (s : State) (a : Agent) (h : s.issuer = .port a) : mayIssue who s = who a := by
  simp [mayIssue, h]

/-- The body is performed when it is runnable and its agent may take a step. -/
theorem exec_run (i : Instr) (s : State) (hs : CanServe s (mover i s)) (hr : runnable i s) :
    exec i s = finish (mover i s) (body i s) := by
  cases i
  case init => simp only [exec, execInit]; exact (command_run _ _ _ _ _ hs hr.1 hr.2 rfl).trans rfl
  case close => simp only [exec, execClose]; exact (command_run _ _ _ _ _ hs hr.1 hr.2 rfl).trans rfl
  case getdesc => exact (command_run _ _ _ _ _ hs hr.1 hr.2 rfl).trans rfl
  case write => exact (command_run _ _ _ _ _ hs hr.1 hr.2.1 hr.2.2).trans rfl
  case register => exact (command_run _ _ _ _ _ hs hr.1 hr.2.1 hr.2.2).trans rfl
  case feed => exact (command_run _ _ _ _ _ hs hr.1 hr.2.1 hr.2.2).trans rfl
  case cksum => exact (command_run _ _ _ _ _ hs hr.1 rfl hr.2).trans rfl
  case encode => exact (command_run _ _ _ _ _ hs hr.1 rfl hr.2).trans rfl
  case verify => simp only [exec, execVerify]; exact (command_run _ _ _ _ _ hs hr.1 rfl hr.2).trans rfl
  case wfData => exact (blockStep_run _ _ _ _ _ hs hr rfl).trans rfl
  case wfRemote => exact (blockStep_run _ _ _ _ _ hs hr rfl).trans rfl
  case wfIdle => exact (blockStep_run _ _ _ _ _ hs hr rfl).trans rfl
  case tickTop =>
    have hm : mover .tickTop s = .worker := by simp [mover, hr.1]
    rw [hm] at hs ⊢; exact (internalStep_run _ _ _ _ _ hr.1 hs hr.2 rfl).trans rfl
  case tickXfer =>
    have hm : mover .tickXfer s = .worker := by simp [mover, hr.1]
    rw [hm] at hs ⊢; exact (internalStep_run _ _ _ _ _ hr.1 hs hr.2 rfl).trans rfl
  case tickRx =>
    have hm : mover .tickRx s = .worker := by simp [mover, hr.1]
    rw [hm] at hs ⊢; exact (internalStep_run _ _ _ _ _ hr.1 hs hr.2 rfl).trans rfl
  case tickDecide =>
    have hm : mover .tickDecide s = .worker := by simp [mover, hr.1]
    rw [hm] at hs ⊢; exact (internalStep_run _ _ _ _ _ hr.1 hs hr.2 rfl).trans rfl
  case tickSleep =>
    have hm : mover .tickSleep s = .worker := by simp [mover, hr.1]
    rw [hm] at hs ⊢; exact (internalStep_run _ _ _ _ _ hr.1 hs hr.2 rfl).trans rfl
  case closeJoin =>
    have hm : mover .closeJoin s = .controller := by simp [mover, hr.1]
    rw [hm] at hs ⊢; exact (internalStep_run _ _ _ _ _ hr.1 hs hr.2 rfl).trans rfl
  case extract ch =>
    have hm : mover (.extract ch) s = runner s := by simp [mover, hr.1, performer]
    rw [hm] at hs ⊢; exact (internalStep_run _ _ _ _ _ hr.1 hs hr.2.1 hr.2.2).trans rfl
  case framecb ch w =>
    have hm : mover (.framecb ch w) s = runner s := by simp [mover, hr.1, performer]
    rw [hm] at hs ⊢; exact (internalStep_run _ _ _ _ _ hr.1 hs hr.2.1 hr.2.2).trans rfl
  case dispatch ch f =>
    have hm : mover (.dispatch ch f) s = runner s := by simp [mover, hr.1, performer]
    rw [hm] at hs ⊢; exact (internalStep_run _ _ _ _ _ hr.1 hs hr.2.1 hr.2.2).trans rfl
  all_goals exact hr.elim

/-- The same for an operation that the issuer performs. -/
theorem exec_performer (i : Instr) (s : State) (hs : CanServe s (performer s)) (hm : mover i s = performer s)
    (hr : runnable i s) : exec i s = finish (performer s) (body i s) := by
  rw [← hm] at hs ⊢
  exact exec_run i s hs hr

/-- The same for a command of an agent at the command port. -/
theorem exec_issued (i : Instr) (s : State) (a : Agent) (hi : s.issuer = .port a) (hs : CanServe s a)
    (hm : mover i s = performer s) (hr : runnable i s) : exec i s = finish a (body i s) := by
  rw [← performer_port s a hi] at hs ⊢
  exact exec_performer i s hs hm hr

/-- The same for a step of the Worker. -/
theorem exec_worker (i : Instr) (s : State) (hs : CanServe s .worker) (hm : mover i s = .worker) (hr : runnable i s) :
    exec i s = finish .worker (body i s) := by
  rw [← hm] at hs ⊢
  exact exec_run i s hs hr

/-- The same for a sub-operation by itself: it runs only outside RUNNING, where it is the Controller's (log entry 12). -/
theorem exec_alone (i : Instr) (s : State) (hi : s.issuer = .block) (hs : CanServe s .controller) (hl : s.life ≠ .running)
    (hm : mover i s = performer s) (hr : runnable i s) : exec i s = finish .controller (body i s) := by
  have hp : performer s = .controller := by rw [performer_block s hi]; simp [runner, hl]
  rw [← hp] at hs ⊢
  exact exec_performer i s hs hm hr

/-- How `exec` can end in a next state: held, refused, or its body performed by an agent that may take a step. -/
theorem exec_next (i : Instr) (s t : State) (h : exec i s = .next t) :
    t = hold s ∨ (∃ r, t = refuse r s) ∨ ∃ a, CanServe s a ∧ runnable i s ∧ Performed a (body i s) t := by
  have cmd : ∀ who adm dom b, command s who adm dom b = .next t →
      (mayIssue who s = true → adm = true → dom = true → runnable i s) → b s = body i s →
      t = hold s ∨ (∃ r, t = refuse r s) ∨ ∃ a, CanServe s a ∧ runnable i s ∧ Performed a (body i s) t := by
    intro who adm dom b h hr hb
    rcases command_next _ _ _ _ _ _ h with h | h | ⟨h1, hw, h2, h3, h4⟩
    · exact .inl h
    · exact .inr (.inl h)
    · exact .inr (.inr ⟨_, h1, hr hw h2 h3, hb ▸ h4⟩)
  have int : ∀ a en dom b, internalStep s a en dom b = .next t →
      (s.issuer = .block → en = true → dom = true → runnable i s) → b s = body i s →
      t = hold s ∨ (∃ r, t = refuse r s) ∨ ∃ a, CanServe s a ∧ runnable i s ∧ Performed a (body i s) t := by
    intro a en dom b h hr hb
    rcases internalStep_next _ _ _ _ _ _ h with h | h | ⟨h0, h1, h2, h3, h4⟩
    · exact .inl h
    · exact .inr (.inl h)
    · exact .inr (.inr ⟨_, h1, hr h0 h2 h3, hb ▸ h4⟩)
  have blk : ∀ a en dom b, blockStep s a en dom b = .next t → (en = true → dom = true → runnable i s) → b s = body i s →
      t = hold s ∨ (∃ r, t = refuse r s) ∨ ∃ a, CanServe s a ∧ runnable i s ∧ Performed a (body i s) t := by
    intro a en dom b h hr hb
    rcases blockStep_next _ _ _ _ _ _ h with h | h | ⟨h1, h2, h3, h4⟩
    · exact .inl h
    · exact .inr (.inl h)
    · exact .inr (.inr ⟨_, h1, hr h2 h3, hb ▸ h4⟩)
  have byte : ∀ r, refuseByByte r s = .next t →
      t = hold s ∨ (∃ r, t = refuse r s) ∨ ∃ a, CanServe s a ∧ runnable i s ∧ Performed a (body i s) t := by
    intro r h
    rcases refuseByByte_next _ _ _ h with h | h
    · exact .inl h
    · exact .inr (.inl ⟨_, h⟩)
  cases i
  case init =>
    simp only [exec, execInit] at h
    exact cmd _ _ _ _ h (fun w a _ => ⟨w, a⟩) rfl
  case close =>
    simp only [exec, execClose] at h
    exact cmd _ _ _ _ h (fun w a _ => ⟨w, a⟩) rfl
  case getdesc =>
    simp only [exec, execGetdesc] at h
    exact cmd _ _ _ _ h (fun w a _ => ⟨w, a⟩) rfl
  case write => exact cmd _ _ _ _ h (fun w a b => ⟨w, a, b⟩) rfl
  case register => exact cmd _ _ _ _ h (fun w a b => ⟨w, a, b⟩) rfl
  case feed => exact cmd _ _ _ _ h (fun w a b => ⟨w, a, b⟩) rfl
  case cksum => exact cmd _ _ _ _ h (fun w _ b => ⟨w, b⟩) rfl
  case encode => exact cmd _ _ _ _ h (fun w _ b => ⟨w, b⟩) rfl
  case verify =>
    simp only [exec, execVerify] at h
    exact cmd _ _ _ _ h (fun w _ b => ⟨w, b⟩) rfl
  case wfData => exact blk _ _ _ _ h (fun a _ => a) rfl
  case wfRemote => exact blk _ _ _ _ h (fun a _ => a) rfl
  case wfIdle => exact blk _ _ _ _ h (fun a _ => a) rfl
  case tickTop => exact int _ _ _ _ h (fun a b _ => ⟨a, b⟩) rfl
  case tickXfer => exact int _ _ _ _ h (fun a b _ => ⟨a, b⟩) rfl
  case tickRx => exact int _ _ _ _ h (fun a b _ => ⟨a, b⟩) rfl
  case tickDecide => exact int _ _ _ _ h (fun a b _ => ⟨a, b⟩) rfl
  case tickSleep => exact int _ _ _ _ h (fun a b _ => ⟨a, b⟩) rfl
  case closeJoin => exact int _ _ _ _ h (fun a b _ => ⟨a, b⟩) rfl
  case extract => exact int _ _ _ _ h (fun a b c => ⟨a, b, c⟩) rfl
  case framecb => exact int _ _ _ _ h (fun a b c => ⟨a, b, c⟩) rfl
  case dispatch => exact int _ _ _ _ h (fun a b c => ⟨a, b, c⟩) rfl
  all_goals exact byte _ h

/-- An operation is held when its agent takes no step: it has faulted (R245), or is the Worker with its loop off or stopped
(R247). -/
theorem exec_stalled (i : Instr) (s : State) (h : stalled (mover i s) s = true) : exec i s = .next (hold s) := by
  have cmd : ∀ who adm dom b, stalled (performer s) s = true → command s who adm dom b = .next (hold s) := by
    intro who adm dom b h; simp [command, h]
  have blk : ∀ a en dom b, stalled a s = true → blockStep s a en dom b = .next (hold s) := by
    intro a en dom b h; simp [blockStep, h]
  have byte : ∀ r, stalled (performer s) s = true → refuseByByte r s = .next (hold s) := by
    intro r h; simp [refuseByByte, h]
  have int : ∀ a en dom b, (s.issuer = .block → stalled a s = true) → ((∃ p, s.issuer = .port p) → stalled (performer s) s = true) →
      internalStep s a en dom b = .next (hold s) := by
    intro a en dom b h1 h2
    unfold internalStep
    cases hi : s.issuer with
    | port p => exact byte _ (h2 ⟨p, hi⟩)
    | block => exact blk _ _ _ _ (h1 hi)
  cases i
  case init => simp only [exec, execInit]; exact cmd _ _ _ _ h
  case close => simp only [exec, execClose]; exact cmd _ _ _ _ h
  case getdesc => exact cmd _ _ _ _ h
  case write => exact cmd _ _ _ _ h
  case register => exact cmd _ _ _ _ h
  case feed => exact cmd _ _ _ _ h
  case cksum => exact cmd _ _ _ _ h
  case encode => exact cmd _ _ _ _ h
  case verify => simp only [exec, execVerify]; exact cmd _ _ _ _ h
  case wfData => exact blk _ _ _ _ h
  case wfRemote => exact blk _ _ _ _ h
  case wfIdle => exact blk _ _ _ _ h
  case extract ch =>
    exact int _ _ _ _ (fun hi => by simpa [mover, hi, performer] using h) (fun ⟨p, hi⟩ => by simpa [mover, hi] using h)
  case framecb ch w =>
    exact int _ _ _ _ (fun hi => by simpa [mover, hi, performer] using h) (fun ⟨p, hi⟩ => by simpa [mover, hi] using h)
  case dispatch ch f =>
    exact int _ _ _ _ (fun hi => by simpa [mover, hi, performer] using h) (fun ⟨p, hi⟩ => by simpa [mover, hi] using h)
  case tickTop => exact int _ _ _ _ (fun hi => by simpa [mover, hi] using h) (fun ⟨p, hi⟩ => by simpa [mover, hi, performer] using h)
  case tickXfer => exact int _ _ _ _ (fun hi => by simpa [mover, hi] using h) (fun ⟨p, hi⟩ => by simpa [mover, hi, performer] using h)
  case tickRx => exact int _ _ _ _ (fun hi => by simpa [mover, hi] using h) (fun ⟨p, hi⟩ => by simpa [mover, hi, performer] using h)
  case tickDecide => exact int _ _ _ _ (fun hi => by simpa [mover, hi] using h) (fun ⟨p, hi⟩ => by simpa [mover, hi, performer] using h)
  case tickSleep => exact int _ _ _ _ (fun hi => by simpa [mover, hi] using h) (fun ⟨p, hi⟩ => by simpa [mover, hi, performer] using h)
  case closeJoin => exact int _ _ _ _ (fun hi => by simpa [mover, hi] using h) (fun ⟨p, hi⟩ => by simpa [mover, hi, performer] using h)
  all_goals exact byte _ h

/-- An operation is held when its agent has faulted (R245). -/
theorem exec_halted (i : Instr) (s : State) (h : mover i s ∈ s.halted) : exec i s = .next (hold s) :=
  exec_stalled i s (stalled_of_halted _ s h)

end Sys2Proof.Machine
end

