-- ==== Sys2Proof/Laws/Step.lean ====
section
/-! SUPPORT. What one step can do, said once: every claim about all steps is a case analysis of `Effect`. -/

namespace Sys2Proof.Machine

/-! ### Small facts -/

theorem phaseEnabled_iff (p : Phase) (s : State) : phaseEnabled p s = true ↔ s.ph = p ∧ Active s := by
  simp [phaseEnabled, loopActive]

theorem sleepEnabled_iff (s : State) : sleepEnabled s = true ↔ s.ph = .sleep ∧ s.ls = .idle := by
  simp [sleepEnabled]

theorem joinEnabled_iff (s : State) : joinEnabled s = true ↔ s.ls = .stopped ∧ s.life = .running := by
  simp [joinEnabled]

theorem admitFeed_iff (s : State) : admitFeed s = true ↔ s.life ≠ .running := by simp [admitFeed]

theorem subEnabled_iff (s : State) : subEnabled s = true ↔ s.life ≠ .running := by simp [subEnabled]

theorem chanDomain_iff (n : Nat) (c : Byte) : chanDomain n c = true ↔ c.toNat < n := by simp [chanDomain]

theorem frameDomain_iff (f : CanFrame) (c : Byte) : frameDomain f c = true ↔ f.dlc.toNat ≤ 8 ∧ c.toNat ≤ 1 := by
  simp [frameDomain]

theorem windowDomain_iff (n : Nat) (w : List Byte) : windowDomain n w = true ↔ n ≤ w.length := by simp [windowDomain]

theorem cksumDomain_iff (b : List Byte) : cksumDomain b = true ↔ b.length = 15 := by simp [cksumDomain]

theorem verifyDomain_iff (b : List Byte) : verifyDomain b = true ↔ b.length = 16 := by simp [verifyDomain]

theorem cbDomain_iff (c : Ref) : cbDomain c = true ↔ c ≠ 0 := by simp [cbDomain]

/-- The slot that REGISTER takes: the first unused one (R180). -/
theorem freeSlot_some (l : List (Option FilterEntry)) (n k : Nat) (h : freeSlot n l = some k) :
    n ≤ k ∧ l[k - n]? = some none ∧ ∀ j, j < k - n → ∃ e, l[j]? = some (some e) := by
  induction l generalizing n with
  | nil => cases h
  | cons x t ih =>
    unfold freeSlot at h
    cases x with
    | none =>
      simp only [slotValid, Option.isSome_none, Bool.false_eq_true, if_false, Option.some.injEq] at h
      subst h
      simp
    | some e =>
      simp only [slotValid, Option.isSome_some, if_true] at h
      obtain ⟨h1, h2, h3⟩ := ih _ h
      refine ⟨by omega, ?_, ?_⟩
      · rw [show k - n = (k - (n + 1)) + 1 by omega]
        simpa using h2
      · intro j hj
        cases j with
        | zero => exact ⟨e, rfl⟩
        | succ j => simpa using h3 j (by omega)

/-- REGISTER finds no slot exactly when every slot is used (R180). -/
theorem freeSlot_none (l : List (Option FilterEntry)) (n : Nat) (h : freeSlot n l = none) :
    ∀ x ∈ l, x.isSome = true := by
  induction l generalizing n with
  | nil => simp
  | cons x t ih =>
    unfold freeSlot at h
    cases x with
    | none => simp [slotValid] at h
    | some e =>
      simp only [slotValid, Option.isSome_some, if_true] at h
      intro y hy
      rcases List.mem_cons.1 hy with rfl | hy
      · rfl
      · exact ih _ h y hy

/-- The first entry that matches is the one that is found (R181, R185). -/
theorem firstMatch_some (id : Word) (l : List (Option FilterEntry)) (n k : Nat) (e : FilterEntry)
    (h1 : l[k]? = some (some e)) (hm : entryMatches id e = true)
    (h2 : ∀ j, j < k → ∀ d, l[j]? = some (some d) → entryMatches id d = false) : firstMatch id n l = some (n + k, e) := by
  induction l generalizing n k with
  | nil => simp at h1
  | cons x l ih =>
    cases k with
    | zero => simp at h1; subst h1; simp [firstMatch, hm]
    | succ k =>
      have ih := ih (n + 1) k (by simpa using h1) (fun j hj d hd => h2 (j + 1) (by omega) d (by simpa using hd))
      have e : n + 1 + k = n + (k + 1) := by omega
      cases x with
      | none => simp only [firstMatch]; rw [ih, e]
      | some d =>
        have := h2 0 (by omega) d rfl
        simp only [firstMatch, this]; rw [← e, ← ih]; rfl

/-- Nothing is found when no entry matches (R185). -/
theorem firstMatch_none (id : Word) (l : List (Option FilterEntry)) (n : Nat)
    (h : ∀ d, some d ∈ l → entryMatches id d = false) : firstMatch id n l = none := by
  induction l generalizing n with
  | nil => rfl
  | cons x l ih =>
    have ih := ih (n + 1) fun d hd => h d (List.mem_cons_of_mem _ hd)
    cases x with
    | none => simpa [firstMatch] using ih
    | some d => simpa [firstMatch, h d List.mem_cons_self] using ih

/-! ### What an operation does -/

/-- Everything an operation can do to the state, its result apart, with what holds when it does it. -/
inductive Effect (s : State) : State → Prop where
  | same : Effect s s
  | init (ok : Bool) (l : List Bool) (n : Nat) (hl : s.life = .uninit) :
      Effect s (initState ok { s with initIn := l, draws := n })
  | close (hl : s.life = .running) (hs : s.shutdown = false) : Effect s (putShutdown true s)
  | write (f : CanFrame) (ch : Byte) (hl : s.life = .running) (hd : f.dlc.toNat ≤ 8) (hc : ch.toNat ≤ 1)
      (hq : s.txq.length + 16 ≤ 16 * s.cfg.txqFrames) :
      Effect s { s with txq := s.txq ++ (encodeFrame s.cfg f ch).toList }
  | register (e : FilterEntry) (i : Nat) (hl : s.life ≠ .running) (hi : freeSlot 0 s.ft = some i) :
      Effect s (putSlot i e s)
  | feed (c : Nat) (b : List Byte) (hc : c < s.cfg.nChan) (hl : s.life ≠ .running) : Effect s (feed c b s).state
  | extract (c : Nat) (hc : c < s.cfg.nChan) (hl : s.life ≠ .running) : Effect s (extract c s).state
  | framecb (c : Nat) (w : List Byte) (hc : c < s.cfg.nChan) (hl : s.life ≠ .running) : Effect s (canFramecb c w s).state
  | dispatch (c : Nat) (f : DecFrame) (hc : c < s.cfg.nChan) (hl : s.life ≠ .running) : Effect s (dispatchFrame c f s)
  | stop (ha : Active s) (hp : s.ph = .top) (hs : s.shutdown = true) : Effect s { s with ls := .stopped }
  | topFrame (w : Bytes 16) (ha : Active s) (hp : s.ph = .top) (hs : s.shutdown = false)
      (hw : s.txq = w.toList ++ s.txq.drop 16) :
      Effect s { s with rxNew := false, txq := s.txq.drop 16, txbuf := some w, txkind := some .frame, ph := .xfer }
  | topIdle (ha : Active s) (hp : s.ph = .top) (hs : s.shutdown = false) (hq : s.txq.length < 16) :
      Effect s { s with
        rxNew := false, txbuf := some (sentinel (BitVec.ofNat 8 s.cfg.localChan)), txkind := some .idle, ph := .xfer }
  | xfer (tx : Bytes 16) (k : TxKind) (a : XferAnswer) (l : List XferAnswer) (n : Nat) (ha : Active s)
      (hp : s.ph = .xfer) (ht : s.txbuf = some tx) (hk : s.txkind = some k) :
      Effect s (exchange tx k a { s with xferIn := l, draws := n })
  | discard (r : Reason) (ha : Active s) (hp : s.ph = .rx) : Effect s { emit (.rxDiscard r) s with ph := .decide }
  | routed (c : Nat) (w : List Byte) (r : Answer) (u : State) (ha : Active s) (hp : s.ph = .rx) (hc : c < s.cfg.nChan)
      (hf : Machine.feed c w s = .ok r u) : Effect s { putRxNew true u with ph := .decide }
  | routedFault (c : Nat) (w : List Byte) (k : Fault) (u : State) (ha : Active s) (hp : s.ph = .rx)
      (hc : c < s.cfg.nChan) (hf : Machine.feed c w s = .stop k u) : Effect s u
  | drain (ha : Active s) (hp : s.ph = .decide) (hd : 16 ≤ s.txq.length ∨ s.rxNew = true) :
      Effect s { s with ls := .draining, ph := .top }
  | idle (ha : Active s) (hp : s.ph = .decide) (hd : ¬(16 ≤ s.txq.length ∨ s.rxNew = true)) :
      Effect s { s with ls := .idle, ph := .sleep }
  | sleep (hl : s.ls = .idle) (hp : s.ph = .sleep) : Effect s { s with ph := .top }
  | join (hl : s.life = .running) (hs : s.ls = .stopped) :
      Effect s { s with txq := [], asm := s.asm.map fun _ => idleAsm [], life := .closed }

theorem drawXfer_state (s : State) : ∃ l n, (drawXfer s).2 = { s with xferIn := l, draws := n } := by
  unfold drawXfer
  split
  · exact ⟨_, s.draws, rfl⟩
  · exact ⟨s.xferIn, s.draws + 1, rfl⟩

theorem drawInit_state (s : State) : ∃ l n, (drawInit s).2 = { s with initIn := l, draws := n } := by
  unfold drawInit
  split
  · exact ⟨_, s.draws, rfl⟩
  · exact ⟨s.initIn, s.draws + 1, rfl⟩

theorem judgeRx_effect (w : Bytes 16) (s : State) (ha : Active s) (hp : s.ph = .rx) : Effect s (judgeRx w s).state := by
  unfold judgeRx discardRx
  split
  · exact .discard _ ha hp
  · next f _ =>
    split
    · exact .discard _ ha hp
    · split
      · exact .discard _ ha hp
      · next hc =>
        cases hf : feed f.chan.toNat w.toList s with
        | ok r u => exact .routed _ _ r u ha hp (by omega) hf
        | stop k u => exact .routedFault _ _ k u ha hp (by omega) hf

theorem tickTop_effect (s : State) (ha : Active s) (hp : s.ph = .top) : Effect s (tickTop s).state := by
  unfold tickTop
  split
  · next hs => exact .stop ha hp hs
  · next hs =>
    split
    · next w q hq =>
      obtain ⟨h1, rfl⟩ := (deqFrame_eq_some_iff _ _ _).1 hq
      exact .topFrame w ha hp (by simpa using hs) h1
    · next hq => exact .topIdle ha hp (by simpa using hs) ((deqFrame_eq_none_iff _).1 hq)

/-- What the body of an operation does when it is performed. -/
theorem body_effect (i : Instr) (s : State) (h : runnable i s) : Effect s (body i s).state := by
  cases i
  case init =>
    obtain ⟨l, n, e⟩ := drawInit_state s
    show Effect s (initState _ (drawInit s).2)
    rw [e]
    exact .init _ l n (by simpa [admitInit] using h.2)
  case close =>
    have h : s.life = .running ∧ s.shutdown = false := by simpa [admitClose] using h.2
    exact .close h.1 h.2
  case getdesc => exact .same
  case write f ch =>
    obtain ⟨_, h1, h2⟩ := h
    have hl : s.life = .running := by simpa [admitWrite] using h1
    obtain ⟨hd, hc⟩ := (frameDomain_iff f ch).1 h2
    show Effect s (writeFrame f ch s).state
    unfold writeFrame
    cases hq : enq (txqCap s.cfg) s.txq (encodeFrame s.cfg f ch).toList with
    | none => exact .same
    | some q =>
      obtain ⟨hn, rfl⟩ := (enq_eq_some_iff _ _ _ _).1 hq
      exact .write f ch hl hd hc (by simpa [txqCap] using hn)
  case register p m e cb ctx =>
    have hl : s.life ≠ .running := by simpa [admitRegister] using h.2.1
    show Effect s (registerEntry _ s).state
    unfold registerEntry
    cases hi : freeSlot 0 s.ft with
    | none => exact .same
    | some i => exact .register _ i hl hi
  case feed ch b => exact .feed _ _ ((chanDomain_iff _ _).1 h.2.2) ((admitFeed_iff s).1 h.2.1)
  case cksum => exact .same
  case encode => exact .same
  case verify => exact .same
  case tickTop => have h := (phaseEnabled_iff _ _).1 h.2; exact tickTop_effect s h.2 h.1
  case tickXfer =>
    have h := (phaseEnabled_iff _ _).1 h.2
    show Effect s (tickXfer s).state
    unfold tickXfer
    split
    · next tx k ht hk =>
      obtain ⟨l, n, e⟩ := drawXfer_state s
      rw [e]
      exact .xfer tx k _ l n h.2 h.1 ht hk
    · exact .same
  case tickRx =>
    have h := (phaseEnabled_iff _ _).1 h.2
    show Effect s (tickRx s).state
    unfold tickRx
    split
    · exact .same
    · exact judgeRx_effect _ _ h.2 h.1
  case tickDecide =>
    have h := (phaseEnabled_iff _ _).1 h.2
    show Effect s (tickDecide s).state
    unfold tickDecide
    split
    · next hd => exact .drain h.2 h.1 hd
    · next hd => exact .idle h.2 h.1 hd
  case tickSleep => have h := (sleepEnabled_iff s).1 h.2; exact .sleep h.2 h.1
  case closeJoin => have h := (joinEnabled_iff s).1 h.2; exact .join h.2 h.1
  case extract ch =>
    show Effect s ((extract ch.toNat s).map _).state
    rw [Flow.state_map]
    exact .extract _ ((chanDomain_iff _ _).1 h.2.2) ((subEnabled_iff s).1 h.2.1)
  case framecb ch w =>
    show Effect s ((canFramecb ch.toNat w s).map _).state
    rw [Flow.state_map]
    exact .framecb _ _ ((chanDomain_iff _ _).1 (by simpa using (Bool.and_eq_true _ _ ▸ h.2.2).1)) ((subEnabled_iff s).1 h.2.1)
  case dispatch ch f => exact .dispatch _ _ ((chanDomain_iff _ _).1 h.2.2) ((subEnabled_iff s).1 h.2.1)
  case wfData => have h := (phaseEnabled_iff _ _).1 h; exact judgeRx_effect _ _ h.2 h.1
  case wfRemote => have h := (phaseEnabled_iff _ _).1 h; exact judgeRx_effect _ _ h.2 h.1
  case wfIdle => have h := (phaseEnabled_iff _ _).1 h; exact judgeRx_effect _ _ h.2 h.1
  all_goals exact h.elim

/-- Neither buffer is written, and no exchange is logged, from `s` to `v`. -/
def BuffersKept (s v : State) : Prop :=
  v.txbuf = s.txbuf ∧ v.rxbuf = s.rxbuf ∧ ∃ es, v.evlog = s.evlog ++ es ∧ ∀ e ∈ es, isXfer e = false

theorem AsmFrame.buffersKept {c : Nat} {s v : State} (h : AsmFrame c s v) : BuffersKept s v := by
  obtain ⟨h1, _, _, es, h2, h3⟩ := h
  exact ⟨by rw [h1], by rw [h1], es, h2, h3⟩

theorem judgeRx_buffersKept (w : Bytes 16) (s : State) : BuffersKept s (judgeRx w s).state := by
  unfold judgeRx discardRx
  split
  · exact ⟨rfl, rfl, _, rfl, by simp [isXfer]⟩
  · split
    · exact ⟨rfl, rfl, _, rfl, by simp [isXfer]⟩
    · split
      · exact ⟨rfl, rfl, _, rfl, by simp [isXfer]⟩
      · next f _ _ _ =>
        cases hf : feed f.chan.toNat w.toList s with
        | ok r u =>
          obtain ⟨h1, _, _, es, h2, h3⟩ := feed_ok_frame hf
          exact ⟨show u.txbuf = _ by rw [h1], show u.rxbuf = _ by rw [h1], es, h2, h3⟩
        | stop k u => exact AsmFrame.buffersKept (feed_stop_frame hf)

theorem buffersKept_same (s v : State) (h1 : v.txbuf = s.txbuf) (h2 : v.rxbuf = s.rxbuf) (h3 : v.evlog = s.evlog) : BuffersKept s v :=
  ⟨h1, h2, [], by simp [h3], by simp⟩

/-- Every operation but TICK.TOP and TICK.XFER keeps the buffers (R98). -/
theorem body_buffersKept (i : Instr) (s : State) (h1 : i ≠ .tickTop) (h2 : i ≠ .tickXfer) :
    BuffersKept s (body i s).state := by
  cases i
  case tickTop => exact absurd rfl h1
  case tickXfer => exact absurd rfl h2
  case init =>
    show BuffersKept s (initState (drawInit s).1 (drawInit s).2)
    unfold initState
    split <;> exact buffersKept_same _ _ (by simp) (by simp) (by simp)
  case write f ch =>
    show BuffersKept s (writeFrame f ch s).state
    unfold writeFrame; split <;> exact buffersKept_same _ _ rfl rfl rfl
  case register =>
    show BuffersKept s (registerEntry _ s).state
    unfold registerEntry; split <;> exact buffersKept_same _ _ rfl rfl rfl
  case feed ch b => exact AsmFrame.buffersKept (feed_frame _ b s)
  case tickRx =>
    show BuffersKept s (tickRx s).state
    unfold tickRx
    split
    · exact buffersKept_same _ _ rfl rfl rfl
    · exact judgeRx_buffersKept _ _
  case tickDecide =>
    show BuffersKept s (tickDecide s).state
    unfold tickDecide; split <;> exact buffersKept_same _ _ rfl rfl rfl
  case extract ch =>
    show BuffersKept s ((extract ch.toNat s).map _).state
    rw [Flow.state_map]; exact AsmFrame.buffersKept (extract_frame _ _)
  case framecb ch w =>
    show BuffersKept s ((canFramecb ch.toNat w s).map _).state
    rw [Flow.state_map]; exact AsmFrame.buffersKept (canFramecb_frame ch.toNat _ _ _)
  case dispatch ch f => exact ⟨rfl, rfl, _, rfl, by simp [isXfer_dispatchEvent]⟩
  case wfData => exact judgeRx_buffersKept _ _
  case wfRemote => exact judgeRx_buffersKept _ _
  case wfIdle => exact judgeRx_buffersKept _ _
  all_goals exact buffersKept_same _ _ rfl rfl rfl

/-! ### What a step does -/

/-- `s` with its next input taken: nothing of the spec's state differs. -/
def Consumed (s u : State) : Prop := ∃ l a n, u = { s with inbox := l, issuer := a, draws := n }

theorem nextInput_state (s : State) : ∃ l n, (nextInput s).2 = { s with inbox := l, draws := n } := by
  unfold nextInput
  split
  · exact ⟨_, s.draws, rfl⟩
  · exact ⟨s.inbox, s.draws + 1, rfl⟩

theorem fetchBytes_state (b : List Byte) (s : State) :
    (∃ i, fetchBytes b s = .run i s) ∨ (∃ r, fetchBytes b s = .refused r s) ∨ ∃ e, fetchBytes b s = .unreadable e := by
  unfold fetchBytes undecoded
  split
  · exact .inl ⟨_, rfl⟩
  · split
    · exact .inr (.inr ⟨_, rfl⟩)
    · split
      · exact .inr (.inl ⟨_, rfl⟩)
      · split
        · exact .inr (.inl ⟨_, rfl⟩)
        · exact .inr (.inr ⟨_, rfl⟩)

theorem fetch_state (s : State) : ∃ u, Consumed s u ∧
    ((∃ i, fetch s = .run i u) ∨ (∃ r, fetch s = .refused r u) ∨ ∃ e, fetch s = .unreadable e) := by
  obtain ⟨l, n, e⟩ := nextInput_state s
  unfold fetch
  rw [e]
  cases (nextInput s).1 with
  | port a b => exact ⟨_, ⟨l, .port a, n, rfl⟩, fetchBytes_state b _⟩
  | block b => exact ⟨_, ⟨l, .block, n, rfl⟩, fetchBytes_state b _⟩
  | frame =>
    refine ⟨_, ⟨l, .block, n, rfl⟩, .inl ?_⟩
    simp only [fetchInput, fetchFrame]
    split
    · exact ⟨_, rfl⟩
    · split
      · exact ⟨_, rfl⟩
      · exact ⟨_, rfl⟩

/-- How a step can end in a next state (R15): held, refused, or the operation that was fetched performed. -/
theorem step_next (s t : State) (h : step s = .next t) : ∃ u, Consumed s u ∧
    (t = hold u ∨ (∃ r, t = refuse r u) ∨
      ∃ i a, fetch s = .run i u ∧ CanServe u a ∧ runnable i u ∧ Performed a (body i u) t) := by
  obtain ⟨u, hu, hf⟩ := fetch_state s
  refine ⟨u, hu, ?_⟩
  unfold step at h
  rcases hf with ⟨i, hf⟩ | ⟨r, hf⟩ | ⟨e, hf⟩ <;> rw [hf] at h
  · rcases exec_next _ _ _ h with h | h | ⟨a, h⟩
    · exact .inl h
    · exact .inr (.inl h)
    · exact .inr (.inr ⟨i, a, hf, h⟩)
  · rcases refuseByByte_next _ _ _ h with h | h
    · exact .inl h
    · exact .inr (.inl ⟨_, h⟩)
  · cases h

/-- A step takes an input, has one effect, and then gives a result, marks a refusal or records a fault. -/
theorem step_effect (s t : State) (h : step s = .next t) : ∃ u v, Consumed s u ∧ Effect u v ∧
    ((∃ r, t = give r v) ∨ (∃ r, v = u ∧ t = refuse r v) ∨ ∃ k a, t = raiseFault k a v) := by
  obtain ⟨u, hu, h | ⟨r, h⟩ | ⟨i, a, _, _, hr, hp⟩⟩ := step_next s t h
  · exact ⟨u, u, hu, .same, .inl ⟨_, h⟩⟩
  · exact ⟨u, u, hu, .same, .inr (.inl ⟨r, rfl, h⟩)⟩
  · have he := body_effect i u hr
    rcases hp with ⟨r, v, hb, ht⟩ | ⟨k, v, hb, ht⟩ <;> rw [hb] at he
    · exact ⟨u, v, hu, he, .inl ⟨r, ht⟩⟩
    · exact ⟨u, v, hu, he, .inr (.inr ⟨k, a, ht⟩)⟩

end Sys2Proof.Machine
end

