-- ==== Sys2Proof/Laws/Stream.lean ====
section
/-! SUPPORT. Byte streams: how extraction runs on, that it always ends in a stable state, and that bytes appended later change
nothing of what was extracted before (R157, R161). -/

namespace Sys2Proof.Machine

theorem putAsm_putAsm (c : Nat) (a b : AsmState) (s : State) : putAsm c b (putAsm c a s) = putAsm c b s := by
  simp [putAsm]

theorem putAsm_self (c : Nat) (a : AsmState) (s : State) (h : s.asm[c]? = some a) : putAsm c a s = s := by
  have : s.asm.set c a = s.asm := by
    apply List.ext_getElem?
    intro i
    by_cases hi : c = i
    · subst hi
      have hlt : c < s.asm.length := by
        by_contra hn
        rw [List.getElem?_eq_none (by omega)] at h
        cases h
      simp [hlt, (List.getElem?_eq_some_iff.1 h).2]
    · rw [List.getElem?_set_ne hi]
  simp [putAsm, this]

theorem getElem?_putAsm (c : Nat) (a b : AsmState) (s : State) (h : s.asm[c]? = some a) :
    (putAsm c b s).asm[c]? = some b := by
  have hlt : c < s.asm.length := by
    by_contra hn
    rw [List.getElem?_eq_none (by omega)] at h
    cases h
  simp [hlt]

/-! ### The decision of an attempt -/

/-- The events that a decision emits (R153, R160). -/
def decided (c : Nat) (s : State) : Attempt → List Event
  | .wait | .await _ | .oversize _ => []
  | .drop k b d _ => [.corrupt c k b d]
  | .take w _ => [windowEvent c w s]

/-- The state that a decision leaves. -/
def after (c : Nat) (a : AsmState) (s : State) (d : Attempt) : State :=
  { putAsm c (nextAsm s.cfg a d) s with evlog := s.evlog ++ decided c s d }

theorem after_cfg (c : Nat) (a : AsmState) (s : State) (d : Attempt) : (after c a s d).cfg = s.cfg := rfl

theorem after_asm (c : Nat) (a : AsmState) (s : State) (d : Attempt) (h : s.asm[c]? = some a) :
    (after c a s d).asm[c]? = some (nextAsm s.cfg a d) := getElem?_putAsm c a _ s h

/-- Does a decision end the loop of FEED? -/
def Attempt.ends : Attempt → Bool
  | .wait | .await _ | .oversize _ => true
  | .drop .. | .take .. => false

theorem runAttempt_eq (c : Nat) (a : AsmState) (s : State) (d : Attempt) (h : s.asm[c]? = some a) :
    runAttempt c a.q s d = match d with
      | .wait | .await _ => .ok .incomplete (after c a s d)
      | .drop .. => .ok .corrupt (after c a s d)
      | .take .. => .ok .complete (after c a s d)
      | .oversize _ => .stop (.asmOversize c) (after c a s d) := by
  cases d with
  | wait => simp [runAttempt, after, nextAsm, decided, putAsm_self c a s h]
  | await n => simp [runAttempt, after, nextAsm, decided, putAsm]
  | drop k b d q => rfl
  | take w q => rfl
  | oversize n => simp [runAttempt, after, nextAsm, decided, putAsm]

/-- A decision of a stable assembler leaves a stable one. -/
theorem nextAsm_shape (c : Config) (a : AsmState) (hc : configOk c = true) (h : AsmShape c a) :
    AsmShape c (nextAsm c a (attempt c a)) := by
  obtain ⟨h1, h2, h3, h4, _⟩ := (configOk_iff c).1 hc
  have idle : ∀ q, AsmShape c (idleAsm q) := fun q => ⟨Nat.zero_le _, .inl ⟨rfl, rfl, rfl⟩⟩
  unfold attempt
  split
  · exact h
  · next hg =>
    split
    · exact idle _
    · cases hm : matchHeader a.q 0 c.hdr with
      | mismatch k b => exact idle _
      | short => exact absurd hm (matchHeader_ne_short _ _ _ (by omega))
      | matched =>
        have hh : a.q.take c.hdr.length = c.hdr := by
          simpa using (matchHeader_eq_matched_iff a.q 0 c.hdr (by omega)).1 hm
        have aw : ∀ n, 0 < n → AsmShape c (awaitAsm c a.q n) := fun n hn =>
          ⟨by show c.baseLen ≤ a.q.length; omega, .inr ⟨rfl, rfl, hn, hh⟩⟩
        dsimp only [attemptSized]
        split
        · exact aw _ (by omega)
        · split
          · exact aw _ (by omega)
          · exact idle _

/-- A decision that does not end the loop takes bytes from the queue (R157). -/
theorem nextAsm_shorter (c : Config) (a : AsmState) (hc : configOk c = true) (h : (attempt c a).ends = false) :
    (nextAsm c a (attempt c a)).q.length < a.q.length := by
  obtain ⟨h1, h2, h3, h4, _⟩ := (configOk_iff c).1 hc
  revert h
  unfold attempt
  split
  · intro h; cases h
  · next hg =>
    split
    · intro _; simp [nextAsm, idleAsm]; omega
    · cases hm : matchHeader a.q 0 c.hdr with
      | mismatch k b => intro _; simp [nextAsm, idleAsm]; omega
      | short => exact absurd hm (matchHeader_ne_short _ _ _ (by omega))
      | matched =>
        dsimp only [attemptSized]
        split
        · intro h; cases h
        · split
          · intro h; cases h
          · intro _; simp [nextAsm, idleAsm]; omega

/-- After a decision that ends the loop without a fault, the next one waits (R157). -/
theorem attempt_after_end (c : Config) (a : AsmState) (he : (attempt c a).ends = true)
    (ho : ∀ n, attempt c a ≠ .oversize n) : attempt c (nextAsm c a (attempt c a)) = .wait := by
  revert he ho
  unfold attempt
  split
  · next hw => intro _ _; simp [nextAsm, hw]
  · next hg =>
    split
    · intro h; cases h
    · cases hm : matchHeader a.q 0 c.hdr with
      | mismatch k b => intro h; cases h
      | short =>
        dsimp only [attemptSized]
        split
        · next n => intro _ h; exact absurd rfl (h _)
        · split
          · next hx => intro _ _; simp [nextAsm, awaitAsm, hx]
          · intro h; cases h
      | matched =>
        dsimp only [attemptSized]
        split
        · next n => intro _ h; exact absurd rfl (h _)
        · split
          · next hx => intro _ _; simp [nextAsm, awaitAsm, hx]
          · intro h; cases h

/-! ### The loop -/

/-- One turn of FEED's loop from a stable assembler. -/
theorem extractLoop_succ (n c : Nat) (a : AsmState) (s : State) (hc : configOk s.cfg = true) (ha : s.asm[c]? = some a)
    (hok : AsmShape s.cfg a) : extractLoop (n + 1) c s = match attempt s.cfg a with
      | .wait | .await _ => .ok .accepted (after c a s (attempt s.cfg a))
      | .drop .. | .take .. => extractLoop n c (after c a s (attempt s.cfg a))
      | .oversize _ => .stop (.asmOversize c) (after c a s (attempt s.cfg a)) := by
  conv_lhs => unfold extractLoop
  rw [extract_eq c a s hc ha hok, runAttempt_eq c a s _ ha]
  cases attempt s.cfg a <;> rfl

/-- The loop always ends, and leaves a stable assembler with nothing more to extract (R157). -/
theorem extractLoop_ends (n c : Nat) (a : AsmState) (s : State) (hc : configOk s.cfg = true) (ha : s.asm[c]? = some a)
    (hok : AsmShape s.cfg a) (hn : a.q.length < n) :
    (∃ t b, extractLoop n c s = .ok .accepted t ∧ t.cfg = s.cfg ∧ t.asm[c]? = some b ∧ AsmShape s.cfg b ∧
      b.q.length ≤ a.q.length ∧ attempt s.cfg b = .wait) ∨
    (∃ t b, extractLoop n c s = .stop (.asmOversize c) t ∧ t.cfg = s.cfg ∧ t.asm[c]? = some b ∧ AsmShape s.cfg b ∧
      b.q.length ≤ a.q.length) := by
  induction n generalizing a s with
  | zero => omega
  | succ n ih =>
    rw [extractLoop_succ n c a s hc ha hok]
    have hs := nextAsm_shape s.cfg a hc hok
    have hl := nextAsm_shorter s.cfg a hc
    have hw := attempt_after_end s.cfg a
    have hv := after_asm c a s (attempt s.cfg a) ha
    have hx : (attempt s.cfg a).ends = true → (nextAsm s.cfg a (attempt s.cfg a)).q = a.q := by
      intro h
      cases hd : attempt s.cfg a <;> rw [hd] at h <;> first | rfl | cases h
    cases hd : attempt s.cfg a with
    | wait =>
      rw [hd] at hs hw hv hx
      exact .inl ⟨_, _, rfl, rfl, hv, hs, (congrArg List.length (hx rfl)).le, hw rfl (by simp)⟩
    | await m =>
      rw [hd] at hs hw hv hx
      exact .inl ⟨_, _, rfl, rfl, hv, hs, (congrArg List.length (hx rfl)).le, hw rfl (by simp)⟩
    | oversize m =>
      rw [hd] at hs hv hx
      exact .inr ⟨_, _, rfl, rfl, hv, hs, (congrArg List.length (hx rfl)).le⟩
    | drop k b d q =>
      rw [hd] at hs hl hv
      have hl := hl rfl
      rcases ih _ (after c a s (.drop k b d q)) hc hv hs (by omega) with
        ⟨t, b, h1, h2, h3, h4, h5, h6⟩ | ⟨t, b, h1, h2, h3, h4, h5⟩
      · exact .inl ⟨t, b, h1, h2, h3, h4, by omega, h6⟩
      · exact .inr ⟨t, b, h1, h2, h3, h4, by omega⟩
    | take w q =>
      rw [hd] at hs hl hv
      have hl := hl rfl
      rcases ih _ (after c a s (.take w q)) hc hv hs (by omega) with
        ⟨t, b, h1, h2, h3, h4, h5, h6⟩ | ⟨t, b, h1, h2, h3, h4, h5⟩
      · exact .inl ⟨t, b, h1, h2, h3, h4, by omega, h6⟩
      · exact .inr ⟨t, b, h1, h2, h3, h4, by omega⟩

/-- More attempts allowed change nothing of a loop that ended well. -/
theorem extractLoop_more (n m c : Nat) (s t : State) (r : Answer) (h : extractLoop n c s = .ok r t) (hm : n ≤ m) :
    extractLoop m c s = .ok r t := by
  induction n generalizing s m with
  | zero => cases h
  | succ n ih =>
    obtain ⟨m, rfl⟩ : ∃ k, m = k + 1 := ⟨m - 1, by omega⟩
    unfold extractLoop at h ⊢
    cases he : extract c s with
    | stop k s' => rw [he] at h; cases h
    | ok x s' =>
      rw [he] at h
      cases x with
      | incomplete => exact h
      | corrupt => exact ih _ _ h (by omega)
      | complete => exact ih _ _ h (by omega)

/-- Extraction on channel `c` from `s` ends well in `t`. -/
def Settles (c : Nat) (s t : State) : Prop := ∃ n, extractLoop n c s = .ok .accepted t

theorem Settles.unique {c : Nat} {s t u : State} (h : Settles c s t) (k : Settles c s u) : t = u := by
  obtain ⟨n, h⟩ := h
  obtain ⟨m, k⟩ := k
  have h' := extractLoop_more n (max n m) c s t _ h (by omega)
  rw [extractLoop_more m (max n m) c s u _ k (by omega)] at h'
  cases h'
  rfl

/-- How extraction settles, by the decision of its first attempt. -/
theorem settles_iff (c : Nat) (a : AsmState) (s t : State) (hc : configOk s.cfg = true) (ha : s.asm[c]? = some a)
    (hok : AsmShape s.cfg a) : Settles c s t ↔ match attempt s.cfg a with
      | .wait | .await _ => t = after c a s (attempt s.cfg a)
      | .drop .. | .take .. => Settles c (after c a s (attempt s.cfg a)) t
      | .oversize _ => False := by
  constructor
  · rintro ⟨n, h⟩
    cases n with
    | zero => cases h
    | succ n =>
      rw [extractLoop_succ n c a s hc ha hok] at h
      cases hd : attempt s.cfg a <;> rw [hd] at h
      · cases h; rfl
      · cases h; rfl
      · exact ⟨n, h⟩
      · exact ⟨n, h⟩
      · cases h
  · intro h
    cases hd : attempt s.cfg a <;> rw [hd] at h
    · exact ⟨1, by rw [extractLoop_succ 0 c a s hc ha hok, hd, h]⟩
    · exact ⟨1, by rw [extractLoop_succ 0 c a s hc ha hok, hd, h]⟩
    · obtain ⟨n, h⟩ := h
      exact ⟨n + 1, by rw [extractLoop_succ n c a s hc ha hok, hd]; exact h⟩
    · obtain ⟨n, h⟩ := h
      exact ⟨n + 1, by rw [extractLoop_succ n c a s hc ha hok, hd]; exact h⟩
    · exact h.elim

/-! ### FEED -/

/-- FEED of a chunk that fits is the loop on the longer queue (R150). -/
theorem feed_fits (c : Nat) (a : AsmState) (b : List Byte) (s : State) (ha : s.asm[c]? = some a)
    (hb : a.q.length + b.length ≤ s.cfg.rxqCap) :
    feed c b s = extractLoop ((a.q ++ b).length + 1) c (putAsm c { a with q := a.q ++ b } s) := by
  have h1 : ¬ s.cfg.rxqCap < count a.q := by simp only [count]; omega
  simp only [feed, ha, h1, if_false, (enq_eq_some_iff _ _ _ _).2 ⟨hb, rfl⟩]
  rfl

/-- FEED of a chunk that does not fit (R150). -/
theorem feed_overfull (c : Nat) (a : AsmState) (b : List Byte) (s : State) (ha : s.asm[c]? = some a)
    (hq : a.q.length ≤ s.cfg.rxqCap) (hb : s.cfg.rxqCap < a.q.length + b.length) :
    feed c b s = .ok .rejected (emit (.rxOverflow c b.length) s) := by
  have h1 : ¬ s.cfg.rxqCap < count a.q := by simp only [count]; omega
  simp only [feed, ha, h1, if_false, (enq_eq_none_iff _ _ _).2 hb]

theorem AsmShape.append {c : Config} {a : AsmState} (h : AsmShape c a) (hl : c.hdr.length ≤ c.baseLen) (y : List Byte) :
    AsmShape c { a with q := a.q ++ y } := by
  obtain ⟨g1, g3⟩ := h
  refine ⟨by simp; omega, ?_⟩
  rcases g3 with g | ⟨w1, w2, w3, w4⟩
  · exact .inl g
  · refine .inr ⟨w1, w2, w3, ?_⟩
    show (a.q ++ y).take _ = _
    rw [List.take_append_of_le_length (by omega)]
    exact w4

/-- FEED of a chunk that fits settles exactly when the loop does (R150). -/
theorem feed_accepted_iff (c : Nat) (a : AsmState) (b : List Byte) (s t : State) (hc : configOk s.cfg = true)
    (ha : s.asm[c]? = some a) (hok : AsmShape s.cfg a) (hb : a.q.length + b.length ≤ s.cfg.rxqCap) :
    feed c b s = .ok .accepted t ↔ Settles c (putAsm c { a with q := a.q ++ b } s) t := by
  rw [feed_fits c a b s ha hb]
  constructor
  · exact fun h => ⟨_, h⟩
  · intro h
    have ha' := getElem?_putAsm c a { a with q := a.q ++ b } s ha
    have hok' := hok.append (((configOk_iff s.cfg).1 hc).2.1) b
    rcases extractLoop_ends ((a.q ++ b).length + 1) c _ (putAsm c { a with q := a.q ++ b } s) hc ha' hok'
      (Nat.lt_succ_self _) with ⟨u, _, hu, _⟩ | ⟨u, _, hu, _⟩
    · rw [hu, h.unique ⟨_, hu⟩]
    · obtain ⟨n, hn⟩ := h
      by_cases hm : n ≤ (a.q ++ b).length + 1
      · rw [extractLoop_more _ _ _ _ _ _ hn hm]
      · exfalso
        have : ∀ (n m : Nat) (s u t : State) (k : Fault), k ≠ .internal → extractLoop m c s = .stop k u → m ≤ n →
            extractLoop n c s ≠ .ok .accepted t := by
          intro n
          induction n with
          | zero => intro m s u t k _ _ _ h; cases h
          | succ n ih =>
            intro m s u t k hk hm hle hn
            cases m with
            | zero => simp only [extractLoop, Flow.stop.injEq] at hm; exact hk hm.1.symm
            | succ m =>
              unfold extractLoop at hm hn
              cases he : extract c s with
              | stop k' s' => rw [he] at hn; cases hn
              | ok r s' =>
                rw [he] at hm hn
                cases r with
                | incomplete => cases hm
                | corrupt => exact ih m s' u t k hk hm (by omega) hn
                | complete => exact ih m s' u t k hk hm (by omega) hn
        exact this n _ _ u t _ (by simp) hu (by omega) hn

/-! ### Bytes that come later -/

/-- The same state with more bytes at the end of assembler `c`'s queue. -/
def more (c : Nat) (a : AsmState) (y : List Byte) (s : State) : State := putAsm c { a with q := a.q ++ y } s

/-- What bytes that come later do to a decision. -/
theorem attempt_append (c : Config) (a : AsmState) (y : List Byte) (hc : configOk c = true) (_ : AsmShape c a) :
    match attempt c a with
    | .wait => True
    | .await n => attempt c { a with q := a.q ++ y } = (if (a.q ++ y).length < c.baseLen + n then .await n
        else .take ((a.q ++ y).take (c.baseLen + n)) ((a.q ++ y).drop (c.baseLen + n)))
    | .drop k b d q => attempt c { a with q := a.q ++ y } = .drop k b d (q ++ y)
    | .take w q => attempt c { a with q := a.q ++ y } = .take w (q ++ y)
    | .oversize n => attempt c { a with q := a.q ++ y } = .oversize n := by
  obtain ⟨h1, h2, h3, h4, _⟩ := (configOk_iff c).1 hc
  have hg' : ∀ m, m ≤ a.q.length → ¬ (a.q ++ y).length < m := by intro m hm; simp; omega
  unfold attempt
  by_cases hg : a.q.length < c.baseLen + a.extra
  · simp [hg]
  · simp only [hg, hg' _ (by omega : c.baseLen + a.extra ≤ a.q.length), if_false]
    by_cases hr : a.resolved = true
    · simp only [hr, if_true]
      rw [List.take_append_of_le_length (by omega), List.drop_append_of_le_length (by omega)]
    · have hw : (a.q ++ y).take c.baseLen = a.q.take c.baseLen := List.take_append_of_le_length (by omega)
      simp only [hr, hw, if_false, Bool.false_eq_true]
      rw [matchHeader_append _ _ _ _ (by omega)]
      have hne : a.q ≠ [] := by rintro h; rw [h] at hg; simp at hg; omega
      cases hm : matchHeader a.q 0 c.hdr with
      | mismatch k b =>
        obtain ⟨d, q, hq⟩ : ∃ d q, a.q = d :: q := by cases h : a.q <;> simp_all
        rw [hq]
        rfl
      | short => exact absurd hm (matchHeader_ne_short _ _ _ (by omega))
      | matched =>
        dsimp only
        generalize extraOf (resolve c.resolver (List.take c.baseLen a.q)) = n
        unfold attemptSized
        by_cases hv : c.rxqCap < c.baseLen + n
        · simp [hv]
        · by_cases hx : a.q.length < c.baseLen + n
          · simp only [hv, hx, if_false, if_true]
          · simp only [hv, hx, hg' _ (by omega : c.baseLen + n ≤ a.q.length), if_false]
            rw [List.take_append_of_le_length (by omega), List.drop_append_of_le_length (by omega)]

theorem after_more (c : Nat) (a : AsmState) (y : List Byte) (s : State) (d : Attempt) :
    after c { a with q := a.q ++ y } (more c a y s) d =
      { putAsm c (nextAsm s.cfg { a with q := a.q ++ y } d) s with evlog := s.evlog ++ decided c s d } := by
  have : decided c (more c a y s) d = decided c s d := by cases d <;> rfl
  simp only [after, this]
  simp [more, putAsm]

/-- What was extracted before more bytes came is what is extracted when they are there from the start (R161). -/
theorem settles_append (c : Nat) (a : AsmState) (y : List Byte) (s t u : State) (b : AsmState) (hc : configOk s.cfg = true)
    (ha : s.asm[c]? = some a) (hok : AsmShape s.cfg a) (h : Settles c s t) (hb : t.asm[c]? = some b)
    (k : Settles c (more c b y t) u) : Settles c (more c a y s) u := by
  obtain ⟨n, h⟩ := h
  induction n generalizing a s with
  | zero => cases h
  | succ n ih =>
    rw [extractLoop_succ n c a s hc ha hok] at h
    have hl := ((configOk_iff s.cfg).1 hc).2.1
    have happ := attempt_append s.cfg a y hc hok
    have hs := nextAsm_shape s.cfg a hc hok
    have hv := after_asm c a s (attempt s.cfg a) ha
    have hm : (more c a y s).asm[c]? = some { a with q := a.q ++ y } := getElem?_putAsm c a _ s ha
    have hmok : AsmShape (more c a y s).cfg { a with q := a.q ++ y } := hok.append hl y
    have key := settles_iff c _ (more c a y s) u hc hm hmok
    have hcfg : (more c a y s).cfg = s.cfg := rfl
    rw [hcfg] at key
    cases hd : attempt s.cfg a with
    | wait =>
      rw [hd] at h hv
      simp only [Flow.ok.injEq, true_and] at h
      subst h
      have e : after c a s .wait = s := by simp [after, nextAsm, decided, putAsm_self c a s ha]
      rw [e, ha] at hb
      cases hb
      rwa [e] at k
    | await m =>
      rw [hd] at h hv hs happ
      simp only [Flow.ok.injEq, true_and] at h
      subst h
      rw [hv] at hb
      cases hb
      have happ : attempt s.cfg { a with q := a.q ++ y } = _ := happ
      have haw : AsmShape s.cfg { nextAsm s.cfg a (.await m) with q := (nextAsm s.cfg a (.await m)).q ++ y } :=
        AsmShape.append hs hl y
      have kk := (settles_iff c _ (more c (nextAsm s.cfg a (.await m)) y (after c a s (.await m))) u hc
        (getElem?_putAsm c _ _ _ hv) haw).1 k
      have e : more c (nextAsm s.cfg a (.await m)) y (after c a s (.await m)) =
          putAsm c (awaitAsm s.cfg (a.q ++ y) m) s := by
        simp [more, after, nextAsm, decided, awaitAsm, putAsm]
      have hd2 : attempt s.cfg { nextAsm s.cfg a (.await m) with q := (nextAsm s.cfg a (.await m)).q ++ y } =
          if (a.q ++ y).length < s.cfg.baseLen + m then .wait
          else .take ((a.q ++ y).take (s.cfg.baseLen + m)) ((a.q ++ y).drop (s.cfg.baseLen + m)) := by
        simp [attempt, nextAsm, awaitAsm]
      rw [e] at kk
      have hcfg2 : (putAsm c (awaitAsm s.cfg (a.q ++ y) m) s).cfg = s.cfg := rfl
      rw [hcfg2, hd2] at kk
      rw [key, happ]
      by_cases hx : (a.q ++ y).length < s.cfg.baseLen + m
      · simp only [hx, if_true] at kk ⊢
        rw [kk, after_more]
        simp [after, nextAsm, decided, awaitAsm, putAsm]
      · simp only [hx, if_false] at kk ⊢
        rw [after_more]
        have e2 : after c { nextAsm s.cfg a (.await m) with q := (nextAsm s.cfg a (.await m)).q ++ y }
            (putAsm c (awaitAsm s.cfg (a.q ++ y) m) s)
            (.take ((a.q ++ y).take (s.cfg.baseLen + m)) ((a.q ++ y).drop (s.cfg.baseLen + m))) =
            { putAsm c (idleAsm ((a.q ++ y).drop (s.cfg.baseLen + m))) s with
              evlog := s.evlog ++ [windowEvent c ((a.q ++ y).take (s.cfg.baseLen + m)) s] } := by
          have : windowEvent c ((a.q ++ y).take (s.cfg.baseLen + m)) (putAsm c (awaitAsm s.cfg (a.q ++ y) m) s) =
            windowEvent c ((a.q ++ y).take (s.cfg.baseLen + m)) s := rfl
          simp only [after, nextAsm, decided, this]
          simp [putAsm]
        rw [e2] at kk
        exact kk
    | oversize m => rw [hd] at h; cases h
    | drop j x d q =>
      rw [hd] at h hv hs happ
      have happ : attempt s.cfg { a with q := a.q ++ y } = _ := happ
      rw [key, happ]
      have := ih _ (after c a s (.drop j x d q)) hc hv hs h
      have e : more c (nextAsm s.cfg a (.drop j x d q)) y (after c a s (.drop j x d q)) =
          after c { a with q := a.q ++ y } (more c a y s) (.drop j x d (q ++ y)) := by
        rw [after_more]
        simp [more, after, nextAsm, decided, idleAsm, putAsm]
      rwa [e] at this
    | take w q =>
      rw [hd] at h hv hs happ
      have happ : attempt s.cfg { a with q := a.q ++ y } = _ := happ
      rw [key, happ]
      have := ih _ (after c a s (.take w q)) hc hv hs h
      have e : more c (nextAsm s.cfg a (.take w q)) y (after c a s (.take w q)) =
          after c { a with q := a.q ++ y } (more c a y s) (.take w (q ++ y)) := by
        rw [after_more]
        simp [more, after, nextAsm, decided, idleAsm, putAsm]
      rwa [e] at this

/-! ### The CAN instance -/

/-- CAN instance: the decision from rest. -/
theorem attempt_can (c : Config) (hk : configOk c = true) (hc : CanInstance c) (d : Byte) (q : List Byte) :
    attempt c { q := d :: q } =
      if q.length < 15 then .wait
      else if d = c.head then .take ((d :: q).take 16) ((d :: q).drop 16)
      else .drop 0 d d q := by
  obtain ⟨h1, h2, h3⟩ := hc
  obtain ⟨_, _, _, h4, _⟩ := (configOk_iff c).1 hk
  rw [h1] at h4
  unfold attempt
  rw [h1, h2, h3]
  by_cases hl : q.length < 15
  · simp [hl]
  · have : ¬ (d :: q).length < 16 + 0 := by simp; omega
    simp only [hl, this, if_false, Bool.false_eq_true]
    by_cases hd : d = c.head
    · subst hd
      have : matchHeader (c.head :: q) 0 [c.head] = .matched := by simp [matchHeader, peek]
      simp only [this, resolve]
      have hx : extraOf none = 0 := rfl
      rw [hx]
      unfold attemptSized
      rw [h1]
      have hr : ¬ c.rxqCap < 16 + 0 := by omega
      have hq : ¬ (c.head :: q).length < 16 + 0 := by simp; omega
      rw [if_neg hr, if_neg hq]
      simp
    · have : matchHeader (d :: q) 0 [c.head] = .mismatch 0 d := by simp [matchHeader, peek, hd]
      simp [this, hd]

/-- An assembler at rest is well shaped. -/
theorem asmShape_idle (c : Config) (q : List Byte) : AsmShape c { q := q } := ⟨by simp, .inl ⟨rfl, rfl, rfl⟩⟩

/-- A window with the head byte is taken whole. -/
theorem settles_take (c : Nat) (w : Bytes 16) (q : List Byte) (s t : State) (hk : configOk s.cfg = true)
    (hc : CanInstance s.cfg) (ha : s.asm[c]? = some { q := w.toList ++ q }) (hw : w[0] = s.cfg.head) :
    Settles c s t ↔ Settles c { putAsm c { q := q } s with evlog := s.evlog ++ [match verifyFrame s.cfg w with
        | .invalid r => .badFrame c r
        | .valid g => dispatchEvent c g s.ft] } t := by
  rw [settles_iff c _ s t hk ha (asmShape_idle _ _)]
  have hd : attempt s.cfg { q := w.toList ++ q } = .take w.toList q := by
    have e : w.toList ++ q = w[0] :: (w.toList ++ q).tail := by
      conv_lhs => rw [toList_eq w]
      conv_rhs => rw [toList_eq w]
      rfl
    rw [e, attempt_can _ hk hc, if_neg (by simp), if_pos hw, ← e]
    rw [List.take_append_of_le_length (by simp), List.drop_append_of_le_length (by simp)]
    rw [List.take_of_length_le (by simp), List.drop_of_length_le (by simp)]
    rfl
  rw [hd]
  have e := windowEvent_of c w.toList w s (List.take_of_length_le (by simp))
  have : after c { q := w.toList ++ q } s (.take w.toList q) =
      { putAsm c { q := q } s with evlog := s.evlog ++ [match verifyFrame s.cfg w with
        | .invalid r => .badFrame c r
        | .valid g => dispatchEvent c g s.ft] } :=
    congrArg (fun x => { putAsm c { q := q } s with evlog := s.evlog ++ [x] }) e
  rw [this]

/-- A short queue waits. -/
theorem settles_wait (c : Nat) (q : List Byte) (s : State) (hk : configOk s.cfg = true) (hc : CanInstance s.cfg)
    (ha : s.asm[c]? = some { q := q }) (hq : q.length < 16) : Settles c s s := by
  rw [settles_iff c _ s s hk ha (asmShape_idle _ _)]
  have : attempt s.cfg { q := q } = .wait := by
    unfold attempt
    rw [hc.1, if_pos (by simpa using hq)]
  rw [this]
  simp [after, nextAsm, decided, putAsm_self c _ s ha]

/-- A byte that is not HEAD is dropped. -/
theorem settles_drop (c : Nat) (d : Byte) (q : List Byte) (s t : State) (hk : configOk s.cfg = true) (hc : CanInstance s.cfg)
    (ha : s.asm[c]? = some { q := d :: q }) (hd : d ≠ s.cfg.head) (hq : 15 ≤ q.length) :
    Settles c s t ↔ Settles c { putAsm c { q := q } s with evlog := s.evlog ++ [.corrupt c 0 d d] } t := by
  rw [settles_iff c _ s t hk ha (asmShape_idle _ _), attempt_can _ hk hc, if_neg (by omega), if_neg hd]
  rfl

end Sys2Proof.Machine
end

