-- ==== Sys2Proof/Laws/Internal.lean ====
section
/-! SUPPORT. F_INTERNAL is raised only where R13, R58 and R77 say that a model must raise it: no step from a state that meets
the invariants raises it, under any configuration (R245: "the rules never do these"), and in no state does FEED's loop run
out of attempts (R157). -/

namespace Sys2Proof.Machine

/-! ### FEED's loop ends by itself, in every state -/

theorem resync_progress (c k : Nat) (a : AsmState) (b : Byte) (s t : State) (r : Extracted) (ha : s.asm[c]? = some a)
    (h : resync c a k b s = .ok r t) : t.cfg = s.cfg ∧ ∃ b, t.asm[c]? = some b ∧ b.q.length < a.q.length := by
  unfold resync at h
  split at h
  · next d q _ hq =>
    cases h
    obtain ⟨⟨l, q'⟩, hd, hq⟩ := Option.map_eq_some_iff.1 hq
    cases hq
    obtain ⟨h1, _, rfl⟩ := (deq_eq_some_iff _ _ _ _).1 hd
    exact ⟨rfl, _, getElem?_putAsm c a _ s ha, by simp [idleAsm]; omega⟩
  · cases h

theorem completeFrame_progress (c : Nat) (a : AsmState) (s t : State) (r : Extracted) (hb : 1 ≤ s.cfg.baseLen) (d : AsmState)
    (ha : s.asm[c]? = some d) (h : completeFrame c a s = .ok r t) :
    t.cfg = s.cfg ∧ ∃ b, t.asm[c]? = some b ∧ b.q.length < a.q.length := by
  unfold completeFrame at h
  split at h
  · cases h
  · next w q hd =>
    obtain ⟨h1, _, rfl⟩ := (deq_eq_some_iff _ _ _ _).1 hd
    unfold canFramecb at h
    split at h
    · cases h
    · have hx := getElem?_putAsm c d (idleAsm (a.q.drop (s.cfg.baseLen + a.extra))) s ha
      split at h
      · cases h; exact ⟨rfl, _, hx, by simp [idleAsm]; omega⟩
      · cases h; exact ⟨rfl, _, hx, by simp [idleAsm]; omega⟩

/-- An attempt that does not end the loop takes at least one byte (R157). -/
theorem extract_progress (c : Nat) (a : AsmState) (s t : State) (r : Extracted) (hb : 1 ≤ s.cfg.baseLen)
    (ha : s.asm[c]? = some a) (h : extract c s = .ok r t) (hr : r ≠ .incomplete) :
    t.cfg = s.cfg ∧ ∃ b, t.asm[c]? = some b ∧ b.q.length < a.q.length := by
  unfold extract at h
  rw [ha] at h
  dsimp only at h
  split at h
  · cases h
  · split at h
    · cases h; exact absurd rfl hr
    · split at h
      · cases h
      · exact resync_progress _ _ _ _ _ _ _ ha h
      · unfold afterHeader at h
        dsimp only at h
        split at h
        · exact completeFrame_progress _ _ _ _ _ hb a ha h
        · split at h
          · cases h
          · split at h
            · cases h
            · split at h
              · cases h
              · split at h
                · cases h; exact absurd rfl hr
                · have hp := completeFrame_progress _ _ _ _ _ (by exact hb) _ (getElem?_putAsm c a _ s ha) h
                  exact hp

/-- FEED's loop never runs out of attempts: `COUNT(q) + 1` of them are enough in every state (R157). -/
theorem extractLoop_bound (n c : Nat) (a : AsmState) (s : State) (hb : 1 ≤ s.cfg.baseLen) (ha : s.asm[c]? = some a)
    (hn : a.q.length < n) : extractLoop (n + 1) c s = extractLoop n c s := by
  induction n generalizing a s with
  | zero => omega
  | succ n ih =>
    conv_lhs => unfold extractLoop
    conv_rhs => unfold extractLoop
    cases he : extract c s with
    | stop k t => rfl
    | ok r t =>
      cases r with
      | incomplete => rfl
      | corrupt =>
        obtain ⟨h1, b, h2, h3⟩ := extract_progress c a s t _ hb ha he (by simp)
        exact ih b t (by rw [h1]; exact hb) h2 (by omega)
      | complete =>
        obtain ⟨h1, b, h2, h3⟩ := extract_progress c a s t _ hb ha he (by simp)
        exact ih b t (by rw [h1]; exact hb) h2 (by omega)

/-! ### No step from a state that meets the invariants raises F_INTERNAL -/

/-- A channel in range has its assembler, in a stable state (R36, R38). -/
theorem AsmInv.get {s : State} (h : AsmInv s) {c : Nat} (hc : c < s.cfg.nChan) : ∃ a, s.asm[c]? = some a ∧ AsmOk s.cfg a := by
  have ha : s.asm[c]? = some (s.asm[c]'(by have := h.1; omega)) := List.getElem?_eq_getElem _
  exact ⟨_, ha, h.2 _ (List.mem_of_getElem? ha)⟩

theorem extract_not_internal (c : Nat) (s t : State) (hc : configOk s.cfg = true) (hi : AsmInv s) (hn : c < s.cfg.nChan) :
    extract c s ≠ .stop .internal t := by
  obtain ⟨a, ha, hok⟩ := hi.get hn
  rw [extract_eq c a s hc ha hok.shape]
  cases attempt s.cfg a <;> simp [runAttempt]

theorem feed_not_internal (c : Nat) (b : List Byte) (s t : State) (hc : configOk s.cfg = true) (hi : AsmInv s)
    (hn : c < s.cfg.nChan) : feed c b s ≠ .stop .internal t := by
  obtain ⟨a, ha, hok⟩ := hi.get hn
  by_cases hb : a.q.length + b.length ≤ s.cfg.rxqCap
  · rw [feed_fits c a b s ha hb]
    rcases extractLoop_ends _ c _ (putAsm c { a with q := a.q ++ b } s) hc (getElem?_putAsm c a _ s ha)
      (hok.shape.append (((configOk_iff s.cfg).1 hc).2.1) b) (Nat.lt_succ_self _) with ⟨u, _, hu, _⟩ | ⟨u, _, hu, _⟩ <;>
      rw [hu] <;> simp
  · rw [feed_overfull c a b s ha hok.2.1 (by omega)]
    simp

theorem judgeRx_not_internal (w : Bytes 16) (s t : State) (hc : configOk s.cfg = true) (hi : AsmInv s) :
    judgeRx w s ≠ .stop .internal t := by
  unfold judgeRx discardRx
  split
  · simp
  · next f _ =>
    split
    · simp
    · split
      · simp
      · next hn =>
        have hf := fun t => feed_not_internal f.chan.toNat w.toList s t hc hi (by omega)
        cases h : feed f.chan.toNat w.toList s with
        | ok r u => simp
        | stop k u =>
          rw [h] at hf
          simp only [ne_eq, Flow.stop.injEq, not_and] at hf ⊢
          exact fun hk => absurd rfl (hf u hk)

/-- No body that is performed in a state that meets the invariants raises F_INTERNAL (R13, R58, R77). -/
theorem body_not_internal (i : Instr) (s t : State) (hc : configOk s.cfg = true) (hi : Inv s) (hr : runnable i s) :
    body i s ≠ .stop .internal t := by
  obtain ⟨_, ha, _, ⟨_, _, _, _, l5, l6⟩, _⟩ := hi
  cases i
  case write f ch => show writeFrame f ch s ≠ _; unfold writeFrame; split <;> simp
  case register => show registerEntry _ s ≠ _; unfold registerEntry; split <;> simp
  case feed ch b => exact feed_not_internal _ _ _ _ hc ha ((chanDomain_iff _ _).1 hr.2.2)
  case tickTop =>
    show tickTop s ≠ _
    unfold tickTop
    split
    · simp
    · split <;> simp
  case tickXfer =>
    have h := (phaseEnabled_iff _ _).1 hr.2
    obtain ⟨b1, b2⟩ := l5 h.2 h.1
    obtain ⟨x, hx⟩ := Option.isSome_iff_exists.1 b1
    obtain ⟨y, hy⟩ := Option.isSome_iff_exists.1 b2
    simp [body, tickXfer, hx, hy]
  case tickRx =>
    have h := (phaseEnabled_iff _ _).1 hr.2
    obtain ⟨x, hx⟩ := Option.isSome_iff_exists.1 (l6 h.2 h.1)
    simp only [body, tickRx, hx]
    exact judgeRx_not_internal _ _ _ hc ha
  case tickDecide => show tickDecide s ≠ _; unfold tickDecide; split <;> simp
  case extract ch =>
    have h := fun t => extract_not_internal ch.toNat s t hc ha ((chanDomain_iff _ _).1 hr.2.2)
    cases he : extract ch.toNat s with
    | ok r u => simp [body, he, Flow.map]
    | stop k u =>
      rw [he] at h
      simp only [ne_eq, Flow.stop.injEq, not_and] at h
      simp only [body, he, Flow.map, ne_eq, Flow.stop.injEq, not_and]
      exact fun hk => absurd rfl (h u hk)
  case framecb ch w =>
    have hw : s.cfg.baseLen ≤ w.length := (windowDomain_iff _ _).1 (Bool.and_eq_true _ _ ▸ hr.2.2).2
    have h16 := ((configOk_iff _).1 hc).2.2.1
    simp [body, canFramecb_eq _ _ _ (by omega : 16 ≤ w.length), Flow.map]
  case wfData => exact judgeRx_not_internal _ _ _ hc ha
  case wfRemote => exact judgeRx_not_internal _ _ _ hc ha
  case wfIdle => exact judgeRx_not_internal _ _ _ hc ha
  all_goals first | exact hr.elim | simp [body, initWith, closeJoin]

theorem Effect.faults_eq {s v : State} (h : Effect s v) : v.faults = s.faults := by
  have af : ∀ c t, AsmFrame c s t → t.faults = s.faults := by
    intro c t h
    rw [h.1]
  cases h
  case feed c b _ _ => exact af c _ (feed_frame _ _ _)
  case extract c _ _ => exact af c _ (extract_frame _ _)
  case framecb c w _ _ => exact af c _ (canFramecb_frame _ _ _ _)
  case routed c w r x _ _ _ hf => exact af c x (feed_ok_frame hf)
  case routedFault c w k _ _ _ hf => exact af c _ (feed_stop_frame hf)
  case init ok _ _ _ => cases ok <;> rfl
  case xfer tx k a l n _ _ _ _ => cases a <;> rfl
  all_goals rfl

/-- No step from a state that meets the invariants records F_INTERNAL, under any configuration (R245). -/
theorem step_not_internal (s t : State) (hi : Inv s) (h : step s = .next t) (hf : .internal ∈ t.faults) :
    .internal ∈ s.faults := by
  obtain ⟨u, ⟨l, a, n, rfl⟩, h⟩ := step_next s t h
  rcases h with rfl | ⟨r, rfl⟩ | ⟨i, b, _, hs, hr, hp⟩
  · exact hf
  · exact hf
  · have he := body_effect i _ hr
    have hn := fun v => body_not_internal i { s with inbox := l, issuer := a, draws := n } v hs.2.1 hi hr
    rcases hp with ⟨r, v, hb, rfl⟩ | ⟨k, v, hb, rfl⟩ <;> rw [hb] at he hn
    · have : v.faults = s.faults := he.faults_eq
      exact this ▸ hf
    · have hv : v.faults = s.faults := he.faults_eq
      rcases mem_of_mem_setInsert faultKey _ _ _ hf with h | h
      · subst h; exact absurd rfl (hn v)
      · exact hv ▸ h

end Sys2Proof.Machine
end

