-- ==== Sys2Proof/Laws/PerInstr.lean ====
section
/-! SUPPORT. Statements about every instruction as syntax, one lemma for each constructor. -/

namespace Sys2Proof.Laws.CommandByte

/-- The encoding of a command starts with a command byte whose bits 7..5 are 0 (spec rule R113); the encoding of a WireFrame is
16 bytes (R100). -/
def Statement (i : Instr) : Prop :=
  (i.space = .command → ∃ b l, encode i = b :: l ∧ commandByteOk b = true) ∧ (i.space = .link → (encode i).length = 16)

/-- The law for a command, from its first byte. -/
theorem of_command (i : Instr) (b : Byte) (l : List Byte) (hs : i.space = .command) (he : encode i = b :: l)
    (hb : commandByteOk b = true) : Statement i :=
  ⟨fun _ => ⟨b, l, he, hb⟩, fun h => absurd (hs.symm.trans h) (by decide)⟩

/-- The law for a WireFrame, from its bytes. -/
theorem of_link (i : Instr) (w : Bytes 16) (hs : i.space = .link) (he : encode i = w.toList) : Statement i :=
  ⟨fun h => absurd (hs.symm.trans h) (by decide), fun _ => by rw [he]; exact w.size_toArray⟩

theorem init (dev : Ref) : Statement (.init dev) := of_command _ _ _ rfl rfl (by decide)
theorem close : Statement .close := of_command _ _ _ rfl rfl (by decide)
theorem getdesc : Statement .getdesc := of_command _ _ _ rfl rfl (by decide)
theorem write (f : CanFrame) (ch : Byte) : Statement (.write f ch) := of_command _ _ _ rfl rfl (by decide)
theorem register (p m : Word) (e : Bool) (cb ctx : Ref) : Statement (.register p m e cb ctx) := of_command _ _ _ rfl rfl (by decide)
theorem feed (ch : Byte) (b : List Byte) : Statement (.feed ch b) := of_command _ _ _ rfl rfl (by decide)
theorem cksum (b : List Byte) : Statement (.cksum b) := of_command _ _ _ rfl rfl (by decide)
theorem encode (f : CanFrame) (ch : Byte) : Statement (.encode f ch) := of_command _ _ _ rfl rfl (by decide)
theorem verify (b : List Byte) : Statement (.verify b) := of_command _ _ _ rfl rfl (by decide)
theorem tickTop : Statement .tickTop := of_command _ _ _ rfl rfl (by decide)
theorem tickXfer : Statement .tickXfer := of_command _ _ _ rfl rfl (by decide)
theorem tickRx : Statement .tickRx := of_command _ _ _ rfl rfl (by decide)
theorem tickDecide : Statement .tickDecide := of_command _ _ _ rfl rfl (by decide)
theorem tickSleep : Statement .tickSleep := of_command _ _ _ rfl rfl (by decide)
theorem closeJoin : Statement .closeJoin := of_command _ _ _ rfl rfl (by decide)
theorem extract (ch : Byte) : Statement (.extract ch) := of_command _ _ _ rfl rfl (by decide)
theorem framecb (ch : Byte) (w : List Byte) : Statement (.framecb ch w) := of_command _ _ _ rfl rfl (by decide)
theorem dispatch (ch : Byte) (f : DecFrame) : Statement (.dispatch ch f) := of_command _ _ _ rfl rfl (by decide)
theorem reserved00 : Statement .reserved00 := of_command _ _ _ rfl rfl (by decide)
theorem reserved0A : Statement .reserved0A := of_command _ _ _ rfl rfl (by decide)
theorem reserved0B : Statement .reserved0B := of_command _ _ _ rfl rfl (by decide)
theorem reserved0C : Statement .reserved0C := of_command _ _ _ rfl rfl (by decide)
theorem reserved0D : Statement .reserved0D := of_command _ _ _ rfl rfl (by decide)
theorem reserved0E : Statement .reserved0E := of_command _ _ _ rfl rfl (by decide)
theorem reserved0F : Statement .reserved0F := of_command _ _ _ rfl rfl (by decide)
theorem reserved19 : Statement .reserved19 := of_command _ _ _ rfl rfl (by decide)
theorem reserved1A : Statement .reserved1A := of_command _ _ _ rfl rfl (by decide)
theorem reserved1B : Statement .reserved1B := of_command _ _ _ rfl rfl (by decide)
theorem reserved1C : Statement .reserved1C := of_command _ _ _ rfl rfl (by decide)
theorem reserved1D : Statement .reserved1D := of_command _ _ _ rfl rfl (by decide)
theorem reserved1E : Statement .reserved1E := of_command _ _ _ rfl rfl (by decide)
theorem reserved1F : Statement .reserved1F := of_command _ _ _ rfl rfl (by decide)
theorem wfData (f : WireFields) : Statement (.wfData f) := of_link _ _ rfl rfl
theorem wfRemote (f : WireFields) : Statement (.wfRemote f) := of_link _ _ rfl rfl
theorem wfIdle (ch : Bool) : Statement (.wfIdle ch) := of_link _ _ rfl rfl

end Sys2Proof.Laws.CommandByte
end

