-- ==== Sys2Proof/Machine/Text.lean ====
section
/-! DEFINITION. The one-line text of an operation (spec rule R118): the mnemonic, then `name=value` pairs. No step reads it. -/

namespace Sys2Proof.Machine

/-- A number in hexadecimal with `0x` (R118). -/
def hexText (n : Nat) : String := "0x" ++ String.ofList (Nat.toDigits 16 n)

/-- A number in decimal. -/
def decText (n : Nat) : String := String.ofList (Nat.toDigits 10 n)

/-- A bit as 0 or 1. -/
def bitText (b : Bool) : String := if b then "1" else "0"

/-- A byte sequence as `[b0, b1, ...]` (R118). -/
def seqText (l : List Byte) : String := "[" ++ String.intercalate ", " (l.map fun b => hexText b.toNat) ++ "]"

/-- One `name=value` pair (R118). -/
def pairText (name value : String) : String := name ++ "=" ++ value

/-- A line: the mnemonic, then its pairs separated by commas (R118). -/
def lineText (mnemonic : String) (pairs : List String) : String :=
  match pairs with
  | [] => mnemonic
  | _ => mnemonic ++ " " ++ String.intercalate ", " pairs

/-- The fields of a CanFrame operand, inline (R118). -/
def canFramePairs (f : CanFrame) : List String :=
  [pairText "id" (hexText f.id.toNat), pairText "dlc" (decText f.dlc.toNat), pairText "ext" (bitText f.ext),
   pairText "rem" (bitText f.rem), pairText "data" (seqText f.payload.toList)]

/-- The fields of a DecFrame operand, inline; `from` is its own channel bit, beside the `chan` operand. -/
def decFramePairs (f : DecFrame) : List String :=
  [pairText "id" (hexText f.id.toNat), pairText "dlc" (decText f.dlc.toNat), pairText "ext" (bitText f.ext),
   pairText "rem" (bitText f.rem), pairText "data" (seqText f.payload.toList), pairText "from" (bitText f.chan)]

/-- The fields of a WireFrame row, inline. -/
def wirePairs (f : WireFields) : List String :=
  [pairText "id" (hexText f.id.toNat), pairText "dlc" (decText f.dlc.toNat), pairText "ext" (bitText f.ext),
   pairText "chan" (bitText f.chan), pairText "rsv" (bitText f.rsv), pairText "data" (seqText f.payload.toList),
   pairText "cksum" (hexText f.csum.toNat)]

/-- A channel operand. -/
def chanPair (c : Byte) : String := pairText "chan" (decText c.toNat)

/-- The line of an operation (R118). -/
def asmText : Instr → String
  | .init dev => lineText "INIT" [pairText "dev" (hexText dev.toNat)]
  | .close => lineText "CLOSE" []
  | .getdesc => lineText "GETDESC" []
  | .write f ch => lineText "WRITE" (canFramePairs f ++ [chanPair ch])
  | .register p m e cb ctx =>
    lineText "REGISTER" [pairText "pattern" (hexText p.toNat), pairText "mask" (hexText m.toNat), pairText "ext" (bitText e),
      pairText "cb" (hexText cb.toNat), pairText "ctx" (hexText ctx.toNat)]
  | .feed ch b => lineText "FEED" [chanPair ch, pairText "bytes" (seqText b)]
  | .cksum b => lineText "CKSUM" [pairText "bytes" (seqText b)]
  | .encode f ch => lineText "ENCODE" (canFramePairs f ++ [chanPair ch])
  | .verify b => lineText "VERIFY" [pairText "bytes" (seqText b)]
  | .tickTop => lineText "TICK.TOP" []
  | .tickXfer => lineText "TICK.XFER" []
  | .tickRx => lineText "TICK.RX" []
  | .tickDecide => lineText "TICK.DECIDE" []
  | .tickSleep => lineText "TICK.SLEEP" []
  | .closeJoin => lineText "CLOSE.JOIN" []
  | .extract ch => lineText "EXTRACT" [chanPair ch]
  | .framecb ch w => lineText "FRAMECB" [chanPair ch, pairText "bytes" (seqText w)]
  | .dispatch ch f => lineText "DISPATCH" (chanPair ch :: decFramePairs f)
  | .reserved00 => lineText "reserved_0x00" []
  | .reserved0A => lineText "reserved_0x0A" []
  | .reserved0B => lineText "reserved_0x0B" []
  | .reserved0C => lineText "reserved_0x0C" []
  | .reserved0D => lineText "reserved_0x0D" []
  | .reserved0E => lineText "reserved_0x0E" []
  | .reserved0F => lineText "reserved_0x0F" []
  | .reserved19 => lineText "reserved_0x19" []
  | .reserved1A => lineText "reserved_0x1A" []
  | .reserved1B => lineText "reserved_0x1B" []
  | .reserved1C => lineText "reserved_0x1C" []
  | .reserved1D => lineText "reserved_0x1D" []
  | .reserved1E => lineText "reserved_0x1E" []
  | .reserved1F => lineText "reserved_0x1F" []
  | .wfData f => lineText "WF.DATA" (wirePairs f)
  | .wfRemote f => lineText "WF.REMOTE" (wirePairs f)
  | .wfIdle ch => lineText "WF.IDLE" [pairText "chan" (bitText ch)]

end Sys2Proof.Machine
end

