-- ==== Sys2Proof/Tests/Slice0.lean ====
section
/-! SUPPORT. Tests of the model: ill-formed operands are refused, words written out from the spec's tables decode, and vectors of
`spec/95_test_vectors.md` (named in each comment) give what the spec says. Each runs one operation on a small state. -/

namespace Sys2Proof.Tests

open Sys2Proof.Machine

set_option Elab.async false

/-! ### Helpers -/

/-- Does an outcome go on, to a state with `p`? -/
def goes (o : Host.Outcome State Fault Refusal) (p : State → Bool) : Bool :=
  match o with
  | .next t => p t
  | .fault _ => false
  | .refused _ => false

/-- The block right after a successful INIT (section 2.6 of the vectors), its Worker at phase `p`. -/
def linked (p : Phase) : State := { State.reset with life := .running, ls := .draining, ph := p }

/-- An agent at the command port. -/
def byPort (a : Agent) (s : State) : State := { s with issuer := .port a }

/-- A command by the Controller on a block that is not running. -/
def idle : State := byPort .controller State.reset

/-- A filter entry without a use for its other fields. -/
def entry (p m : Word) (cb ctx : Ref) : FilterEntry := { pattern := p, mask := m, ext := false, cb := cb, ctx := ctx }

/-- Two slots used. -/
def withTwo (x y : FilterEntry) (s : State) : State := { s with ft := (s.ft.set 0 (some x)).set 1 (some y) }

/-- All slots used. -/
def withAll (x : FilterEntry) (s : State) : State := { s with ft := List.replicate 128 (some x) }

/-- Bytes in the queue of `asm[0]`. -/
def holding (q : List Byte) (s : State) : State := { s with asm := [{ q := q }] }

/-- Section 0's named frames. -/
def wA : Bytes 16 := #v[0x7E, 0x04, 0x23, 0x01, 0x00, 0x00, 0x01, 0x02, 0x03, 0x04, 0x00, 0x00, 0x00, 0x00, 0x7D, 0x21]
def wB : Bytes 16 := #v[0x7E, 0x02, 0xE5, 0x07, 0x00, 0x00, 0xAA, 0x55, 0x00, 0x00, 0x00, 0x00, 0x00, 0x00, 0x7D, 0x1C]
def wC : Bytes 16 := #v[0x7E, 0x48, 0xFF, 0x07, 0x00, 0x00, 0x11, 0x22, 0x33, 0x44, 0x55, 0x66, 0x77, 0x88, 0x7D, 0x3B]
def wQ : Bytes 16 := #v[0x7E, 0x41, 0x00, 0x01, 0x00, 0x00, 0x7E, 0x00, 0x00, 0x00, 0x00, 0x00, 0x00, 0x00, 0x7D, 0x3D]
def wRM : Bytes 16 := #v[0x7E, 0x10, 0xE5, 0x07, 0x00, 0x00, 0x00, 0x00, 0x00, 0x00, 0x00, 0x00, 0x00, 0x00, 0x7D, 0xF1]
def wS0 : Bytes 16 := #v[0x00, 0x00, 0x00, 0x00, 0x00, 0x00, 0x00, 0x00, 0x00, 0x00, 0x00, 0x00, 0x00, 0x00, 0x00, 0x00]
def wS1 : Bytes 16 := #v[0x00, 0x40, 0x00, 0x00, 0x00, 0x00, 0x00, 0x00, 0x00, 0x00, 0x00, 0x00, 0x00, 0x00, 0x00, 0x00]

/-- The CanFrames behind `A`, `B` and `C`. -/
def fA : CanFrame := { id := 0x123, dlc := 4, ext := false, rem := false, payload := #v[1, 2, 3, 4, 0, 0, 0, 0] }
def fB : CanFrame := { id := 0x7E5, dlc := 2, ext := false, rem := false, payload := #v[0xAA, 0x55, 0, 0, 0, 0, 0, 0] }
def fC : CanFrame :=
  { id := 0x7FF, dlc := 8, ext := false, rem := false, payload := #v[0x11, 0x22, 0x33, 0x44, 0x55, 0x66, 0x77, 0x88] }

/-- What VERIFY gives for `A`, `B` and `C` (V1, A16, P1). -/
def dA : DecFrame :=
  { id := 0x123, dlc := 4, ext := false, rem := false, payload := #v[1, 2, 3, 4, 0, 0, 0, 0], chan := false }
def dB : DecFrame :=
  { id := 0x7E5, dlc := 2, ext := false, rem := false, payload := #v[0xAA, 0x55, 0, 0, 0, 0, 0, 0], chan := false }

/-- The fields of `B`, `RM` and a data frame whose checksum is wrong. -/
def xB : WireFields := ⟨false, false, false, 2, 0x7E5, #v[0xAA, 0x55, 0, 0, 0, 0, 0, 0], 0x1C⟩
def xRM : WireFields := ⟨false, false, false, 0, 0x7E5, #v[0, 0, 0, 0, 0, 0, 0, 0], 0xF1⟩

/-! ### WellFormed refuses an ill-formed term for each of its checks -/

theorem test_wellFormed_dlc : Instr.wellFormed {} (.write { fA with dlc := 9 } 0) = false := by decide
theorem test_wellFormed_chan : Instr.wellFormed {} (.encode fA 2) = false := by decide
theorem test_wellFormed_cb : Instr.wellFormed {} (.register 0 0 false 0 0) = false := by decide
theorem test_wellFormed_feed : Instr.wellFormed {} (.feed 1 []) = false := by decide
theorem test_wellFormed_cksum : Instr.wellFormed {} (.cksum (List.replicate 14 0)) = false := by decide
theorem test_wellFormed_verify : Instr.wellFormed {} (.verify (List.replicate 15 0)) = false := by decide
theorem test_wellFormed_extract : Instr.wellFormed {} (.extract 1) = false := by decide
theorem test_wellFormed_framecb : Instr.wellFormed {} (.framecb 0 (List.replicate 15 0)) = false := by decide
theorem test_wellFormed_framecb_chan : Instr.wellFormed {} (.framecb 1 (List.replicate 16 0)) = false := by decide
theorem test_wellFormed_dispatch : Instr.wellFormed {} (.dispatch 1 dA) = false := by decide
theorem test_wellFormed_data : Instr.wellFormed {} (.wfData { xB with csum := 0x9C }) = false := by decide
theorem test_wellFormed_remote : Instr.wellFormed {} (.wfRemote { xRM with csum := 0xF0 }) = false := by decide
/-- And it takes the named frames and a channel of a two-channel block. -/
theorem test_wellFormed_takes :
    Instr.wellFormed {} (.wfData xB) = true ∧ Instr.wellFormed {} (.wfRemote xRM) = true ∧
    Instr.wellFormed { nChan := 2 } (.feed 1 []) = true ∧ Instr.wellFormed {} (.write { fA with dlc := 8 } 1) = true := by
  decide

/-! ### Decoding: a word written out for every row (R112's codes; the model's operand layout, log entry 9; R106's patterns) -/

theorem test_decode_init : decode .command [0x01, 0x11, 0, 0, 0, 0, 0, 0, 0x80] = .ok (.init 0x8000000000000011, []) := by
  decide
theorem test_decode_close : decode .command [0x02] = .ok (.close, []) := by decide
theorem test_decode_getdesc : decode .command [0x03] = .ok (.getdesc, []) := by decide
theorem test_decode_write :
    decode .command [0x04, 0x23, 0x01, 0x00, 0x00, 4, 0, 0, 1, 2, 3, 4, 0, 0, 0, 0, 1] = .ok (.write fA 1, []) := by decide
theorem test_decode_register :
    decode .command [0x05, 0xE0, 0x07, 0, 0, 0xF0, 0x07, 0, 0, 1, 0xC, 0, 0, 0, 0, 0, 0, 0, 1, 0, 0, 0, 0, 0, 0, 0] =
      .ok (.register 0x7E0 0x7F0 true 0xC 1, []) := by decide
theorem test_decode_feed : decode .command [0x06, 1, 1, 0x7E, 1, 0x00, 0] = .ok (.feed 1 [0x7E, 0x00], []) := by decide
theorem test_decode_cksum : decode .command [0x07, 1, 0x7E, 0, 0xFF] = .ok (.cksum [0x7E], [0xFF]) := by decide
theorem test_decode_encode :
    decode .command [0x08, 0x23, 0x01, 0x00, 0x00, 4, 0, 0, 1, 2, 3, 4, 0, 0, 0, 0, 0] = .ok (.encode fA 0, []) := by decide
theorem test_decode_verify : decode .command [0x09, 1, 0x7D, 1, 0x7E, 0] = .ok (.verify [0x7D, 0x7E], []) := by decide
theorem test_decode_tickTop : decode .command [0x10] = .ok (.tickTop, []) := by decide
theorem test_decode_tickXfer : decode .command [0x11] = .ok (.tickXfer, []) := by decide
theorem test_decode_tickRx : decode .command [0x12] = .ok (.tickRx, []) := by decide
theorem test_decode_tickDecide : decode .command [0x13] = .ok (.tickDecide, []) := by decide
theorem test_decode_tickSleep : decode .command [0x14] = .ok (.tickSleep, []) := by decide
theorem test_decode_closeJoin : decode .command [0x15] = .ok (.closeJoin, []) := by decide
theorem test_decode_extract : decode .command [0x16, 1] = .ok (.extract 1, []) := by decide
theorem test_decode_framecb : decode .command [0x17, 0, 1, 0x7E, 0] = .ok (.framecb 0 [0x7E], []) := by decide
theorem test_decode_dispatch :
    decode .command [0x18, 0, 0x23, 0x01, 0x00, 0x00, 4, 0, 0, 1, 2, 3, 4, 0, 0, 0, 0, 0] = .ok (.dispatch 0 dA, []) := by
  decide
theorem test_decode_reserved00 : decode .command [0x00] = .ok (.reserved00, []) := by decide
theorem test_decode_reserved0A : decode .command [0x0A] = .ok (.reserved0A, []) := by decide
theorem test_decode_reserved0B : decode .command [0x0B] = .ok (.reserved0B, []) := by decide
theorem test_decode_reserved0C : decode .command [0x0C] = .ok (.reserved0C, []) := by decide
theorem test_decode_reserved0D : decode .command [0x0D] = .ok (.reserved0D, []) := by decide
theorem test_decode_reserved0E : decode .command [0x0E] = .ok (.reserved0E, []) := by decide
theorem test_decode_reserved0F : decode .command [0x0F] = .ok (.reserved0F, []) := by decide
theorem test_decode_reserved19 : decode .command [0x19] = .ok (.reserved19, []) := by decide
theorem test_decode_reserved1A : decode .command [0x1A] = .ok (.reserved1A, []) := by decide
theorem test_decode_reserved1B : decode .command [0x1B] = .ok (.reserved1B, []) := by decide
theorem test_decode_reserved1C : decode .command [0x1C] = .ok (.reserved1C, []) := by decide
theorem test_decode_reserved1D : decode .command [0x1D] = .ok (.reserved1D, []) := by decide
theorem test_decode_reserved1E : decode .command [0x1E] = .ok (.reserved1E, []) := by decide
theorem test_decode_reserved1F : decode .command [0x1F] = .ok (.reserved1F, []) := by decide
/-- `x c e 0 dddd` = `1 1 1 0 1001` = 0xE9: every bit of the control byte, read off the pattern. -/
theorem test_decode_wfData :
    decode .link [0x7E, 0xE9, 0x78, 0x56, 0x34, 0x12, 1, 2, 3, 4, 5, 6, 7, 8, 0x7D, 0xAB] =
      .ok (.wfData ⟨true, true, true, 9, 0x12345678, #v[1, 2, 3, 4, 5, 6, 7, 8], 0xAB⟩, []) := by decide
theorem test_decode_wfRemote : decode .link wRM.toList = .ok (.wfRemote xRM, []) := by decide
theorem test_decode_wfIdle : decode .link wS1.toList = .ok (.wfIdle true, []) := by decide
/-- RF4, RF5: bits 7..5 of the command byte must be 0; bytes of no row (a wrong tail, a third sentinel) are no WireFrame. -/
theorem test_decode_refuses :
    decode .command [0x24] = .error (.opcode 0x24) ∧ decode .command [0xE7] = .error (.opcode 0xE7) ∧
    decode .link [0x7E, 0x04, 0x23, 0x01, 0, 0, 1, 2, 3, 4, 0, 0, 0, 0, 0x7C, 0x21] = .error .noFrame ∧
    decode .link [0, 0x80, 0, 0, 0, 0, 0, 0, 0, 0, 0, 0, 0, 0, 0, 0] = .error .noFrame := by decide
/-- The table's numbering: byte 0 is bits 7..0. -/
theorem test_decodeTableWord :
    decodeTableWord 8 0x02 = some .close ∧ decodeTableWord 8 0x1F = some .reserved1F ∧ decodeTableWord 8 0x24 = none ∧
    decodeTableWord 128 0x1C7D00000000000055AA000007E5027E = some (.wfData xB) ∧
    decodeTableWord 128 0x4000 = some (.wfIdle true) := by decide

/-! ### Commands -/

/-- LC1, LC2: a good INIT starts the Worker, a bad one does not. -/
theorem test_init_outcomes :
    goes (exec (.init 1) { idle with initIn := [true] }) (fun t =>
      t.answer == .ok && t.life == .running && t.ls == .draining && t.ph == .top) = true ∧
    goes (exec (.init 1) { idle with initIn := [false] }) (fun t => t.answer == .fail && t.life == .failed && t.ls == .off)
      = true := by decide +kernel
/-- LC5, LC15: a second INIT is refused, and any INIT in RAW mode. -/
theorem test_init_refused :
    goes (exec (.init 1) (byPort .controller (linked .top))) (fun t => t.answer == .refused .state && t.refused) = true ∧
    goes (exec (.init 1) { idle with cfg := { mode := .raw } }) (fun t =>
      t.answer == .refused .mode && t.life == .uninit) = true := by decide +kernel
/-- LC10, LC3: CLOSE, CLOSE again, CLOSE after a failed INIT. -/
theorem test_close :
    goes (exec .close (byPort .controller (linked .rx))) (fun t => t.answer == .none && t.shutdown && t.ph == .rx) = true ∧
    goes (exec .close { byPort .controller (linked .rx) with shutdown := true }) (fun t => t.answer == .refused .state) = true ∧
    goes (exec .close { idle with life := .failed }) (fun t => t.answer == .refused .state && !t.shutdown) = true := by
  decide +kernel
/-- LC9, LC3. -/
theorem test_getdesc :
    goes (exec .getdesc { byPort .controller (linked .top) with cfg := { desc := 77 } }) (fun t => t.answer == .desc 77) =
      true ∧
    goes (exec .getdesc idle) (fun t => t.answer == .refused .state) = true := by decide +kernel
/-- LC6: the third WRITE finds TXQ full. -/
theorem test_write_full :
    goes (exec (.write fB 0) { byPort (.producer 0) (linked .top) with cfg := { txqFrames := 2 }, txq := wA.toList })
      (fun t => t.answer == .ok && t.txq == wA.toList ++ wB.toList) = true ∧
    goes (exec (.write fC 1) { byPort (.producer 0) (linked .top) with
      cfg := { txqFrames := 2 }, txq := wA.toList ++ wB.toList })
      (fun t => t.answer == .fail && t.txq == wA.toList ++ wB.toList) = true := by decide +kernel
/-- LC7, LC8: the state check comes before the operand check. -/
theorem test_write_refused :
    goes (exec (.write { fA with dlc := 9 } 0) (byPort (.producer 0) (linked .top))) (fun t => t.answer == .refused .operand) =
      true ∧
    goes (exec (.write { fA with dlc := 9 } 0) (byPort (.producer 0) State.reset)) (fun t => t.answer == .refused .state) =
      true := by decide +kernel
/-- FL17, FL12, FL13: the lowest free slot, the last one, none. -/
theorem test_register_slots :
    goes (exec (.register 0x7E0 0x7F0 true 5 1) { idle with ft := idle.ft.set 0 (some (entry 0x7E0 0x7F0 5 1)) })
      (fun t => t.answer == .okSlot 1 && t.ft[1]? == some (some { entry 0x7E0 0x7F0 5 1 with ext := true })) = true ∧
    goes (exec (.register 127 0xFFFFFFFF false 5 127) { withAll (entry 0 1 2 3) idle with
      ft := (List.replicate 128 (some (entry 0 1 2 3))).set 127 none }) (fun t => t.answer == .okSlot 127) = true ∧
    goes (exec (.register 127 0xFFFFFFFF false 5 127) (withAll (entry 0 1 2 3) idle))
      (fun t => t.answer == .fail && t.ft == (withAll (entry 0 1 2 3) idle).ft) = true := by decide +kernel
/-- Commands of another agent, and of none, are held (R6, R112; log entry 26); a Producer may take a checksum. -/
theorem test_commands_of_another_agent :
    goes (exec (.init 1) (byPort (.producer 0) State.reset)) (fun t => t.answer == .held && t.life == .uninit) = true ∧
    goes (exec .close (linked .rx)) (fun t => t.answer == .held && !t.shutdown) = true ∧
    goes (exec (.feed 0 wA.toList) (linked .rx)) (fun t => t.answer == .held && t.evlog == []) = true ∧
    goes (exec (.write fA 0) (byPort .controller (linked .top))) (fun t => t.answer == .held && t.txq == []) = true := by
  decide +kernel
/-- FL15, FL16, FL18. -/
theorem test_register_refused :
    goes (exec (.register 0 0 false 0 0) idle) (fun t => t.answer == .refused .operand) = true ∧
    goes (exec (.register 0 0 false 1 0) (byPort .controller (linked .top))) (fun t => t.answer == .refused .state) = true ∧
    goes (exec (.register 0 0 false 1 0) { idle with life := .closed }) (fun t => t.answer == .okSlot 0) = true := by
  decide +kernel
/-- A4: the window that a spurious head makes is removed whole, `A` is lost, `B` is reported. -/
theorem test_feed_spurious :
    goes (exec (.feed 0 (0x7E :: (wA.toList ++ wB.toList))) idle) (fun t =>
      t.answer == .accepted && t.asm == [{}] &&
      t.evlog == [.badFrame 0 .tail, .corrupt 0 0 0x21 0x21, .unknownId 0 0x7E5]) = true := by decide +kernel
/-- A11 (its second FEED), LC13, LC14: overflow, RUNNING, a channel out of range. -/
theorem test_feed_rejected :
    goes (exec (.feed 0 (List.replicate 50 0x55)) (holding (wA.toList.take 15) idle)) (fun t =>
      t.answer == .rejected && t.evlog == [.rxOverflow 0 50] && t.asm == [{ q := wA.toList.take 15 }]) = true ∧
    goes (exec (.feed 0 wA.toList) (byPort .controller (linked .top))) (fun t => t.answer == .refused .state) = true ∧
    goes (exec (.feed 1 wA.toList) idle) (fun t => t.answer == .refused .operand) = true := by decide +kernel
/-- K1 to K5. -/
theorem test_cksum_vectors :
    goes (exec (.cksum (wA.toList.take 15)) idle) (fun t => t.answer == .byte 0x21) = true ∧
    goes (exec (.cksum (List.replicate 15 0)) idle) (fun t => t.answer == .byte 0x00) = true ∧
    goes (exec (.cksum (0x7E :: (List.replicate 13 0 ++ [0x7D]))) idle) (fun t => t.answer == .byte 0x03) = true ∧
    goes (exec (.cksum [0x7E, 0x44, 0x23, 1, 0, 0, 1, 2, 3, 4, 0, 0, 0, 0, 0x7D]) idle) (fun t => t.answer == .byte 0x61) = true ∧
    goes (exec (.cksum [0x7E, 0x04, 0x01, 0x23, 0, 0, 1, 2, 3, 4, 0, 0, 0, 0, 0x7D]) idle) (fun t => t.answer == .byte 0x21) =
      true := by decide +kernel
/-- K6, RF9: refused by length, and admitted while RUNNING. -/
theorem test_cksum_domain :
    goes (exec (.cksum (List.replicate 14 0)) idle) (fun t => t.answer == .refused .operand && t.refused) = true ∧
    goes (exec (.cksum (wA.toList.take 15)) (byPort (.producer 3) (linked .xfer))) (fun t => t.answer == .byte 0x21) = true := by
  decide +kernel
/-- E1, E3, E9, E11, E12. -/
theorem test_encode_vectors :
    goes (exec (.encode fA 0) idle) (fun t => t.answer == .bytes wA) = true ∧
    goes (exec (.encode ⟨0x1ABCDEF0, 8, true, false, Vector.replicate 8 0xFF⟩ 0) idle) (fun t => t.answer == .bytes
      #v[0x7E, 0x28, 0xF0, 0xDE, 0xBC, 0x1A, 0xFF, 0xFF, 0xFF, 0xFF, 0xFF, 0xFF, 0xFF, 0xFF, 0x7D, 0xA3]) = true ∧
    goes (exec (.encode fC 1) idle) (fun t => t.answer == .bytes wC) = true ∧
    goes (exec (.encode ⟨0xFFFFFFFF, 8, true, true, Vector.replicate 8 0⟩ 1) idle) (fun t => t.answer == .bytes
      #v[0x7E, 0x78, 0xFF, 0xFF, 0xFF, 0xFF, 0, 0, 0, 0, 0, 0, 0, 0, 0x7D, 0x7B]) = true ∧
    goes (exec (.encode ⟨0x18, 3, false, true, #v[9, 8, 7, 0, 0, 0, 0, 0]⟩ 0) idle) (fun t => t.answer == .bytes
      #v[0x7E, 0x13, 0x18, 0, 0, 0, 9, 8, 7, 0, 0, 0, 0, 0, 0x7D, 0x0E]) = true := by decide +kernel
/-- E14, E15. -/
theorem test_encode_domain :
    goes (exec (.encode { fA with dlc := 9 } 0) idle) (fun t => t.answer == .refused .operand) = true ∧
    goes (exec (.encode fA 2) idle) (fun t => t.answer == .refused .operand) = true := by decide +kernel
/-- V3, V4, V6, V10, V11, V12. -/
theorem test_verify_vectors :
    verifyFrame {} wRM = .valid ⟨0x7E5, 0, false, true, Vector.replicate 8 0, false⟩ ∧
    verifyFrame {} (wA.set 15 0x20) = .invalid .csum ∧
    verifyFrame {} ((wA.set 0 0).set 14 0) = .invalid .head ∧
    verifyFrame {} #v[0x7E, 0x84, 0x23, 1, 0, 0, 1, 2, 3, 4, 0, 0, 0, 0, 0x7D, 0xA1] = .valid dA ∧
    verifyFrame {} #v[0x7E, 0x09, 0, 0, 0, 0, 0, 0, 0, 0, 0, 0, 0, 0, 0x7D, 0x0A] =
      .valid ⟨0, 9, false, false, Vector.replicate 8 0, false⟩ ∧
    verifyFrame {} #v[0x7E, 0x04, 0x22, 0, 0, 0, 1, 2, 3, 4, 0, 0, 0, 0, 0x7D, 0x21] = .valid { dA with id := 0x22 } := by
  decide +kernel
/-- V1, V5, V14 through the command. -/
theorem test_verify_command :
    goes (exec (.verify wA.toList) idle) (fun t => t.answer == .verdict (.valid dA)) = true ∧
    goes (exec (.verify (wA.set 14 0).toList) idle) (fun t => t.answer == .verdict (.invalid .tail)) = true ∧
    goes (exec (.verify (wA.toList.take 15)) idle) (fun t => t.answer == .refused .operand) = true := by decide +kernel

/-! ### The Worker and the Controller's continuation -/

/-- X2, X1 (its TOP, with `LOCAL_CHAN = 1` of X14). -/
theorem test_tickTop_builds :
    goes (exec .tickTop { linked .top with txq := wA.toList ++ wB.toList, rxNew := true }) (fun t =>
      t.txbuf == some wA && t.txkind == some .frame && t.txq == wB.toList && t.ph == .xfer && !t.rxNew) = true ∧
    goes (exec .tickTop { linked .top with cfg := { localChan := 1 } }) (fun t =>
      t.txbuf == some wS1 && t.txkind == some .idle && t.ph == .xfer) = true := by decide +kernel
/-- X13: with shutdown set the Worker stops and TXQ still holds `A`. -/
theorem test_tickTop_stops :
    goes (exec .tickTop { linked .top with shutdown := true, txq := wA.toList }) (fun t =>
      t.ls == .stopped && t.ph == .top && t.txq == wA.toList) = true := by decide +kernel
/-- X2's XFER. -/
theorem test_tickXfer_received :
    goes (exec .tickXfer { linked .xfer with txbuf := some wA, txkind := some .frame, xferIn := [.received wS0] }) (fun t =>
      t.evlog == [.xfer wA .frame true (some wS0)] && t.rxbuf == some wS0 && t.ph == .rx) = true := by decide +kernel
/-- X3's XFER: the frame is lost, TICK.RX is skipped. -/
theorem test_tickXfer_failed :
    goes (exec .tickXfer { linked .xfer with txbuf := some wA, txkind := some .frame, xferIn := [.failed] }) (fun t =>
      t.evlog == [.xfer wA .frame false none, .xferFail] && t.rxbuf == none && t.ph == .decide && t.txq == []) = true := by
  decide +kernel
/-- X7: delivered, and new data noted. -/
theorem test_tickRx_delivers :
    goes (exec .tickRx { withTwo (entry 0x7E0 0x7F0 0xA 1) (entry 0 0 1 1) (linked .rx) with rxbuf := some wB }) (fun t =>
      t.evlog == [.deliver 0 0xA 1 0 dB] && t.rxNew && t.ph == .decide && t.asm == [{}]) = true := by decide +kernel
/-- X1, X4, X5, X6: the discards. -/
theorem test_tickRx_discards :
    goes (exec .tickRx { linked .rx with rxbuf := some wS0 }) (fun t => t.evlog == [.rxDiscard .head] && !t.rxNew) = true ∧
    goes (exec .tickRx { linked .rx with rxbuf := some wRM }) (fun t => t.evlog == [.rxDiscard .remote]) = true ∧
    goes (exec .tickRx { linked .rx with rxbuf := some wQ }) (fun t => t.evlog == [.rxDiscard .chan]) = true ∧
    goes (exec .tickRx { linked .rx with rxbuf := some (wB.set 15 0x9C) }) (fun t => t.evlog == [.rxDiscard .csum]) = true := by
  decide +kernel
/-- X9, X7, X1: DECIDE. -/
theorem test_tickDecide :
    goes (exec .tickDecide { linked .decide with txq := wB.toList }) (fun t => t.ls == .draining && t.ph == .top) = true ∧
    goes (exec .tickDecide { linked .decide with rxNew := true }) (fun t => t.ls == .draining && t.ph == .top) = true ∧
    goes (exec .tickDecide (linked .decide)) (fun t => t.ls == .idle && t.ph == .sleep) = true := by decide +kernel
/-- X1s, X10, X15. -/
theorem test_tickSleep :
    goes (exec .tickSleep { linked .sleep with ls := .idle, txq := wA.toList }) (fun t => t.ls == .idle && t.ph == .top) =
      true ∧
    goes (exec .tickSleep { linked .sleep with ls := .stopped }) (fun t => t.answer == .held && t.ph == .sleep) = true := by
  decide +kernel
/-- P4, LC11: CLOSE.JOIN drops TXQ once the Worker has stopped, and is held until then. -/
theorem test_closeJoin :
    goes (exec .closeJoin { linked .top with ls := .stopped, shutdown := true, txq := wB.toList ++ wC.toList }) (fun t =>
      t.life == .closed && t.txq == [] && t.ls == .stopped) = true ∧
    goes (exec .closeJoin { linked .xfer with shutdown := true, txq := wB.toList }) (fun t =>
      t.answer == .held && t.life == .running && t.txq == wB.toList) = true := by decide +kernel

/-! ### Sub-operations -/

/-- A8, A8b: the assembler awaits four bytes, or takes them. -/
theorem test_extract_extra :
    goes (exec (.extract 0) { holding (wA.toList ++ [9, 9, 9]) State.reset with cfg := { resolver := .always 4 } }) (fun t =>
      t.answer == .extracted .incomplete &&
      t.asm == [{ q := wA.toList ++ [9, 9, 9], consumed := 16, extra := 4, resolved := true }]) = true ∧
    goes (exec (.extract 0) { holding (wA.toList ++ [9, 9, 9, 9] ++ wB.toList) State.reset with
      cfg := { resolver := .whenByte 2 0x23 4 } }) (fun t =>
      t.answer == .extracted .complete && t.asm == [{ q := wB.toList }] && t.evlog == [.unknownId 0 0x123]) = true := by
  decide +kernel
/-- A5, A3w, A18: the gate, one dropped byte, the oversize fault of the Controller. -/
theorem test_extract_gate_drop_fault :
    goes (exec (.extract 0) (holding (wA.toList.take 15) State.reset)) (fun t =>
      t.answer == .extracted .incomplete && t.asm == [{ q := wA.toList.take 15 }]) = true ∧
    goes (exec (.extract 0) (holding (0x00 :: wA.toList) State.reset)) (fun t =>
      t.answer == .extracted .corrupt && t.asm == [{ q := wA.toList }] && t.evlog == [.corrupt 0 0 0 0]) = true ∧
    goes (exec (.extract 0) { holding wA.toList State.reset with cfg := { resolver := .always 60 } }) (fun t =>
      t.faults == [.asmOversize 0] && t.halted == [.controller] && t.evlog == []) = true := by decide +kernel
/-- R92, D24: while RUNNING a sub-operation runs inside TICK.RX and is no step by itself, even where TICK.RX is due; R185: it
is one of the Controller's standalone FEED. -/
theorem test_sub_operations_enabled :
    goes (exec (.dispatch 0 dB) State.reset) (fun t => t.evlog == [.unknownId 0 0x7E5]) = true ∧
    goes (exec (.dispatch 0 dB) (linked .rx)) (fun t => t.answer == .held && t.evlog == []) = true ∧
    goes (exec (.framecb 0 wA.toList) (linked .rx)) (fun t => t.answer == .held && t.evlog == []) = true ∧
    goes (exec (.extract 0) (holding wA.toList (linked .rx))) (fun t =>
      t.answer == .held && t.asm == [{ q := wA.toList }]) = true := by decide +kernel
/-- R210, R247: with its loop off or stopped the Worker has no step at the command port either, good or bad; with its loop
running it may issue CKSUM (R112). -/
theorem test_worker_at_the_port :
    goes (exec (.cksum (wA.toList.take 15)) (byPort .worker State.reset)) (fun t => t.answer == .held) = true ∧
    goes (exec (.cksum []) (byPort .worker { linked .top with ls := .stopped })) (fun t =>
      t.answer == .held && !t.refused) = true ∧
    goes (exec .reserved0A (byPort .worker State.reset)) (fun t => t.answer == .held && !t.refused) = true ∧
    goes (exec .tickTop (byPort .worker State.reset)) (fun t => t.answer == .held && !t.refused) = true ∧
    goes (step { State.reset with inbox := [.port .worker [0x24]] }) (fun t => t.answer == .held && !t.refused) = true ∧
    goes (exec (.cksum (wA.toList.take 15)) (byPort .worker (linked .top))) (fun t => t.answer == .byte 0x21) = true ∧
    goes (exec .reserved0A (byPort .worker (linked .top))) (fun t => t.answer == .refused .opcode) = true := by decide +kernel
/-- A9: the ghost frame that a spurious head makes. -/
theorem test_framecb_ghost :
    goes (exec (.framecb 0 [0x7E, 0x7E, 8, 8, 0, 0, 0, 0, 0, 0, 0, 0, 0, 0, 0x7D, 0x7D]) { State.reset with
      ft := State.reset.ft.set 0 (some (entry 0 0 0xC 9)) }) (fun t =>
      t.evlog == [.deliver 0 0xC 9 0 ⟨0x808, 14, true, true, Vector.replicate 8 0, true⟩]) = true := by decide +kernel
/-- A7, A7b: bad windows, and one that EXTRACT would not hand over (R135; log entry 23). -/
theorem test_framecb_bad :
    goes (exec (.framecb 0 (wA.set 15 0x20).toList) State.reset) (fun t => t.evlog == [.badFrame 0 .csum]) = true ∧
    goes (exec (.framecb 0 (wA.set 14 0).toList) State.reset) (fun t => t.evlog == [.badFrame 0 .tail]) = true ∧
    goes (exec (.framecb 0 (wA.set 0 0).toList) State.reset) (fun t => t.evlog == [.badFrame 0 .head]) = true := by
  decide +kernel
/-- FL4, FL6, FL8: the first match wins; a pattern bit outside the mask never matches. -/
theorem test_dispatch_order :
    goes (exec (.dispatch 0 dB) (withTwo (entry 0x7E0 0x7F0 1 2) (entry 0x7E5 0x7FF 3 4) State.reset)) (fun t =>
      t.evlog == [.deliver 0 1 2 0 dB]) = true ∧
    goes (exec (.dispatch 0 { dB with id := 0x7E6 }) (withTwo (entry 0x7E5 0x7FF 1 2) (entry 0x7E0 0x7F0 3 4) State.reset))
      (fun t => t.evlog == [.deliver 1 3 4 0 { dB with id := 0x7E6 }]) = true ∧
    goes (exec (.dispatch 0 { dB with id := 1 }) (withTwo (entry 1 0 1 2) (entry 1 0 3 4) State.reset))
      (fun t => t.evlog == [.unknownId 0 1]) = true := by decide +kernel
/-- FL9, FL10, FL11: `ext` decides nothing, all 32 bits are compared. -/
theorem test_dispatch_bits :
    goes (exec (.dispatch 0 dB) (withTwo { entry 0x7E0 0x7F0 1 2 with ext := true } (entry 0 0 3 4) State.reset)) (fun t =>
      t.evlog == [.deliver 0 1 2 0 dB]) = true ∧
    goes (exec (.dispatch 0 { dB with id := 0x80000123 })
      (withTwo (entry 0x123 0xFFFFFFFF 1 2) (entry 0x123 0x1FFFFFFF 3 4) State.reset)) (fun t =>
      t.evlog == [.deliver 1 3 4 0 { dB with id := 0x80000123 }]) = true := by decide +kernel

/-! ### Reserved codes (RF1 to RF3) and WireFrames -/

/-- An operation is refused REF_OPCODE and sets the mark. -/
def refusesOpcode (i : Instr) : Bool := goes (exec i idle) fun t => t.answer == .refused .opcode && t.refused

theorem test_reserved_low :
    refusesOpcode .reserved00 = true ∧ refusesOpcode .reserved0A = true ∧ refusesOpcode .reserved0B = true ∧
    refusesOpcode .reserved0C = true ∧ refusesOpcode .reserved0D = true ∧ refusesOpcode .reserved0E = true ∧
    refusesOpcode .reserved0F = true := by decide +kernel
theorem test_reserved_high :
    refusesOpcode .reserved19 = true ∧ refusesOpcode .reserved1A = true ∧ refusesOpcode .reserved1B = true ∧
    refusesOpcode .reserved1C = true ∧ refusesOpcode .reserved1D = true ∧ refusesOpcode .reserved1E = true ∧
    refusesOpcode .reserved1F = true := by decide +kernel
/-- X7, X6. -/
theorem test_wfData :
    goes (exec (.wfData xB) { linked .rx with ft := State.reset.ft.set 0 (some (entry 0x7E0 0x7F0 0xA 1)) }) (fun t =>
      t.evlog == [.deliver 0 0xA 1 0 dB] && t.rxNew) = true ∧
    goes (exec (.wfData { xB with csum := 0x9C }) (linked .rx)) (fun t => t.evlog == [.rxDiscard .csum] && !t.rxNew) = true := by
  decide +kernel
/-- A18 through TICK.RX (R156, R222): the Worker raises F_ASM_OVERSIZE and is halted. -/
theorem test_tickRx_oversize :
    goes (exec .tickRx { linked .rx with rxbuf := some wB, cfg := { resolver := .always 60 } }) (fun t =>
      t.faults == [.asmOversize 0] && t.halted == [.worker] && t.evlog == []) = true := by decide +kernel
/-- X4. -/
theorem test_wfRemote :
    goes (exec (.wfRemote xRM) (linked .rx)) (fun t => t.evlog == [.rxDiscard .remote] && t.ph == .decide) = true := by
  decide +kernel
/-- X14. -/
theorem test_wfIdle :
    goes (exec (.wfIdle true) (linked .rx)) (fun t => t.evlog == [.rxDiscard .head] && t.ph == .decide) = true := by
  decide +kernel

/-! ### Steps -/

/-- RF4, RF6, RF7, RF8: refusals at the command port. -/
theorem test_step_port :
    goes (step { idle with inbox := [.port .controller [0x24]] }) (fun t => t.answer == .refused .opcode) = true ∧
    goes (step { idle with inbox := [.port .controller [0x10]] }) (fun t => t.answer == .refused .internal) = true ∧
    goes (step { idle with inbox := [.port .controller [0x15]] }) (fun t => t.answer == .refused .internal) = true ∧
    goes (step { idle with inbox := [.port (.producer 0) [0x18]] }) (fun t =>
      t.answer == .refused .internal && t.inbox == []) = true := by decide +kernel
/-- An instruction that is placed is the one that runs. -/
theorem test_step_placed :
    goes (step (State.reset.withFetchWord 8 0x10)) (fun t => t.ph == .xfer && t.txbuf == some wS0) = true ∧
    goes (step (State.reset.withFetchWord 8 0x05)) (fun t => t.answer == .refused .operand) = true ∧
    goes (step (State.reset.withFetchWord 128 0x1C7D00000000000055AA000007E5027E)) (fun t =>
      t.evlog == [.unknownId 0 0x7E5] && t.ph == .decide) = true := by decide +kernel
/-- RF10 to RF12: construction. -/
theorem test_construct :
    (construct { rxqCap := 15 }).toOption = none ∧ (construct { head := 0 }).toOption = none ∧
    (construct { nChan := 3 }).toOption = none ∧ (construct { txqFrames := 0 }).toOption = none ∧
    (construct { head := 0x7D }).toOption = none ∧ (construct {}).toOption = some State.reset := by decide +kernel

/-! ### Witnesses: for each statement with hypotheses, a state and operands that meet them all, clause by clause -/

/-- An outcome that goes on has a next state. -/
theorem goes_next {o : Host.Outcome State Fault Refusal} {p : State → Bool} (h : goes o p = true) :
    ∃ t, o = .next t ∧ p t = true := by
  cases o with
  | next t => exact ⟨t, rfl, h⟩
  | fault _ => cases h
  | refused _ => cases h

theorem witness_DecodedBytesAreTheEncoding :
    decode .command [0x16, 1, 5] = .ok (.extract 1, [5]) ∧ decode .link wS0.toList = .ok (.wfIdle false, []) := by decide

/-- The state of a block with one input at its command port. -/
def ported (b : Byte) (l : List Byte) : State := { State.reset with inbox := [.port .controller (b :: l)] }

/-- One byte of each clause of the refusal: bits 7..5 not 0, 0, and the ends of the reserved and internal ranges. -/
theorem witness_ReservedAndInternalBytesAreRefused :
    (ported 0x20 []).inbox = [.port .controller [0x20]] ∧ MayStep (ported 0x20 []) .controller ∧
    MayStep (linked .top) .worker ∧
    (0x20 : Byte).extractLsb' 5 3 ≠ 0 ∧ (0xFF : Byte).extractLsb' 5 3 ≠ 0 ∧
    (0x0A ≤ (0x0A : Byte).toNat ∧ (0x0A : Byte).toNat ≤ 0x0F) ∧ (0x0A ≤ (0x0F : Byte).toNat ∧ (0x0F : Byte).toNat ≤ 0x0F) ∧
    (0x19 ≤ (0x19 : Byte).toNat ∧ (0x19 : Byte).toNat ≤ 0x1F) ∧ (0x19 ≤ (0x1F : Byte).toNat ∧ (0x1F : Byte).toNat ≤ 0x1F) ∧
    (0x10 ≤ (0x10 : Byte).toNat ∧ (0x10 : Byte).toNat ≤ 0x18) ∧ (0x10 ≤ (0x18 : Byte).toNat ∧ (0x18 : Byte).toNat ≤ 0x18) := by
  decide

theorem witness_ReservedRowsRefuse :
    Instr.reserved00 ∈ reservedRows ∧ Instr.reserved1F ∈ reservedRows ∧ MayStep State.reset (performer State.reset) ∧
    MayStep (byPort .worker (linked .top)) (performer (byPort .worker (linked .top))) := by decide

theorem witness_StepRunsTheDecodedInstruction :
    ((ported 0x02 [9]).inbox = [.port .controller [0x02, 9]] ∧ decode .command [0x02, 9] = .ok (.close, [9])) ∧
    ({ State.reset with inbox := [.block [0x10]] }.inbox = [Input.block [0x10]] ∧
      decode .command [0x10] = .ok (.tickTop, [])) ∧
    ({ linked .rx with inbox := [.frame], rxbuf := some wB }.inbox = [Input.frame] ∧
      decode .link wB.toList = .ok (.wfData xB, [])) ∧
    State.reset.inbox = [] := by decide

/-- The state of most witnesses of commands: the Controller may issue, in any lifecycle state. -/
theorem witness_CanServe :
    CanServe State.reset (performer State.reset) ∧ CanServe idle .controller ∧ idle.issuer = .port .controller ∧
    CanServe (byPort .controller (linked .top)) .controller ∧ CanServe (linked .top) .worker ∧
    CanServe (byPort .worker (linked .sleep)) .worker ∧ CanServe (linked .top) .controller := by decide

theorem witness_CksumGivesTheXorFold :
    idle.issuer = .port .controller ∧ CanServe idle .controller ∧ (List.replicate 15 (0 : Byte)).length = 15 ∧
    (List.replicate 14 (0 : Byte)).length ≠ 15 ∧ (List.replicate 16 (0 : Byte)).length ≠ 15 := by decide

theorem witness_ChecksumLaws :
    [(1 : Byte), 2].Perm [2, 1] ∧ ChecksumHolds wA ∧
    (Vector.replicate 16 true).toList.count true % 2 = 0 := by decide

theorem witness_EncodeGivesTheFrameBytes :
    (byPort (.producer 7) (linked .top)).issuer = .port (.producer 7) ∧
    CanServe (byPort (.producer 7) (linked .top)) (.producer 7) ∧ (fC.dlc.toNat ≤ 8 ∧ (1 : Byte).toNat ≤ 1) ∧
    idle.cfg.idOrder = .le ∧ { idle with cfg := { idOrder := .be } }.cfg.idOrder = .be ∧
    ¬({ fC with dlc := 9 }.dlc.toNat ≤ 8 ∧ (1 : Byte).toNat ≤ 1) ∧ ¬(fC.dlc.toNat ≤ 8 ∧ (2 : Byte).toNat ≤ 1) := by decide

theorem witness_EncodedFramesVerifyAndAreDistinct :
    fC.dlc.toNat ≤ 8 ∧ (1 : Byte).toNat ≤ 1 ∧ encodeFrame {} fC 1 = encodeFrame {} fC 1 := by decide

theorem witness_VerifyInvertsEncode : fC.dlc.toNat ≤ 8 ∧ (1 : Byte).toNat ≤ 1 := by decide

theorem witness_VerifyRejectsEverySingleBitFlip : fC.dlc.toNat ≤ 8 ∧ (1 : Byte).toNat ≤ 1 := by decide

theorem witness_VerifyGivesTheVerdict :
    idle.issuer = .port .controller ∧ CanServe idle .controller ∧ (List.replicate 15 (0 : Byte)).length ≠ 16 ∧
    (List.replicate 17 (0 : Byte)).length ≠ 16 := by decide

theorem witness_AdmissionFollowsTheTable :
    (byPort .controller (linked .top)).issuer = .port .controller ∧ CanServe (byPort .controller (linked .top)) .controller ∧
    isCommand (.init 0) = true ∧ issuedBy (.init 0) .controller = true ∧ tableAdmits (.init 0) .running false = false ∧
    isCommand .close = true ∧ issuedBy .close .controller = true ∧ tableAdmits .close .running true = false ∧
    isCommand (.feed 0 []) = true ∧ issuedBy (.feed 0 []) .controller = true ∧ tableAdmits (.feed 0 []) .running false = false ∧
    issuedBy (.write fA 0) (.producer 4) = true ∧ tableAdmits (.write fA 0) .running false = true ∧
    tableAdmits .close .running false = true ∧ issuedBy (.cksum []) .worker = true ∧
    tableAdmits (.cksum []) .running true = true := by decide

theorem witness_OperandsOutsideTheirDomainAreRefused :
    idle.issuer = .port .controller ∧ CanServe idle .controller ∧ CanServe (byPort (.producer 0) (linked .top)) (.producer 0) ∧
    (byPort (.producer 0) (linked .top)).issuer = .port (.producer 0) ∧ (byPort (.producer 0) (linked .top)).life = .running ∧
    ¬({ fA with dlc := 9 }.dlc.toNat ≤ 8 ∧ (0 : Byte).toNat ≤ 1) ∧
    idle.life ≠ .running ∧ idle.cfg.nChan ≤ (1 : Byte).toNat ∧ ([] : List Byte).length ≠ 15 ∧ ([] : List Byte).length ≠ 16 := by
  decide

/-- A good configuration at the edges of R11, and a bad one. -/
theorem witness_BadConfigurationsAreRefusedWhole :
    configOk { baseLen := 16, hdr := List.replicate 16 1, rxqCap := 16, txqFrames := 1, nChan := 2, localChan := 1 } = true ∧
    ¬(1 ≤ ({ hdr := [] } : Config).hdr.length) ∧ isCommand (.init 0) = true ∧ idle.issuer = .port .controller ∧
    issuedBy (.init 0) .controller = true ∧ MayStep idle .controller ∧ configOk { idle with cfg := { rxqCap := 15 } }.cfg = false ∧
    configOk { idle with cfg := { mode := .raw } }.cfg = true ∧ { idle with cfg := { mode := .raw } }.cfg.mode = .raw := by decide

theorem witness_FaultedAgentsAreHeld :
    mover .tickTop { linked .top with halted := [.worker] } ∈ { linked .top with halted := [.worker] }.halted ∧
    mover .close { idle with halted := [.controller] } ∈ { idle with halted := [.controller] }.halted := by decide

/-- A step that adds an event, keeps a fault, a refusal and a halted agent. -/
theorem witness_ConfigurationAndStickyStateAreKept :
    ∃ t, step { linked .rx with inbox := [.block [0x12]], rxbuf := some wS0, faults := [.internal], refused := true
                                halted := [.controller] } = .next t ∧
      (t.evlog == [.rxDiscard .head]) = true := goes_next (by decide +kernel)

theorem witness_ReadsWithoutValueFault :
    (linked .xfer).issuer = .block ∧ CanServe (linked .xfer) .worker ∧ Active (linked .xfer) ∧ (linked .xfer).ph = .xfer ∧
    (linked .xfer).txbuf = none ∧ (linked .rx).ph = .rx ∧ (linked .rx).rxbuf = none := by decide

/-- Each primitive with its precondition just met, and just missed. -/
theorem witness_QueuePrimitivesFollowTheirRules :
    [(7 : Byte)].length + [(8 : Byte)].length ≤ 2 ∧ 1 < [(7 : Byte)].length + [(8 : Byte)].length ∧
    1 ≤ [(7 : Byte)].length ∧ [(7 : Byte)].length < 2 ∧ 0 < [(7 : Byte)].length ∧ [(7 : Byte)].length ≤ 1 ∧
    1 + 1 ≤ [(7 : Byte), 8].length ∧ [(7 : Byte), 8].length < 1 + 2 := by decide

theorem witness_InitStartsTheWorkerOrFails :
    idle.issuer = .port .controller ∧ CanServe idle .controller ∧ idle.life = .uninit ∧
    { idle with initIn := [true] }.initIn = [true] ∧ { idle with initIn := [false] }.initIn = [false] ∧ idle.initIn = [] ∧
    CanServe (byPort .controller (linked .top)) .controller ∧ (linked .top).life ≠ .uninit := by decide

theorem witness_CloseSetsShutdownOnce :
    (byPort .controller (linked .top)).issuer = .port .controller ∧ CanServe (byPort .controller (linked .top)) .controller ∧
    (linked .top).life = .running ∧ (linked .top).shutdown = false ∧
    ¬({ linked .top with shutdown := true }.life = .running ∧ { linked .top with shutdown := true }.shutdown = false) ∧
    ¬(idle.life = .running ∧ idle.shutdown = false) := by decide

theorem witness_GetdescReturnsTheDescriptor :
    (byPort .controller (linked .top)).issuer = .port .controller ∧ CanServe (byPort .controller (linked .top)) .controller ∧
    (linked .top).life = .running ∧ idle.life ≠ .running := by decide

/-- The last frame that fits, and the first that does not; a dlc and a channel just too large; and another lifecycle state. -/
theorem witness_WriteEnqueuesOrFails :
    (byPort (.producer 2) (linked .top)).issuer = .port (.producer 2) ∧
    CanServe (byPort (.producer 2) (linked .top)) (.producer 2) ∧ (linked .top).life = .running ∧ fC.dlc.toNat ≤ 8 ∧
    (1 : Byte).toNat ≤ 1 ∧ (List.replicate 48 (0 : Byte)).length + 16 ≤ 16 * (linked .top).cfg.txqFrames ∧
    16 * (linked .top).cfg.txqFrames < (List.replicate 49 (0 : Byte)).length + 16 ∧
    ¬({ fC with dlc := 9 }.dlc.toNat ≤ 8 ∧ (1 : Byte).toNat ≤ 1) ∧ ¬(fC.dlc.toNat ≤ 8 ∧ (2 : Byte).toNat ≤ 1) ∧
    CanServe (byPort (.producer 2) State.reset) (.producer 2) ∧ State.reset.life ≠ .running := by decide

theorem witness_CloseJoinClearsTheQueues :
    (linked .top).issuer = .block ∧ CanServe (linked .top) .controller ∧ (linked .top).life = .running ∧
    { linked .top with ls := .stopped }.ls = .stopped ∧ (linked .top).ls ≠ .stopped := by decide

/-- The first slot free, the last one, none; a running block; a null callback. -/
theorem witness_RegisterFillsTheLowestFreeSlot :
    idle.issuer = .port .controller ∧ CanServe idle .controller ∧ idle.life ≠ .running ∧ (1 : Ref) ≠ 0 ∧
    (idle.ft[0]? = some none ∧ ∀ j : Nat, j < 0 → idle.ft[j]? ≠ some none) ∧
    (((withAll (entry 0 0 1 0) idle).ft.set 127 none)[127]? = some none ∧
      ∀ j : Nat, j < 127 → ((withAll (entry 0 0 1 0) idle).ft.set 127 none)[j]? ≠ some none) ∧
    (∀ x ∈ (withAll (entry 0 0 1 0) idle).ft, x ≠ none) ∧ CanServe (byPort .controller (linked .top)) .controller ∧
    (linked .top).life = .running ∧ (0 : Ref) = 0 := by decide +kernel

theorem witness_RegisterSlotIsTheNumberRegistered :
    TableInv idle ∧ ∃ t, exec (.register 0 0 false 1 0) idle = .next t ∧ (t.answer == .okSlot 0) = true :=
  ⟨by decide +kernel, goes_next (by decide +kernel)⟩

/-- Slot 1 matches and slot 0 does not; with other masks none matches. -/
theorem witness_DispatchDeliversToTheFirstMatch :
    ((withTwo (entry 1 0 1 1) (entry 0 0 1 1) State.reset).ft[1]? = some (some (entry 0 0 1 1)) ∧
      dB.id &&& (entry 0 0 1 1).mask = (entry 0 0 1 1).pattern ∧
      ∀ j : Nat, j < 1 → (withTwo (entry 1 0 1 1) (entry 0 0 1 1) State.reset).ft[j]? = some (some (entry 1 0 1 1))) ∧
    dB.id &&& (entry 1 0 1 1).mask ≠ (entry 1 0 1 1).pattern ∧ (∀ x ∈ State.reset.ft, x = none) ∧
    State.reset.issuer = .block ∧ CanServe State.reset .controller ∧ State.reset.life ≠ .running ∧
    (0 : Byte).toNat < State.reset.cfg.nChan := by decide +kernel

theorem witness_MatchArithmetic :
    (entry 1 0 1 1).pattern &&& ~~~(entry 1 0 1 1).mask ≠ 0 ∧ (entry 1 0xFFFFFFFF 1 1).mask = BitVec.allOnes 32 ∧
    ((entry 0 0 1 1).mask = 0 ∧ (entry 0 0 1 1).pattern = 0) ∧ { dA with ext := true }.id = dA.id := by decide

/-- A block at reset whose assembler 0 holds `q`. -/
def feeding (q : List Byte) : State := holding q State.reset

theorem witness_ExtractWaitsForAWholeFrame :
    (feeding (wA.toList.take 15)).issuer = .block ∧ CanServe (feeding []) .controller ∧ (feeding []).life ≠ .running ∧
    (0 : Byte).toNat < (feeding []).cfg.nChan ∧ (feeding (wA.toList.take 15)).asm[0]? = some { q := wA.toList.take 15 } ∧
    (wA.toList.take 15).length - 0 < 16 + 0 - 0 := by decide

theorem witness_ExtractDropsExactlyOneByte :
    (feeding (0 :: wA.toList)).issuer = .block ∧ CanServe (feeding []) .controller ∧ (feeding []).life ≠ .running ∧
    (feeding (0 :: wA.toList)).asm[0]? = some { q := 0 :: wA.toList } ∧ (feeding []).cfg.baseLen ≤ (0 :: wA.toList).length ∧
    (0 :: wA.toList).take 0 = (feeding []).cfg.hdr.take 0 ∧ (0 :: wA.toList)[0]? = some 0 ∧
    (feeding []).cfg.hdr[0]? = some 0x7E ∧ (0 : Byte) ≠ 0x7E := by decide

/-- An assembler at rest with no extra bytes to come, and one that has waited for four. -/
theorem witness_ExtractCompletesTheWindow :
    (feeding wA.toList).issuer = .block ∧ CanServe (feeding []) .controller ∧ (feeding []).life ≠ .running ∧
    wA.toList.take (feeding []).cfg.hdr.length = (feeding []).cfg.hdr ∧
    (feeding wA.toList).asm[0]? = some { q := wA.toList } ∧ (resolve .can (wA.toList.take 16)).getD 0 = 0 ∧
    16 + 0 ≤ wA.toList.length ∧ wA.toList.take 16 = wA.toList ∧ 16 + 0 ≤ (feeding []).cfg.rxqCap ∧
    { feeding [] with asm := [{ q := wA.toList ++ [9, 9, 9, 9], consumed := 16, extra := 4, resolved := true }] }.asm[0]? =
      some { q := wA.toList ++ [9, 9, 9, 9], consumed := 16, extra := 4, resolved := true } ∧
    16 + 4 ≤ (wA.toList ++ [9, 9, 9, 9]).length := by decide

theorem witness_ExtractAwaitsExtraBytes :
    (feeding []).issuer = .block ∧ (feeding []).life ≠ .running ∧
    CanServe { feeding wA.toList with cfg := { resolver := .always 48 } } .controller ∧
    (feeding wA.toList).asm[0]? = some { q := wA.toList } ∧ resolve (.always 48) (wA.toList.take 16) = some 48 ∧
    wA.toList.length < 16 + 48 ∧ 16 + 48 ≤ (feeding []).cfg.rxqCap := by decide

theorem witness_OversizeFramesFault :
    (feeding []).issuer = .block ∧ (feeding []).life ≠ .running ∧
    CanServe { feeding wA.toList with cfg := { resolver := .always 49 } } .controller ∧
    (feeding wA.toList).asm[0]? = some { q := wA.toList } ∧ wA.toList.take 1 = [0x7E] ∧
    resolve (.always 49) (wA.toList.take 16) = some 49 ∧ (feeding []).cfg.rxqCap < 16 + 49 := by decide

theorem witness_FramecbVerifiesThenDispatches :
    (feeding []).issuer = .block ∧ CanServe (feeding []) .controller ∧ (feeding []).life ≠ .running ∧
    (feeding []).cfg.baseLen ≤ wA.toList.length ∧
    wA.toList.take 16 = wA.toList ∧ verifyFrame {} wA = .valid dA ∧ verifyFrame {} (wA.set 14 0) = .invalid .tail ∧
    (feeding []).cfg.hdr = [(feeding []).cfg.head] ∧ (∀ a ∈ (feeding wA.toList).asm, AsmOk (feeding []).cfg a) ∧
    ∃ t, extract 0 (feeding wA.toList) = .ok .complete t := by
  refine ⟨by decide, by decide, by decide, by decide, by decide, by decide, by decide, by decide, by decide, ?_⟩
  have h : (match extract 0 (feeding wA.toList) with
    | .ok r _ => r == .complete
    | .stop _ _ => false) = true := by decide +kernel
  cases he : extract 0 (feeding wA.toList) with
  | ok r t => rw [he] at h; exact ⟨t, by rw [eq_of_beq h]⟩
  | stop k t => rw [he] at h; cases h

/-- A chunk one byte too long. -/
theorem witness_FeedRejectsAnOverfullChunk :
    idle.issuer = .port .controller ∧ CanServe idle .controller ∧ idle.life ≠ .running ∧
    (0 : Byte).toNat < idle.cfg.nChan ∧ (holding [1] idle).asm[0]? = some { q := [1] } ∧ [(1 : Byte)].length ≤ idle.cfg.rxqCap ∧
    idle.cfg.rxqCap - [(1 : Byte)].length < (List.replicate 64 (0 : Byte)).length := by decide

/-- Sixteen bytes of prefix and three frames fill the queue; and no bytes at all. -/
theorem witness_FeedRecoversAndDeliversInOrder :
    idle.issuer = .port .controller ∧ CanServe idle .controller ∧ CanInstance idle.cfg ∧ idle.life ≠ .running ∧ (0 : Byte).toNat < idle.cfg.nChan ∧
    idle.asm[0]? = some { q := [] } ∧ idle.cfg.head ∉ List.replicate 16 (0 : Byte) ∧
    (∀ p ∈ [(fA, (0 : Byte)), (fB, 0), (fC, 1)], p.1.dlc.toNat ≤ 8 ∧ p.2.toNat ≤ 1) ∧
    (List.replicate 16 (0 : Byte)).length + 16 * [fA, fB, fC].length ≤ idle.cfg.rxqCap ∧
    (([] : List Byte) = [] ∨ ([] : List CanFrame) ≠ []) := by decide

theorem witness_SpuriousHeadLosesTheFrame :
    idle.issuer = .port .controller ∧ CanServe idle .controller ∧ CanInstance idle.cfg ∧ idle.life ≠ .running ∧ idle.asm[0]? = some { q := [] } ∧
    17 ≤ idle.cfg.rxqCap ∧
    (#v[0x7E, 0x7E, 0x04, 0x23, 0x01, 0, 0, 1, 2, 3, 4, 0, 0, 0, 0, 0x7D] : Bytes 16).toList =
      idle.cfg.head :: wA.toList.take 15 := by decide

theorem witness_ChunkingDoesNotMatter :
    configOk idle.cfg = true ∧ idle.asm[0]? = some { q := [] } ∧
    [wA.toList, wB.toList].flatten = [wA.toList ++ [0x7E], wB.toList.drop 1].flatten ∧
    (feedChunks 0 [wA.toList, wB.toList] idle).isSome = true ∧
    (feedChunks 0 [wA.toList ++ [0x7E], wB.toList.drop 1] idle).isSome = true := by decide +kernel

theorem witness_FeedEndsInAStableState :
    idle.issuer = .port .controller ∧ CanServe idle .controller ∧ AsmInv idle ∧ idle.life ≠ .running ∧ (0 : Byte).toNat < idle.cfg.nChan ∧
    AsmInv (holding (wA.toList.take 15) idle) := by decide

theorem witness_FeedFrame :
    ∃ t, exec (.feed 0 wA.toList) idle = .next t ∧ (t.evlog == [.unknownId 0 0x123]) = true := goes_next (by decide +kernel)

/-- Shutdown; one whole frame in TXQ; and one byte short of a frame. -/
theorem witness_TickTopBuildsTheTransmitBuffer :
    (linked .top).issuer = .block ∧ CanServe (linked .top) .worker ∧ (linked .top).ph = .top ∧ Active (linked .top) ∧
    { linked .top with shutdown := true }.shutdown = true ∧ (linked .top).shutdown = false ∧ wA.toList.take 16 = wA.toList ∧
    (wA.toList.take 15).length < 16 := by decide

/-- A block that is due to exchange `A`. -/
def sending : State := { linked .xfer with txbuf := some wA, txkind := some .frame }

theorem witness_TickXferExchangesOnce :
    sending.issuer = .block ∧ CanServe sending .worker ∧ sending.ph = .xfer ∧ Active sending ∧ sending.txbuf = some wA ∧
    sending.txkind = some .frame ∧ { sending with xferIn := [.received wB] }.xferIn = [.received wB] ∧
    { sending with xferIn := [.failed] }.xferIn = [.failed] ∧ sending.xferIn = [] := by decide

/-- A block that is due to judge `w`. -/
def judging (w : Bytes 16) : State := { linked .rx with rxbuf := some w }

theorem witness_TickRxJudgesTheReceivedBytes :
    (judging wB).issuer = .block ∧ CanServe (judging wB) .worker ∧ (judging wB).ph = .rx ∧ Active (judging wB) ∧
    (judging wB).rxbuf = some wB ∧ wS0[0] ≠ (judging wS0).cfg.head ∧ (wB.set 14 0)[14] ≠ (judging wB).cfg.tail ∧
    ¬ ChecksumHolds (wB.set 15 0) ∧ wRM[1].getLsbD 4 = true ∧ (judging wQ).cfg.nChan ≤ (wQ[1].getLsbD 6).toNat ∧
    CanServe { judging wB with cfg := { resolver := .always 49 } } .worker ∧
    (∃ r t, feed (wB[1].getLsbD 6).toNat wB.toList (judging wB) = .ok r t) ∧
    (∃ k t, feed (wB[1].getLsbD 6).toNat wB.toList { judging wB with cfg := { resolver := .always 49 } } = .stop k t) := by
  refine ⟨by decide, by decide, by decide, by decide, by decide, by decide, by decide, by decide, by decide, by decide,
    by decide, ?_, ?_⟩
  · have h : (match feed (wB[1].getLsbD 6).toNat wB.toList (judging wB) with
      | .ok _ _ => true
      | .stop _ _ => false) = true := by decide +kernel
    cases hf : feed (wB[1].getLsbD 6).toNat wB.toList (judging wB) with
    | ok r t => exact ⟨r, t, rfl⟩
    | stop k t => rw [hf] at h; cases h
  · have h : (match feed (wB[1].getLsbD 6).toNat wB.toList { judging wB with cfg := { resolver := .always 49 } } with
      | .ok _ _ => false
      | .stop _ _ => true) = true := by decide +kernel
    cases hf : feed (wB[1].getLsbD 6).toNat wB.toList { judging wB with cfg := { resolver := .always 49 } } with
    | ok r t => rw [hf] at h; cases h
    | stop k t => exact ⟨k, t, rfl⟩

theorem witness_ReceivedFrameIsDispatchedOnce :
    (judging wB).issuer = .block ∧ CanServe (judging wB) .worker ∧ CanInstance (judging wB).cfg ∧ (judging wB).ph = .rx ∧
    Active (judging wB) ∧ (judging wB).rxbuf = some wB ∧ verifyFrame (judging wB).cfg wB = .valid dB ∧ dB.rem = false ∧
    dB.chan.toNat < (judging wB).cfg.nChan ∧ (judging wB).asm[dB.chan.toNat]? = some {} := by decide

theorem witness_WfDataIsRoutedOrDiscarded :
    CanServe (judging wB) .worker ∧ CanInstance (judging wB).cfg ∧ (judging wB).cfg.head = 0x7E ∧
    (judging wB).cfg.tail = 0x7D ∧ (judging wB).cfg.idOrder = .le ∧ (judging wB).ph = .rx ∧ Active (judging wB) ∧
    ¬ ChecksumHolds (wireBytes false { xB with csum := 0 }) ∧
    (ChecksumHolds (wireBytes false { xB with chan := true, csum := 0x5C }) ∧ (judging wB).cfg.nChan ≤ true.toNat) ∧
    (ChecksumHolds (wireBytes false xB) ∧ xB.chan.toNat < (judging wB).cfg.nChan ∧
      (judging wB).asm[xB.chan.toNat]? = some {}) := by decide

theorem witness_WfRemoteAndWfIdleAreDiscarded :
    CanServe (judging wRM) .worker ∧ (judging wRM).cfg.head = 0x7E ∧ (judging wRM).cfg.tail = 0x7D ∧ (judging wRM).ph = .rx ∧
    Active (judging wRM) ∧ ChecksumHolds (wireBytes true xRM) ∧ ¬ ChecksumHolds (wireBytes true { xRM with csum := 0 }) := by
  decide

theorem witness_TickRxRunsTheFrameInTheBuffer :
    (judging wB).issuer = .block ∧ (judging wB).rxbuf = some wB ∧ decode .link wB.toList = .ok (.wfData xB, []) := by decide

/-- A frame in TXQ, new data, neither; and asleep. -/
theorem witness_TickDecideDrainsOrSleeps :
    (linked .decide).issuer = .block ∧ CanServe (linked .decide) .worker ∧ (linked .decide).ph = .decide ∧
    Active (linked .decide) ∧ 16 ≤ { linked .decide with txq := wA.toList }.txq.length ∧
    { linked .decide with rxNew := true }.rxNew = true ∧ ¬(16 ≤ (linked .decide).txq.length ∨ (linked .decide).rxNew = true) ∧
    { linked .sleep with ls := .idle }.ph = .sleep ∧ { linked .sleep with ls := .idle }.ls = .idle := by decide

theorem witness_WhatIsNotEnabledIsHeld :
    mover .tickTop State.reset = .worker ∧ State.reset.ls = .off ∧ mover (.wfIdle false) State.reset = .worker ∧
    mover (.cksum []) (byPort .worker State.reset) = .worker ∧ mover .reserved00 (byPort .worker State.reset) = .worker ∧
    mover .tickSleep { linked .top with ls := .stopped } = .worker ∧ { linked .top with ls := .stopped }.ls = .stopped ∧
    ((linked .xfer).issuer = .block ∧ (linked .xfer).ph ≠ .top ∧ (linked .top).ph ≠ .xfer ∧ (linked .top).ph ≠ .rx ∧
      (linked .top).ph ≠ .decide ∧ ¬((linked .sleep).ph = .sleep ∧ (linked .sleep).ls = .idle)) ∧
    ((linked .rx).issuer = .block ∧ (linked .rx).life = .running) ∧
    isCommand .close = true ∧ issuedBy .close (.producer 0) = false ∧ issuedBy (.write fA 0) .controller = false := by decide

theorem witness_ResetMeetsTheInvariants : Launch (State.initial { nChan := 2 }) := ⟨_, by decide, rfl⟩

/-- A running block with one frame queued meets the invariants, and its Worker's step goes on. -/
theorem witness_StepKeepsTheInvariants :
    Inv { linked .top with txq := wA.toList, inbox := [.block [0x10]] } ∧
    ∃ t, step { linked .top with txq := wA.toList, inbox := [.block [0x10]] } = .next t ∧ (t.txq == []) = true := by
  refine ⟨⟨⟨by decide, [(fA, 0)], by decide, by decide⟩, by decide, by decide +kernel, by decide, by decide⟩, ?_⟩
  exact goes_next (by decide +kernel)

theorem witness_CanInstanceNeverFaults :
    Inv { linked .top with txq := wA.toList, inbox := [.block [0x10]] } ∧ CanInstance (linked .top).cfg ∧
    NoFault (linked .top) := ⟨witness_StepKeepsTheInvariants.1, by decide, by decide⟩

/-- The three ways the lifecycle state moves. -/
theorem witness_LifecycleMovesOnlyForward :
    (∃ t, step { ported 0x01 (List.replicate 8 0) with initIn := [true] } = .next t ∧ (t.life == .running) = true) ∧
    (∃ t, step { ported 0x01 (List.replicate 8 0) with initIn := [false] } = .next t ∧ (t.life == .failed) = true) ∧
    (∃ t, step { linked .top with ls := .stopped, inbox := [.block [0x15]] } = .next t ∧ (t.life == .closed) = true) :=
  ⟨goes_next (by decide +kernel), goes_next (by decide +kernel), goes_next (by decide +kernel)⟩

theorem witness_SequencerMovesOnlyByItsTable :
    (∃ t, step { linked .decide with inbox := [.block [0x13]] } = .next t ∧ (t.ls == .idle && t.ph == .sleep) = true) ∧
    (∃ t, step { sending with inbox := [.block [0x11]], xferIn := [.received wB] } = .next t ∧ (t.ph == .rx) = true) ∧
    (∃ t, step { sending with inbox := [.block [0x11]], xferIn := [.failed] } = .next t ∧ (t.ph == .decide) = true) :=
  ⟨goes_next (by decide +kernel), goes_next (by decide +kernel), goes_next (by decide +kernel)⟩

/-- A used slot, in a running block and in one that is not; and a dispatch by TICK.RX. -/
theorem witness_FilterTableIsWrittenOnlyBeforeOrAfterRunning :
    (∃ t, step { withTwo (entry 0 0 1 1) (entry 1 1 1 1) (linked .top) with inbox := [.block [0x10]] } = .next t ∧
      (t.ph == .xfer) = true) ∧
    (∃ t, step { judging wB with inbox := [.block [0x12]] } = .next t ∧ (t.evlog == [.unknownId 0 0x7E5]) = true) ∧
    (withTwo (entry 0 0 1 1) (entry 1 1 1 1) (linked .top)).life = .running ∧
    (withTwo (entry 0 0 1 1) (entry 1 1 1 1) idle).ft[1]? = some (some (entry 1 1 1 1)) :=
  ⟨goes_next (by decide +kernel), goes_next (by decide +kernel), by decide, by decide +kernel⟩

/-- A WRITE, and TICK.TOP on a queued frame. -/
theorem witness_OutboundQueueIsAFifoOfFrames :
    (∃ t, step { linked .top with inbox := [.port (.producer 0) (encode (.write fA 0))] } = .next t ∧
      (t.txq == wA.toList) = true) ∧
    (∃ t, step { linked .top with txq := wA.toList ++ wB.toList, inbox := [.block [0x10]] } = .next t ∧
      (t.txq == wB.toList) = true) := ⟨goes_next (by decide +kernel), goes_next (by decide +kernel)⟩

/-- The one exchange that was due when CLOSE came. -/
theorem witness_NoExchangeBeginsAfterClose :
    sending.life ≠ .uninit ∧ { sending with shutdown := true }.shutdown = true ∧
    ∃ t, step { sending with shutdown := true, inbox := [.block [0x11]], xferIn := [.failed] } = .next t ∧
      (t.ph == .decide) = true := ⟨by decide, by decide, goes_next (by decide +kernel)⟩

theorem witness_OnlyTheWorkerTouchesTheBuffers :
    (∃ t, step { sending with inbox := [.block [0x11]], xferIn := [.received wB] } = .next t ∧
      (t.rxbuf == some wB && t.evlog == [.xfer wA .frame true (some wB)]) = true) ∧
    (∃ t, step { linked .top with inbox := [.block [0x10]] } = .next t ∧ (t.txbuf == some wS0) = true) :=
  ⟨goes_next (by decide +kernel), goes_next (by decide +kernel)⟩

end Sys2Proof.Tests
end

section
/-! PROOF. The scope rules: which configurations construct a block (R11), and what a command meets first under a bad one or in
raw mode (R196, R246). -/

namespace Sys2Proof.Machine

/-! ### Every command of R112 is one use of `command` -/

/-- The domain check on a command's operands (R114); other operations have none at the command port. -/
def operandsInDomain : Instr → State → Bool
  | .write f ch, _ | .encode f ch, _ => frameDomain f ch
  | .register _ _ _ cb _, _ => cbDomain cb
  | .feed ch _, s => chanDomain s.cfg.nChan ch
  | .cksum b, _ => cksumDomain b
  | .verify b, _ => verifyDomain b
  | _, _ => true

theorem admitInit_eq_cells (s : State) : admitInit s = cells true false false false s.life := by
  unfold admitInit; cases s.life <;> rfl

theorem admitClose_eq_cells (s : State) : admitClose s = cells false (!s.shutdown) false false s.life := by
  unfold admitClose; cases s.life <;> rfl

theorem admitGetdesc_eq_cells (s : State) : admitGetdesc s = cells false true false false s.life := by
  unfold admitGetdesc; cases s.life <;> rfl

theorem admitWrite_eq_cells (s : State) : admitWrite s = cells false true false false s.life := by
  unfold admitWrite; cases s.life <;> rfl

theorem admitRegister_eq_cells (s : State) : admitRegister s = cells true false true true s.life := by
  unfold admitRegister; cases s.life <;> rfl

theorem admitFeed_eq_cells (s : State) : admitFeed s = cells true false true true s.life := by
  unfold admitFeed; cases s.life <;> rfl

theorem cells_true (l : Life) : cells true true true true l = true := by cases l <;> rfl

theorem issuedBy_write (f : CanFrame) (ch : Byte) : issuedBy (.write f ch) = isProducer := by
  funext a; cases a <;> rfl

/-- What each command is: issued by the agents of R112, admitted by the table of R250, checked against the domains of R114. -/
theorem exec_eq_command (i : Instr) (s : State) (hc : isCommand i = true) :
    exec i s = command s (issuedBy i) (tableAdmits i s.life s.shutdown) (operandsInDomain i s) (body i) := by
  cases i
  case init => simp only [exec, execInit, admitInit_eq_cells]; rfl
  case close => simp only [exec, execClose, admitClose_eq_cells]; rfl
  case getdesc => simp only [exec, execGetdesc, admitGetdesc_eq_cells]; rfl
  case write => simp only [exec, execWrite, admitWrite_eq_cells, issuedBy_write]; rfl
  case register => simp only [exec, execRegister, admitRegister_eq_cells]; rfl
  case feed => simp only [exec, execFeed, admitFeed_eq_cells]; rfl
  case cksum => simp only [exec, execCksum, tableAdmits, cells_true]; rfl
  case encode => simp only [exec, execEncode, tableAdmits, cells_true]; rfl
  case verify => simp only [exec, execVerify, tableAdmits, cells_true]; rfl
  all_goals cases hc

/-- A command of an agent that R112 gives it to, and that may step, is refused with the first refusal that applies (R246). -/
theorem exec_command_refused (i : Instr) (s : State) (a : Agent) (r : RefReason) (hi : s.issuer = .port a)
    (hc : isCommand i = true) (hw : issuedBy i a = true) (hm : MayStep s a)
    (hr : refusalOf s (tableAdmits i s.life s.shutdown) (operandsInDomain i s) = some r) :
    exec i s = .next (refuse r s) := by
  rw [exec_eq_command i s hc]
  refine command_refused s _ _ _ _ r ?_ ?_ hr
  · rwa [performer_port s a hi]
  · rwa [mayIssue_port _ s a hi]

/-! ### The refusals of R11 and R196 come before admission and operands (log entry 14) -/

theorem refusalOf_config (s : State) (adm dom : Bool) (h : configOk s.cfg = false) : refusalOf s adm dom = some .config := by
  simp [refusalOf, h]

theorem refusalOf_mode (s : State) (adm dom : Bool) (h : configOk s.cfg = true) (hm : s.cfg.mode = .raw) :
    refusalOf s adm dom = some .mode := by
  simp [refusalOf, h, hm]

theorem construct_of_configOk (c : Config) (h : configOk c = true) : construct c = .ok (State.initial c) := if_pos h

theorem construct_of_not_configOk (c : Config) (h : ¬ configOk c = true) : construct c = .error .config := if_neg h

/-- Settles O16: R11 is what `configOk` checks, and a bad configuration or raw mode is the first refusal of every command. -/
theorem badConfigurationsAreRefusedWhole : Obligations.BadConfigurationsAreRefusedWhole := by
  refine ⟨fun c => ?_, fun i s a hi hc hw hm => ⟨fun hk => ?_, fun hk hraw => ?_⟩⟩
  · rw [← configOk_iff]
    exact ⟨construct_of_configOk c, construct_of_not_configOk c⟩
  · exact exec_command_refused i s a .config hi hc hw hm (refusalOf_config s _ _ hk)
  · exact exec_command_refused i s a .mode hi hc hw hm (refusalOf_mode s _ _ hk hraw)

end Sys2Proof.Machine
end

section
/-! PROOF. The state rules: what reset leaves (R57), the invariants of R35, R38, R49 and R58 at reset and over every step, what no
step undoes (R50, R51, R52), which operation a step performs (R9, R90), and the reads without a value (R58). -/

namespace Sys2Proof.Machine

/-! ### The outbound queue (R35) -/

/-- A frame of the encoder's domain that fits may be appended. -/
theorem TxqInv.append_frame {s t : State} (h : TxqInv s) (f : CanFrame) (ch : Byte) (hd : f.dlc.toNat ≤ 8) (hc : ch.toNat ≤ 1)
    (hn : s.txq.length + 16 ≤ 16 * s.cfg.txqFrames) (hcfg : t.cfg = s.cfg)
    (ht : t.txq = s.txq ++ (encodeFrame s.cfg f ch).toList) : TxqInv t := by
  obtain ⟨_, fs, hfs, hq⟩ := h
  unfold TxqInv
  rw [hcfg, ht]
  refine ⟨by simpa using hn, fs ++ [(f, ch)], fun p hp => ?_, by simp [hq]⟩
  rcases List.mem_append.1 hp with hp | hp
  · exact hfs p hp
  · rw [List.mem_singleton.1 hp]
    exact ⟨hd, hc⟩

/-- The oldest frame may leave. -/
theorem TxqInv.drop_frame {s t : State} (h : TxqInv s) (hcfg : t.cfg = s.cfg) (ht : t.txq = s.txq.drop 16) : TxqInv t := by
  obtain ⟨hn, fs, hfs, hq⟩ := h
  unfold TxqInv
  rw [hcfg, ht]
  refine ⟨by simp only [List.length_drop]; omega, fs.tail, fun p hp => hfs p (List.mem_of_mem_tail hp), ?_⟩
  cases fs with
  | nil => simp [hq]
  | cons p fs => rw [hq, List.flatMap_cons, List.drop_left' (by simp), List.tail_cons]

theorem txqInv_of_empty {s : State} (h : s.txq = []) : TxqInv s := by
  unfold TxqInv
  rw [h]
  exact ⟨Nat.zero_le _, [], by simp, rfl⟩

/-! ### The assemblers (R36, R38) -/

theorem putAsm_asmInv {s : State} (h : AsmInv s) (c : Nat) {a : AsmState} (ha : AsmOk s.cfg a) : AsmInv (putAsm c a s) := by
  obtain ⟨hl, hs⟩ := h
  refine ⟨by simpa using hl, fun b hb => ?_⟩
  rcases List.mem_or_eq_of_mem_set hb with hb | rfl
  · exact hs b hb
  · exact ha

/-- One extraction attempt keeps the assemblers stable. -/
theorem after_asmInv {s : State} (h : AsmInv s) (hc : configOk s.cfg = true) (c : Nat) {a : AsmState} (ha : AsmOk s.cfg a) :
    AsmInv (after c a s (attempt s.cfg a)) :=
  putAsm_asmInv h c (nextAsm_ok s.cfg a hc ha)

/-- EXTRACT leaves what its decision says, whatever it answers. -/
theorem extract_state (c : Nat) (a : AsmState) (s : State) (hc : configOk s.cfg = true) (ha : s.asm[c]? = some a)
    (hok : AsmShape s.cfg a) : (extract c s).state = after c a s (attempt s.cfg a) := by
  rw [extract_eq c a s hc ha hok, runAttempt_eq c a s _ ha]
  cases attempt s.cfg a <;> rfl

theorem extract_asmInv {s : State} (h : AsmInv s) (hc : configOk s.cfg = true) {c : Nat} (hn : c < s.cfg.nChan) :
    AsmInv (extract c s).state := by
  obtain ⟨a, ha, hok⟩ := h.get hn
  rw [extract_state c a s hc ha hok.shape]
  exact after_asmInv h hc c hok

theorem extractLoop_asmInv {s : State} (h : AsmInv s) (hc : configOk s.cfg = true) {c : Nat} (hn : c < s.cfg.nChan) (n : Nat) :
    AsmInv (extractLoop n c s).state := by
  induction n generalizing s with
  | zero => exact h
  | succ n ih =>
    obtain ⟨a, ha, hok⟩ := h.get hn
    have hk := after_asmInv h hc c hok
    rw [extractLoop_succ n c a s hc ha hok.shape]
    cases hd : attempt s.cfg a <;> rw [hd] at hk
    case wait | await | oversize => exact hk
    case drop | take => exact ih hk hc hn

theorem feed_asmInv {s : State} (h : AsmInv s) (hc : configOk s.cfg = true) {c : Nat} (hn : c < s.cfg.nChan) (b : List Byte) :
    AsmInv (feed c b s).state := by
  obtain ⟨a, ha, hok⟩ := h.get hn
  by_cases hb : a.q.length + b.length ≤ s.cfg.rxqCap
  · rw [feed_fits c a b s ha hb]
    have hl := ((configOk_iff s.cfg).1 hc).2.1
    have hp : AsmInv (putAsm c { a with q := a.q ++ b } s) :=
      putAsm_asmInv h c (asmOk_append s.cfg a b hok hl hb)
    exact extractLoop_asmInv hp hc hn _
  · rw [feed_overfull c a b s ha hok.2.1 (by omega)]
    exact h

/-- FRAMECB writes no assembler. -/
theorem canFramecb_asmInv {s : State} (h : AsmInv s) (c : Nat) (w : List Byte) : AsmInv (canFramecb c w s).state := by
  unfold canFramecb
  split
  · exact h
  · split <;> exact h

/-- Clearing the assemblers leaves them at rest. -/
theorem asmInv_of_cleared {s t : State} (h : AsmInv s) (hcfg : t.cfg = s.cfg) (ht : t.asm = s.asm.map fun _ => idleAsm []) :
    AsmInv t := by
  unfold AsmInv
  rw [hcfg, ht]
  refine ⟨by simpa using h.1, fun a ha => ?_⟩
  obtain ⟨_, _, rfl⟩ := List.mem_map.1 ha
  exact asmOk_idle _ _ (Nat.zero_le _)

/-! ### The filter table (R47, R49) -/

/-- Filling the lowest free slot keeps the used slots an initial segment. -/
theorem putSlot_tableInv {s : State} (h : TableInv s) {i : Nat} (hi : freeSlot 0 s.ft = some i) (e : FilterEntry) :
    TableInv (putSlot i e s) := by
  obtain ⟨hl, hp⟩ := h
  obtain ⟨_, _, hbefore⟩ := freeSlot_some _ _ _ hi
  refine ⟨by simpa using hl, List.pairwise_iff_getElem.2 fun j k hj hk hjk => ?_⟩
  simp only [putSlot_ft, List.length_set] at hj hk
  simp only [putSlot_ft, List.getElem_set]
  by_cases hji : i = j
  · simp [hji]
  · by_cases hki : i = k
    · obtain ⟨d, hd⟩ := hbefore j (by omega)
      simp [hji, (List.getElem?_eq_some_iff.1 hd).2]
    · simpa [hji, hki] using List.pairwise_iff_getElem.1 hp j k hj hk hjk

/-! ### The lifecycle and the sequencer (R31, R32, R40, R58) -/

/-- While the loop runs and goes on running, only what its next phase needs has to be said. -/
theorem LoopInv.of_active {s t : State} (h : LoopInv s) (hs : Active s) (hlife : t.life = s.life) (ht : Active t)
    (hsleep : t.ph = .sleep → t.ls = .idle) (hxfer : t.ph = .xfer → t.txbuf.isSome = true ∧ t.txkind.isSome = true)
    (hrx : t.ph = .rx → t.rxbuf.isSome = true) : LoopInv t := by
  obtain ⟨hoff, hclosed, _⟩ := h
  have notOff : ∀ {u : State}, Active u → u.ls ≠ .off := fun hu he => by simp [Active, he] at hu
  have notStopped : ∀ {u : State}, Active u → u.ls ≠ .stopped := fun hu he => by simp [Active, he] at hu
  refine ⟨⟨fun he => absurd he (notOff ht), fun he => absurd (hoff.2 (hlife ▸ he)) (notOff hs)⟩,
    fun he => absurd (hclosed (hlife ▸ he)) (notStopped hs), fun he => absurd he (notStopped ht),
    fun _ => hsleep, fun _ => hxfer, fun _ => hrx⟩

/-- Both outcomes of INIT (R195). -/
theorem initState_loopInv {s : State} (h : LoopInv s) (hl : s.life = .uninit) (ok : Bool) : LoopInv (initState ok s) := by
  have hoff : s.ls = .off := h.1.2 (.inl hl)
  cases ok
  case true => simp [initState, LoopInv]
  case false => simp [initState, LoopInv, hoff]

/-- CLOSE only sets the mark that a stopped loop has already (R197). -/
theorem putShutdown_loopInv {s : State} (h : LoopInv s) : LoopInv (putShutdown true s) := by
  obtain ⟨hoff, hclosed, hstopped, hrest⟩ := h
  exact ⟨hoff, hclosed, fun he => ⟨(hstopped he).1, rfl⟩, hrest⟩

/-- The loop stops at TOP, on shutdown (R215). -/
theorem LoopInv.stop {s : State} (h : LoopInv s) (hs : Active s) (hp : s.ph = .top) (hd : s.shutdown = true) :
    LoopInv { s with ls := .stopped } := by
  have hlife : ¬(s.life = .uninit ∨ s.life = .failed) := fun he => by simp [Active, h.1.2 he] at hs
  refine ⟨⟨nofun, fun he => absurd he hlife⟩, fun _ => rfl, fun _ => ⟨hp, hd⟩, ?_, ?_, ?_⟩ <;>
    exact fun he => by simp [Active] at he

/-- CLOSE.JOIN closes a block whose loop has stopped (R200). -/
theorem LoopInv.join {s : State} (h : LoopInv s) (hs : s.ls = .stopped) (q : ByteQueue) (l : List AsmState) :
    LoopInv { s with txq := q, asm := l, life := .closed } := by
  obtain ⟨_, _, hstopped, hrest⟩ := h
  exact ⟨by simp [hs], fun _ => hs, hstopped, hrest⟩

/-! ### One step keeps every invariant -/

/-- What works on an assembler alone keeps the other invariants. -/
theorem AsmFrame.inv {c : Nat} {s t : State} (h : AsmFrame c s t) (hi : Inv s) (ha : AsmInv t) : Inv t := by
  obtain ⟨hq, _, hf, hl, hs⟩ := hi
  rw [h.1] at ha ⊢
  exact ⟨hq, ha, hf, hl, hs⟩

theorem inv_of_feed {s u : State} {c : Nat} {b : List Byte} (hi : Inv s) (hc : configOk s.cfg = true) (hn : c < s.cfg.nChan)
    (hu : (feed c b s).state = u) : Inv u := by
  have ⟨_, ha, _⟩ := hi
  subst hu
  exact (feed_frame c b s).inv hi (feed_asmInv ha hc hn b)

/-- Whatever an operation does under a configuration that R11 allows keeps the invariants. -/
theorem Effect.inv {s v : State} (h : Effect s v) (hc : configOk s.cfg = true) (hi : Inv s) : Inv v := by
  have ⟨hq, ha, hf, hl, hs⟩ := hi
  cases h
  case same => exact hi
  case init ok l n hu =>
    have hk : LoopInv (initState ok { s with initIn := l, draws := n }) :=
      initState_loopInv (s := { s with initIn := l, draws := n }) hl hu ok
    cases ok <;> exact ⟨hq, ha, hf, hk, hs⟩
  case close => exact ⟨hq, ha, hf, putShutdown_loopInv hl, hs⟩
  case write f ch _ hd hch hn => exact ⟨hq.append_frame f ch hd hch hn rfl rfl, ha, hf, hl, hs⟩
  case register e i _ hfree => exact ⟨hq, ha, putSlot_tableInv hf hfree e, hl, hs⟩
  case feed c b hn _ => exact inv_of_feed hi hc hn rfl
  case extract c hn _ => exact (extract_frame c s).inv hi (extract_asmInv ha hc hn)
  case framecb c w _ _ => exact (canFramecb_frame c c w s).inv hi (canFramecb_asmInv ha c w)
  case dispatch => exact hi
  case stop hact hp hd => exact ⟨hq, ha, hf, hl.stop hact hp hd, hs⟩
  case topFrame w hact _ _ _ =>
    exact ⟨hq.drop_frame rfl rfl, ha, hf, hl.of_active hact rfl hact nofun (fun _ => ⟨rfl, rfl⟩) nofun, hs⟩
  case topIdle hact _ _ _ =>
    exact ⟨hq, ha, hf, hl.of_active hact rfl hact nofun (fun _ => ⟨rfl, rfl⟩) nofun, hs⟩
  case xfer tx k a l n hact _ _ _ =>
    cases a with
    | received rx => exact ⟨hq, ha, hf, hl.of_active hact rfl hact nofun nofun (fun _ => rfl), hs⟩
    | failed => exact ⟨hq, ha, hf, hl.of_active hact rfl hact nofun nofun nofun, hs⟩
  case discard r hact _ => exact ⟨hq, ha, hf, hl.of_active hact rfl hact nofun nofun nofun, hs⟩
  case routed c w r u hact _ hn hu =>
    obtain ⟨uq, ua, uf, ul, us⟩ : Inv u := inv_of_feed hi hc hn (by rw [hu]; rfl)
    have uact : Active u := by rw [(feed_ok_frame hu).1]; exact hact
    exact ⟨uq, ua, uf, ul.of_active uact rfl uact nofun nofun nofun, us⟩
  case routedFault c w k _ _ hn hu => exact inv_of_feed hi hc hn (by rw [hu]; rfl)
  case drain hact _ _ => exact ⟨hq, ha, hf, hl.of_active hact rfl (.inl rfl) nofun nofun nofun, hs⟩
  case idle hact _ _ => exact ⟨hq, ha, hf, hl.of_active hact rfl (.inr rfl) (fun _ => rfl) nofun nofun, hs⟩
  case sleep hidle _ => exact ⟨hq, ha, hf, hl.of_active (.inr hidle) rfl (.inr hidle) nofun nofun nofun, hs⟩
  case join _ hstop => exact ⟨txqInv_of_empty rfl, asmInv_of_cleared ha rfl rfl, hf, hl.join hstop _ _, hs⟩

theorem Consumed.inv {s u : State} (h : Consumed s u) (hi : Inv s) : Inv u := by
  obtain ⟨_, _, _, rfl⟩ := h
  exact hi

theorem Inv.raiseFault {s : State} (h : Inv s) (k : Fault) (a : Agent) : Inv (raiseFault k a s) := by
  obtain ⟨hq, ha, hf, hl, hfaults, hhalted⟩ := h
  exact ⟨hq, ha, hf, hl, setInsert_pairwise _ _ _ hfaults, setInsert_pairwise _ _ _ hhalted⟩

/-- Settles O53: a step holds, refuses, or performs one operation, and whatever an operation does keeps every invariant. -/
theorem stepKeepsTheInvariants : Obligations.StepKeepsTheInvariants := by
  intro s t hi h
  obtain ⟨u, hu, h⟩ := step_next s t h
  have iu : Inv u := hu.inv hi
  rcases h with rfl | ⟨r, rfl⟩ | ⟨i, a, _, ⟨_, hc, _⟩, hr, hp⟩
  · exact iu
  · exact iu
  · have iv : Inv (body i u).state := (body_effect i u hr).inv hc iu
    rcases hp with ⟨r, v, hb, rfl⟩ | ⟨k, v, hb, rfl⟩ <;> rw [hb] at iv
    · exact iv
    · exact iv.raiseFault k a

/-! ### Reset -/

theorem inv_initial (c : Config) : Inv (State.initial c) := by
  refine ⟨txqInv_of_empty rfl, ⟨by simp [State.initial], fun a ha => ?_⟩, ⟨by simp [State.initial], ?_⟩,
    by simp [State.initial, LoopInv], .nil, .nil⟩
  · rw [List.eq_of_mem_replicate ha]
    exact asmOk_idle c [] (Nat.zero_le _)
  · exact List.pairwise_replicate.2 (.inr id)

/-- Settles O52: the invariants hold at reset under every configuration, so also under those that R11 allows. -/
theorem resetMeetsTheInvariants : Obligations.ResetMeetsTheInvariants := by
  refine ⟨inv_initial {}, ?_⟩
  rintro _ ⟨c, _, rfl⟩
  exact inv_initial c

/-- Settles O51, field by field from `State.initial`. -/
theorem resetValues : Obligations.ResetValues := by
  intro c
  refine ⟨rfl, rfl, rfl, List.length_replicate, fun a ha => ?_, rfl, rfl, rfl, rfl, rfl, rfl, rfl, rfl, rfl, rfl⟩
  rw [List.eq_of_mem_replicate ha]
  exact ⟨rfl, rfl, rfl, rfl⟩

/-! ### What no step undoes (R50, R51, R52) -/

/-- From `s` to `t` the configuration is the same, and no event, fault, refusal mark or halted agent is lost. -/
def StickyKept (s t : State) : Prop :=
  t.cfg = s.cfg ∧ s.evlog <+: t.evlog ∧ (∀ k ∈ s.faults, k ∈ t.faults) ∧ (s.refused = true → t.refused = true) ∧
    ∀ a ∈ s.halted, a ∈ t.halted

theorem StickyKept.refl (s : State) : StickyKept s s := ⟨rfl, List.prefix_rfl, fun _ => id, id, fun _ => id⟩

theorem StickyKept.trans {s t u : State} (h : StickyKept s t) (k : StickyKept t u) : StickyKept s u := by
  obtain ⟨h1, h2, h3, h4, h5⟩ := h
  obtain ⟨k1, k2, k3, k4, k5⟩ := k
  exact ⟨k1.trans h1, h2.trans k2, fun x hx => k3 x (h3 x hx), fun hx => k4 (h4 hx), fun x hx => k5 x (h5 x hx)⟩

/-- What only appends events keeps the sticky state. -/
theorem stickyKept_of_events {s t : State} (es : List Event) (hlog : t.evlog = s.evlog ++ es) (hcfg : t.cfg = s.cfg)
    (hfaults : t.faults = s.faults) (hrefused : t.refused = s.refused) (hhalted : t.halted = s.halted) : StickyKept s t := by
  unfold StickyKept
  rw [hlog, hcfg, hfaults, hrefused, hhalted]
  exact ⟨rfl, List.prefix_append _ _, fun _ => id, id, fun _ => id⟩

theorem AsmFrame.stickyKept {c : Nat} {s t : State} (h : AsmFrame c s t) : StickyKept s t := by
  obtain ⟨h, _, _, es, hlog, _⟩ := h
  exact stickyKept_of_events es hlog (by rw [h]) (by rw [h]) (by rw [h]) (by rw [h])

/-- Whatever an operation does appends to the log and keeps the sets and the mark: its fault or refusal comes after it. -/
theorem Effect.stickyKept {s v : State} (h : Effect s v) : StickyKept s v := by
  cases h
  case feed c b _ _ => exact (feed_frame c b s).stickyKept
  case extract c _ _ => exact (extract_frame c s).stickyKept
  case framecb c w _ _ => exact (canFramecb_frame c c w s).stickyKept
  case routed hf => exact (feed_ok_frame hf).stickyKept
  case routedFault hf => exact (feed_stop_frame hf).stickyKept
  case dispatch => exact stickyKept_of_events _ rfl rfl rfl rfl rfl
  case discard => exact stickyKept_of_events _ rfl rfl rfl rfl rfl
  case xfer tx k a _ _ _ _ _ _ =>
    cases a with
    | received rx => exact stickyKept_of_events [_] rfl rfl rfl rfl rfl
    | failed => exact stickyKept_of_events [_, _] (List.append_assoc _ _ _) rfl rfl rfl rfl
  case init ok _ _ _ => cases ok <;> exact .refl s
  all_goals exact .refl s

theorem Consumed.stickyKept {s u : State} (h : Consumed s u) : StickyKept s u := by
  obtain ⟨_, _, _, rfl⟩ := h
  exact .refl s

theorem refuse_stickyKept (r : RefReason) (s : State) : StickyKept s (refuse r s) :=
  ⟨rfl, List.prefix_rfl, fun _ => id, fun _ => rfl, fun _ => id⟩

theorem raiseFault_stickyKept (k : Fault) (a : Agent) (s : State) : StickyKept s (raiseFault k a s) :=
  ⟨rfl, List.prefix_rfl, fun x => mem_setInsert faultKey k x s.faults, id, fun x => mem_setInsert agentKey a x s.halted⟩

/-- Settles O18: taking the input, the operation's effect and the way the step ends each keep the sticky state. -/
theorem configurationAndStickyStateAreKept : Obligations.ConfigurationAndStickyStateAreKept := by
  intro s t h
  obtain ⟨u, v, hu, hv, hend⟩ := step_effect s t h
  have hsv : StickyKept s v := hu.stickyKept.trans hv.stickyKept
  rcases hend with ⟨r, rfl⟩ | ⟨r, _, rfl⟩ | ⟨k, a, rfl⟩
  · exact hsv
  · exact hsv.trans (refuse_stickyKept r v)
  · exact hsv.trans (raiseFault_stickyKept k a v)

/-! ### Which operation a step performs (R9, R90, R109) -/

theorem nextInput_inbox (s : State) (x : Input) (rest : List Input) (h : s.inbox = x :: rest) :
    nextInput s = (x, { s with inbox := rest }) := by simp [nextInput, h]

theorem nextInput_scheduled (s : State) (h : s.inbox = []) :
    nextInput s = (turnInput (Config.schedule s.draws) s, { s with draws := s.draws + 1 }) := by simp [nextInput, h]

/-- A step performs what its next input is fetched as. -/
theorem step_of_fetchInput (s u v : State) (x : Input) (i : Instr) (hn : nextInput s = (x, u)) (hf : fetchInput x u = .run i v) :
    step s = exec i v := by simp [step, fetch, hn, hf]

theorem fetchBytes_of_decode (bytes r : List Byte) (i : Instr) (s : State) (h : decode .command bytes = .ok (i, r)) :
    fetchBytes bytes s = .run i s := by simp [fetchBytes, h]

/-- Sixteen bytes decode on the link as the WireFrame row that they fit (R109). -/
theorem decode_link_toList (w : Bytes 16) (i : Instr) : decode .link w.toList = .ok (i, []) ↔ decodeFrame w = some i := by
  have ht : w.toList.take 16 = w.toList := List.take_of_length_le (by simp)
  have hd : w.toList.drop 16 = [] := List.drop_of_length_le (by simp)
  simp only [decode, decodeLink, ht, hd, bytes16?_toList]
  cases decodeFrame w <;> simp

theorem fetchFrame_of_decode (w : Bytes 16) (i : Instr) (s : State) (hb : s.rxbuf = some w)
    (h : decode .link w.toList = .ok (i, [])) : fetchFrame s = .run i s := by
  simp [fetchFrame, hb, (decode_link_toList w i).1 h]

/-- The Worker's operation in a phase (R41, R42). -/
def phaseInstr : Phase → Instr
  | .top => .tickTop
  | .xfer => .tickXfer
  | .rx => .tickRx
  | .decide => .tickDecide
  | .sleep => .tickSleep

theorem decode_phaseOp (p : Phase) : decode .command [phaseOp p] = .ok (phaseInstr p, []) := by cases p <;> rfl

/-- Settles O6, by where the next input comes from: the command port, the block, `rxbuf`, or the schedule. -/
theorem stepRunsTheDecodedInstruction : Obligations.StepRunsTheDecodedInstruction := by
  refine ⟨fun s a bytes r rest i hin hd => ?_, fun s bytes r rest i hin hd => ?_, fun s w rest i hin hb hd => ?_,
    fun s hin => ?_⟩
  · exact step_of_fetchInput s _ _ _ i (nextInput_inbox s _ _ hin) (fetchBytes_of_decode bytes r i _ hd)
  · exact step_of_fetchInput s _ _ _ i (nextInput_inbox s _ _ hin) (fetchBytes_of_decode bytes r i _ hd)
  · exact step_of_fetchInput s _ _ _ i (nextInput_inbox s _ _ hin) (fetchFrame_of_decode w i _ hb hd)
  · have hn := nextInput_scheduled s hin
    cases ht : Config.schedule s.draws <;> rw [ht] at hn
    case port a bytes =>
      intro i r hd
      exact step_of_fetchInput s _ _ _ i hn (fetchBytes_of_decode bytes r i _ hd)
    case join => exact step_of_fetchInput s _ _ _ .closeJoin hn (fetchBytes_of_decode [0x15] [] _ _ rfl)
    case worker =>
      have h := step_of_fetchInput s _ _ _ _ hn (fetchBytes_of_decode _ [] _ _ (decode_phaseOp s.ph))
      dsimp only
      rw [h]
      cases s.ph <;> rfl

/-! ### Reads without a value (R58) -/

theorem tickXfer_without_txbuf (s : State) (h : s.txbuf = none) : tickXfer s = .stop .internal s := by simp [tickXfer, h]

theorem tickRx_without_rxbuf (s : State) (h : s.rxbuf = none) : tickRx s = .stop .internal s := by simp [tickRx, h]

/-- Settles O19: the Worker's step is performed, and stops at the read with nothing written. -/
theorem readsWithoutValueFault : Obligations.ReadsWithoutValueFault := by
  intro s hb hs ha
  have worker : ∀ i, mover i s = .worker → runnable i s → body i s = .stop .internal s →
      exec i s = .next (raiseFault .internal .worker s) := by
    intro i hm hr hbody
    rw [exec_worker i s hs hm hr, hbody]
    rfl
  refine ⟨fun hp ht => ?_, fun hp ht => ?_⟩
  · exact worker .tickXfer (by simp [mover, hb]) ⟨hb, (phaseEnabled_iff _ _).2 ⟨hp, ha⟩⟩ (tickXfer_without_txbuf s ht)
  · exact worker .tickRx (by simp [mover, hb]) ⟨hb, (phaseEnabled_iff _ _).2 ⟨hp, ha⟩⟩ (tickRx_without_rxbuf s ht)

end Sys2Proof.Machine
end

section
/-! PROOF. Memory: the queue primitives (R71 to R76), what a step does to the outbound queue (R34, R91), and who writes the
two buffers and logs an exchange (R98, R219). -/

namespace Sys2Proof.Machine

/-! ### The queue primitives -/

/-- DEQ within the count splits the queue, and DROP is the rest of that split (R72, R75). -/
theorem deq_splits (q : ByteQueue) (n : Nat) (h : n ≤ q.length) :
    ∃ l r, deq q n = some (l, r) ∧ l.length = n ∧ q = l ++ r ∧ dropFront q n = some r := by
  have hd : deq q n = some (q.take n, q.drop n) := (deq_eq_some_iff q n _ _).2 ⟨h, rfl, rfl⟩
  exact ⟨q.take n, q.drop n, hd, List.length_take_of_le h, (List.take_append_drop n q).symm, by simp [dropFront, hd]⟩

theorem dropFront_eq_none (q : ByteQueue) (n : Nat) (h : q.length < n) : dropFront q n = none := by
  simp [dropFront, (deq_eq_none_iff q n).2 h]

/-- WINDOW within the queue has the queue's own bytes from its offset on (R76). -/
theorem window_reads (q : ByteQueue) (k n : Nat) (h : k + n ≤ q.length) :
    ∃ w, window q k n = some w ∧ w.length = n ∧ ∀ j : Nat, j < n → w[j]? = q[k + j]? := by
  refine ⟨(q.drop k).take n, (window_eq_some_iff q k n _).2 ⟨h, rfl⟩, ?_, fun j hj => ?_⟩
  · exact List.length_take_of_le (by rw [List.length_drop]; omega)
  · rw [List.getElem?_take_of_lt hj, List.getElem?_drop]

/-- Settles O20: each primitive's two outcomes, from the lemma that says when it gives something. -/
theorem queuePrimitivesFollowTheirRules : Obligations.QueuePrimitivesFollowTheirRules := by
  intro cap n k q b
  exact ⟨rfl, fun h => (enq_eq_some_iff cap q b _).2 ⟨h, rfl⟩, (enq_eq_none_iff cap q b).2, deq_splits q n,
    fun h => ⟨(deq_eq_none_iff q n).2 h, dropFront_eq_none q n h⟩, List.getElem?_eq_getElem, List.getElem?_eq_none,
    window_reads q k n, (window_eq_none_iff q k n).2⟩

/-! ### What a step does to the queue, the buffers and the log -/

/-- The outbound queue, the buffers and the log are the same in `s` and `t`. -/
def LinkDataKept (s t : State) : Prop :=
  t.txq = s.txq ∧ t.txbuf = s.txbuf ∧ t.txkind = s.txkind ∧ t.rxbuf = s.rxbuf ∧ t.evlog = s.evlog

theorem Consumed.linkDataKept {s u : State} (h : Consumed s u) : LinkDataKept s u := by
  obtain ⟨_, _, _, rfl⟩ := h
  exact ⟨rfl, rfl, rfl, rfl, rfl⟩

/-- The end of a performed operation, its result or its fault, is not written into the queue, the buffers or the log. -/
theorem Performed.linkDataKept {a : Agent} {x : Flow Answer} {t : State} (h : Performed a x t) : LinkDataKept x.state t := by
  rcases h with ⟨r, v, rfl, rfl⟩ | ⟨k, v, rfl, rfl⟩ <;> exact ⟨rfl, rfl, rfl, rfl, rfl⟩

/-- A step leaves the queue, the buffers and the log as they are, or as the body of the fetched operation leaves them. -/
theorem step_linkData {s t : State} (h : step s = .next t) : LinkDataKept s t ∨
    ∃ i u, fetch s = .run i u ∧ Consumed s u ∧ runnable i u ∧ LinkDataKept (body i u).state t := by
  obtain ⟨u, hu, rfl | ⟨r, rfl⟩ | ⟨i, a, hf, _, hr, hp⟩⟩ := step_next s t h
  · exact .inl hu.linkDataKept
  · exact .inl hu.linkDataKept
  · exact .inr ⟨i, u, hf, hu, hr, hp.linkDataKept⟩

/-! ### The outbound queue (R34, R91) -/

/-- The moves of the outbound queue from `s` to `t`. -/
def TxqMove (s t : State) : Prop :=
  t.txq = s.txq ∨
  (∃ (f : CanFrame) (ch : Byte), s.life = .running ∧ f.dlc.toNat ≤ 8 ∧ ch.toNat ≤ 1 ∧
    s.txq.length + 16 ≤ 16 * s.cfg.txqFrames ∧ t.txq = s.txq ++ (encodeFrame s.cfg f ch).toList) ∨
  (∃ w : Bytes 16, Active s ∧ s.ph = .top ∧ s.txq = w.toList ++ t.txq ∧ t.txbuf = some w ∧ t.txkind = some .frame) ∨
  (s.ls = .stopped ∧ s.life = .running ∧ t.txq = [])

theorem AsmFrame.txq_eq {c : Nat} {s t : State} (h : AsmFrame c s t) : t.txq = s.txq := by rw [h.1]

/-- WRITE, TICK.TOP with a whole frame queued, and CLOSE.JOIN are the only effects that move the queue. -/
theorem Effect.txqMove {s v : State} (h : Effect s v) : TxqMove s v := by
  cases h
  case write f ch hl hd hc hq => exact .inr (.inl ⟨f, ch, hl, hd, hc, hq, rfl⟩)
  case topFrame w ha hp _ hw => exact .inr (.inr (.inl ⟨w, ha, hp, hw, rfl, rfl⟩))
  case join hl hs => exact .inr (.inr (.inr ⟨hs, hl, rfl⟩))
  case feed c b _ _ => exact .inl (feed_frame c b s).txq_eq
  case extract c _ _ => exact .inl (extract_frame c s).txq_eq
  case framecb c w _ _ => exact .inl (canFramecb_frame c c w s).txq_eq
  case routed hf => exact .inl (feed_ok_frame hf).txq_eq
  case routedFault hf => exact .inl (feed_stop_frame hf).txq_eq
  case init ok _ _ _ => cases ok <;> exact .inl rfl
  case xfer tx k a _ _ _ _ _ _ => cases a <;> exact .inl rfl
  all_goals exact .inl rfl

theorem Consumed.txqMove {s u v : State} (h : Consumed s u) (hm : TxqMove u v) : TxqMove s v := by
  obtain ⟨_, _, _, rfl⟩ := h
  exact hm

theorem TxqMove.of_linkDataKept {s v t : State} (hm : TxqMove s v) (h : LinkDataKept v t) : TxqMove s t := by
  obtain ⟨hq, hb, hk, _, _⟩ := h
  unfold TxqMove
  rw [hq, hb, hk]
  exact hm

/-- Settles O58: a step that is held or refused keeps the queue, and a performed one moves it as its effect does. -/
theorem outboundQueueIsAFifoOfFrames : Obligations.OutboundQueueIsAFifoOfFrames := by
  intro s t h
  rcases step_linkData h with hk | ⟨i, u, _, hu, hr, hk⟩
  · exact .inl hk.1
  · exact (hu.txqMove (body_effect i u hr).txqMove).of_linkDataKept hk

/-! ### The buffers and the exchange record (R98, R219, R281) -/

/-- TICK.TOP writes neither the receive buffer nor the log (R215). -/
theorem tickTop_keeps (s : State) : (tickTop s).state.rxbuf = s.rxbuf ∧ (tickTop s).state.evlog = s.evlog := by
  unfold tickTop
  split
  · exact ⟨rfl, rfl⟩
  · split <;> exact ⟨rfl, rfl⟩

/-- TICK.XFER stops at a missing value, or exchanges what stands in the transmit buffer (R58, R219). -/
theorem tickXfer_state (s : State) : (tickXfer s).state = s ∨ ∃ tx k a l n, s.txbuf = some tx ∧ s.txkind = some k ∧
    (tickXfer s).state = exchange tx k a { s with xferIn := l, draws := n } := by
  unfold tickXfer
  split
  · next tx k ht hk =>
    obtain ⟨l, n, e⟩ := drawXfer_state s
    exact .inr ⟨tx, k, _, l, n, ht, hk, by rw [e]; rfl⟩
  · exact .inl rfl

theorem exchange_txbuf (tx : Bytes 16) (k : TxKind) (a : XferAnswer) (s : State) : (exchange tx k a s).txbuf = s.txbuf := by
  cases a <;> rfl

/-- The one XFER record of an exchange has what was sent and its kind (R219). -/
theorem exchange_logs {tx tx' : Bytes 16} {k k' : TxKind} {a : XferAnswer} {ok : Bool} {rx : Option (Bytes 16)} {s : State}
    {es : List Event} (h : (exchange tx k a s).evlog = s.evlog ++ es) (hm : .xfer tx' k' ok rx ∈ es) : tx' = tx ∧ k' = k := by
  cases a with
  | received w =>
    obtain rfl : [Event.xfer tx k true (some w)] = es := List.append_cancel_left h
    simp only [List.mem_singleton, Event.xfer.injEq] at hm
    exact ⟨hm.1, hm.2.1⟩
  | failed =>
    obtain rfl : [Event.xfer tx k false none, .xferFail] = es := List.append_cancel_left ((List.append_assoc _ _ _).symm.trans h)
    simp only [List.mem_cons, Event.xfer.injEq, List.not_mem_nil, or_false, reduceCtorEq] at hm
    exact ⟨hm.1, hm.2.1⟩

theorem tickXfer_txbuf (s : State) : (tickXfer s).state.txbuf = s.txbuf := by
  obtain h | ⟨tx, k, a, l, n, _, _, h⟩ := tickXfer_state s
  · rw [h]
  · rw [h, exchange_txbuf]

theorem tickXfer_logs {tx : Bytes 16} {k : TxKind} {ok : Bool} {rx : Option (Bytes 16)} {s : State} {es : List Event}
    (h : (tickXfer s).state.evlog = s.evlog ++ es) (hm : .xfer tx k ok rx ∈ es) : s.txbuf = some tx ∧ s.txkind = some k := by
  obtain e | ⟨tx', k', a, l, n, ht, hk, e⟩ := tickXfer_state s <;> rw [e] at h
  · rw [List.self_eq_append_right.1 h] at hm
    cases hm
  · obtain ⟨rfl, rfl⟩ := exchange_logs h hm
    exact ⟨ht, hk⟩

/-- No exchange is among the events that are logged where the buffers are kept. -/
theorem BuffersKept.not_logs_xfer {s v : State} (h : BuffersKept s v) {es : List Event} (he : v.evlog = s.evlog ++ es)
    {tx : Bytes 16} {k : TxKind} {ok : Bool} {rx : Option (Bytes 16)} : .xfer tx k ok rx ∉ es := by
  obtain ⟨_, _, fs, hf, hn⟩ := h
  obtain rfl : fs = es := List.append_cancel_left (hf.symm.trans he)
  exact fun hm => absurd (hn _ hm) (by simp [isXfer])

theorem eq_tickTop_of_txbuf_ne {i : Instr} {s : State} (h : (body i s).state.txbuf ≠ s.txbuf) : i = .tickTop := by
  by_contra hi
  by_cases hx : i = .tickXfer
  · subst hx
    exact h (tickXfer_txbuf s)
  · exact h (body_buffersKept i s hi hx).1

theorem eq_tickXfer_of_rxbuf_ne {i : Instr} {s : State} (h : (body i s).state.rxbuf ≠ s.rxbuf) : i = .tickXfer := by
  by_contra hx
  by_cases hi : i = .tickTop
  · subst hi
    exact h (tickTop_keeps s).1
  · exact h (body_buffersKept i s hi hx).2.1

theorem eq_tickXfer_of_logs_xfer {i : Instr} {s : State} {es : List Event} (h : (body i s).state.evlog = s.evlog ++ es)
    {tx : Bytes 16} {k : TxKind} {ok : Bool} {rx : Option (Bytes 16)} (hm : .xfer tx k ok rx ∈ es) : i = .tickXfer := by
  by_contra hx
  by_cases hi : i = .tickTop
  · subst hi
    rw [List.self_eq_append_right.1 ((tickTop_keeps s).2.symm.trans h)] at hm
    cases hm
  · exact (body_buffersKept i s hi hx).not_logs_xfer h hm

/-- A Worker step that runs after its input is taken was enabled before it, and is the block's (R116, R210). -/
theorem Consumed.worker_runs {s u : State} (h : Consumed s u) {p : Phase} (hr : u.issuer = .block ∧ phaseEnabled p u = true) :
    u.issuer = .block ∧ Active s ∧ s.ph = p := by
  obtain ⟨_, _, _, rfl⟩ := h
  obtain ⟨hb, he⟩ := hr
  obtain ⟨hp, ha⟩ := (phaseEnabled_iff _ _).1 he
  exact ⟨hb, ha, hp⟩

/-- Settles O60: a step that is held or refused writes neither buffer and logs nothing, and of the bodies only TICK.TOP's writes
`txbuf` and only TICK.XFER's writes `rxbuf` or logs an exchange. -/
theorem onlyTheWorkerTouchesTheBuffers : Obligations.OnlyTheWorkerTouchesTheBuffers := by
  intro s t h
  rcases step_linkData h with ⟨_, htx, _, hrx, hlog⟩ | ⟨i, u, hf, hu, hr, _, htx, _, hrx, hlog⟩
  · refine ⟨fun hn => absurd htx hn, fun hn => absurd hrx hn, fun es tx k ok rx he hm => ?_⟩
    rw [List.self_eq_append_right.1 (hlog.symm.trans he)] at hm
    cases hm
  · obtain ⟨_, utx, uk, urx, ulog⟩ := hu.linkDataKept
    rw [htx, hrx, hlog, ← utx, ← uk, ← urx, ← ulog]
    refine ⟨fun hn => ?_, fun hn => ?_, fun es tx k ok rx he hm => ?_⟩
    · obtain rfl := eq_tickTop_of_txbuf_ne hn
      obtain ⟨hb, ha, hp⟩ := hu.worker_runs hr
      exact ⟨ha, hp, u, hf, hb⟩
    · obtain rfl := eq_tickXfer_of_rxbuf_ne hn
      obtain ⟨hb, ha, hp⟩ := hu.worker_runs hr
      exact ⟨ha, hp, u, hf, hb⟩
    · obtain rfl := eq_tickXfer_of_logs_xfer he hm
      obtain ⟨hb, ha, hp⟩ := hu.worker_runs hr
      obtain ⟨ht, hk⟩ := tickXfer_logs he hm
      exact ⟨ha, hp, ht, hk, u, hf, hb⟩

end Sys2Proof.Machine
end

section
/-! PROOF. The encodings (R100, R112, R113): what each operand reader accepts, the row of every code, and from them that decoding and
encoding are inverse to each other in both spaces. -/

namespace Sys2Proof

/-! ### What a reader of operands accepts -/

/-- A reader's first operand, taken off the front of the bytes. -/
theorem Agree.bind_ok_iff {α β : Type} {r : Reader α} {w : α → List Byte} (h : Agree r w) (l : List Byte)
    (f : α × List Byte → Except DecodeError β) (y : β) :
    (r l >>= f) = .ok y ↔ ∃ x l', l = w x ++ l' ∧ f (x, l') = .ok y := by
  constructor
  · intro hy
    obtain ⟨⟨x, l'⟩, hr, hf⟩ := bind_eq_ok _ _ _ hy
    exact ⟨x, l', h.writes _ _ _ hr, hf⟩
  · rintro ⟨x, l', rfl, hf⟩
    rw [h.reads, bind_ok, hf]

theorem readNone_ok_iff (j : Instr) (l : List Byte) (i : Instr) (rest : List Byte) :
    readNone j l = .ok (i, rest) ↔ l = rest ∧ j = i := by
  simp [readNone, and_comm]

theorem readInit_ok_iff (l : List Byte) (i : Instr) (rest : List Byte) :
    readInit l = .ok (i, rest) ↔ ∃ dev : Ref, l = leBytes 8 dev.toNat ++ rest ∧ .init dev = i := by
  simp [readInit, (agree_word 8).bind_ok_iff]

theorem readExtract_ok_iff (l : List Byte) (i : Instr) (rest : List Byte) :
    readExtract l = .ok (i, rest) ↔ ∃ ch, l = ch :: rest ∧ .extract ch = i := by
  simp [readExtract, agree_byte.bind_ok_iff]

theorem readOneSeq_ok_iff (k : List Byte → Instr) (l : List Byte) (i : Instr) (rest : List Byte) :
    readOneSeq k l = .ok (i, rest) ↔ ∃ s, l = putSeq s ++ rest ∧ k s = i := by
  simp [readOneSeq, agree_seq.bind_ok_iff]

theorem readChanSeq_ok_iff (k : Byte → List Byte → Instr) (l : List Byte) (i : Instr) (rest : List Byte) :
    readChanSeq k l = .ok (i, rest) ↔ ∃ ch s, l = ch :: putSeq s ++ rest ∧ k ch s = i := by
  simp [readChanSeq, agree_byte.bind_ok_iff, agree_seq.bind_ok_iff]

theorem readFrameChan_ok_iff (k : CanFrame → Byte → Instr) (l : List Byte) (i : Instr) (rest : List Byte) :
    readFrameChan k l = .ok (i, rest) ↔ ∃ f ch, l = putCanFrame f ++ [ch] ++ rest ∧ k f ch = i := by
  simp [readFrameChan, agree_canFrame.bind_ok_iff, agree_byte.bind_ok_iff]

theorem readDispatch_ok_iff (l : List Byte) (i : Instr) (rest : List Byte) :
    readDispatch l = .ok (i, rest) ↔ ∃ ch f, l = ch :: putDecFrame f ++ rest ∧ .dispatch ch f = i := by
  simp [readDispatch, agree_byte.bind_ok_iff, agree_decFrame.bind_ok_iff]

theorem readRegister_ok_iff (l : List Byte) (i : Instr) (rest : List Byte) :
    readRegister l = .ok (i, rest) ↔ ∃ (p m : Word) (e : Bool) (cb ctx : Ref),
      l = leBytes 4 p.toNat ++ leBytes 4 m.toNat ++ putBit e :: (leBytes 8 cb.toNat ++ leBytes 8 ctx.toNat) ++ rest ∧
        .register p m e cb ctx = i := by
  simp [-Bool.exists_bool, readRegister, (agree_word 4).bind_ok_iff, (agree_word 8).bind_ok_iff, agree_bit.bind_ok_iff]

/-! ### The rows of the command port (R112) -/

/-- What the reader of code `b` takes is the encoding of a command whose command byte is `b`. -/
def ReadsRow (b : Byte) (r : Reader Instr) : Prop :=
  ∀ l i rest, r l = .ok (i, rest) → i.space = .command ∧ b :: l = encode i ++ rest

theorem readsRow_none {b : Byte} {i : Instr} (hs : i.space = .command) (he : encode i = [b]) : ReadsRow b (readNone i) := by
  intro l j rest h
  obtain ⟨rfl, rfl⟩ := (readNone_ok_iff _ _ _ _).1 h
  exact ⟨hs, by rw [he]; rfl⟩

theorem readsRow_init : ReadsRow 0x01 readInit := by
  intro l i rest h
  obtain ⟨dev, rfl, rfl⟩ := (readInit_ok_iff _ _ _).1 h
  exact ⟨rfl, rfl⟩

theorem readsRow_extract : ReadsRow 0x16 readExtract := by
  intro l i rest h
  obtain ⟨ch, rfl, rfl⟩ := (readExtract_ok_iff _ _ _).1 h
  exact ⟨rfl, rfl⟩

theorem readsRow_oneSeq {b : Byte} {k : List Byte → Instr} (hs : ∀ s, (k s).space = .command)
    (he : ∀ s, encode (k s) = b :: putSeq s) : ReadsRow b (readOneSeq k) := by
  intro l i rest h
  obtain ⟨s, rfl, rfl⟩ := (readOneSeq_ok_iff _ _ _ _).1 h
  exact ⟨hs s, by rw [he]; rfl⟩

theorem readsRow_chanSeq {b : Byte} {k : Byte → List Byte → Instr} (hs : ∀ ch s, (k ch s).space = .command)
    (he : ∀ ch s, encode (k ch s) = b :: ch :: putSeq s) : ReadsRow b (readChanSeq k) := by
  intro l i rest h
  obtain ⟨ch, s, rfl, rfl⟩ := (readChanSeq_ok_iff _ _ _ _).1 h
  exact ⟨hs ch s, by rw [he]; rfl⟩

theorem readsRow_frameChan {b : Byte} {k : CanFrame → Byte → Instr} (hs : ∀ f ch, (k f ch).space = .command)
    (he : ∀ f ch, encode (k f ch) = b :: (putCanFrame f ++ [ch])) : ReadsRow b (readFrameChan k) := by
  intro l i rest h
  obtain ⟨f, ch, rfl, rfl⟩ := (readFrameChan_ok_iff _ _ _ _).1 h
  exact ⟨hs f ch, by rw [he]; rfl⟩

theorem readsRow_dispatch : ReadsRow 0x18 readDispatch := by
  intro l i rest h
  obtain ⟨ch, f, rfl, rfl⟩ := (readDispatch_ok_iff _ _ _).1 h
  exact ⟨rfl, rfl⟩

theorem readsRow_register : ReadsRow 0x05 readRegister := by
  intro l i rest h
  obtain ⟨p, m, e, cb, ctx, rfl, rfl⟩ := (readRegister_ok_iff _ _ _).1 h
  exact ⟨rfl, rfl⟩

/-- The table of R112, row by row: the reader of each code takes that code's row. -/
theorem readOperands_readsRow : ∀ n, n < 32 → ReadsRow (BitVec.ofNat 8 n) (readOperands n)
  | 0x00, _ => readsRow_none rfl rfl
  | 0x01, _ => readsRow_init
  | 0x02, _ => readsRow_none rfl rfl
  | 0x03, _ => readsRow_none rfl rfl
  | 0x04, _ => readsRow_frameChan (fun _ _ => rfl) fun _ _ => rfl
  | 0x05, _ => readsRow_register
  | 0x06, _ => readsRow_chanSeq (fun _ _ => rfl) fun _ _ => rfl
  | 0x07, _ => readsRow_oneSeq (fun _ => rfl) fun _ => rfl
  | 0x08, _ => readsRow_frameChan (fun _ _ => rfl) fun _ _ => rfl
  | 0x09, _ => readsRow_oneSeq (fun _ => rfl) fun _ => rfl
  | 0x0A, _ => readsRow_none rfl rfl
  | 0x0B, _ => readsRow_none rfl rfl
  | 0x0C, _ => readsRow_none rfl rfl
  | 0x0D, _ => readsRow_none rfl rfl
  | 0x0E, _ => readsRow_none rfl rfl
  | 0x0F, _ => readsRow_none rfl rfl
  | 0x10, _ => readsRow_none rfl rfl
  | 0x11, _ => readsRow_none rfl rfl
  | 0x12, _ => readsRow_none rfl rfl
  | 0x13, _ => readsRow_none rfl rfl
  | 0x14, _ => readsRow_none rfl rfl
  | 0x15, _ => readsRow_none rfl rfl
  | 0x16, _ => readsRow_extract
  | 0x17, _ => readsRow_chanSeq (fun _ _ => rfl) fun _ _ => rfl
  | 0x18, _ => readsRow_dispatch
  | 0x19, _ => readsRow_none rfl rfl
  | 0x1A, _ => readsRow_none rfl rfl
  | 0x1B, _ => readsRow_none rfl rfl
  | 0x1C, _ => readsRow_none rfl rfl
  | 0x1D, _ => readsRow_none rfl rfl
  | 0x1E, _ => readsRow_none rfl rfl
  | 0x1F, _ => readsRow_none rfl rfl
  | _ + 32, h => absurd h (by omega)

/-- A command byte whose bits 7..5 are 0 is its operation code (R113). -/
theorem ofNat_commandOp {b : Byte} (h : commandByteOk b = true) : BitVec.ofNat 8 (commandOp b) = b := by
  revert b; decide +kernel

theorem decodeCommand_ok {l : List Byte} {i : Instr} {rest : List Byte} (h : decodeCommand l = .ok (i, rest)) :
    i.space = .command ∧ l = encode i ++ rest := by
  cases l with
  | nil => cases h
  | cons b l =>
    simp only [decodeCommand] at h
    split at h
    · next hb =>
      have hrow := readOperands_readsRow (commandOp b) (BitVec.isLt _)
      rw [ofNat_commandOp hb] at hrow
      exact hrow l i rest h
    · cases h

/-- Bytes decode on the link when the first 16 of them fit a WireFrame row (R100, R109). -/
theorem decodeLink_ok_iff (l : List Byte) (i : Instr) (rest : List Byte) :
    decodeLink l = .ok (i, rest) ↔ ∃ w, decodeFrame w = some i ∧ l = w.toList ++ rest := by
  constructor
  · intro h
    unfold decodeLink at h
    split at h
    · cases h
    · next w hw =>
      have ht := (Machine.bytes16?_eq_some_iff _ w).1 hw
      split at h
      · cases h
      · next j hj =>
        simp only [Except.ok.injEq, Prod.mk.injEq] at h
        obtain ⟨rfl, rfl⟩ := h
        exact ⟨w, hj, by rw [← ht, List.take_append_drop]⟩
  · rintro ⟨w, hw, rfl⟩
    have ht : (w.toList ++ rest).take 16 = w.toList := List.take_left' (by simp)
    have hd : (w.toList ++ rest).drop 16 = rest := List.drop_left' (by simp)
    simp only [decodeLink, ht, hd, Machine.bytes16?_toList, hw]

/-- Bytes that decode are the encoding of what they decode to, in its own space. -/
theorem decode_ok {sp : Space} {l : List Byte} {i : Instr} {rest : List Byte} (h : decode sp l = .ok (i, rest)) :
    i.space = sp ∧ l = encode i ++ rest := by
  cases sp with
  | command => exact decodeCommand_ok h
  | link =>
    obtain ⟨w, hw, rfl⟩ := (decodeLink_ok_iff _ _ _).1 h
    obtain ⟨hs, he⟩ := Machine.decodeFrame_some w i hw
    exact ⟨hs, by rw [he]⟩

/-- Decoding an encoding, with any bytes after it, gives the operation and those bytes: by the constructors of `Instr`. -/
theorem decode_encode (i : Instr) (rest : List Byte) : decode i.space (encode i ++ rest) = .ok (i, rest) := by
  cases i
  case init dev => exact (readInit_ok_iff _ _ _).2 ⟨dev, rfl, rfl⟩
  case write f ch => exact (readFrameChan_ok_iff _ _ _ _).2 ⟨f, ch, rfl, rfl⟩
  case register p m e cb ctx => exact (readRegister_ok_iff _ _ _).2 ⟨p, m, e, cb, ctx, rfl, rfl⟩
  case feed ch s => exact (readChanSeq_ok_iff _ _ _ _).2 ⟨ch, s, rfl, rfl⟩
  case cksum s => exact (readOneSeq_ok_iff _ _ _ _).2 ⟨s, rfl, rfl⟩
  case encode f ch => exact (readFrameChan_ok_iff _ _ _ _).2 ⟨f, ch, rfl, rfl⟩
  case verify s => exact (readOneSeq_ok_iff _ _ _ _).2 ⟨s, rfl, rfl⟩
  case extract ch => exact (readExtract_ok_iff _ _ _).2 ⟨ch, rfl, rfl⟩
  case framecb ch w => exact (readChanSeq_ok_iff _ _ _ _).2 ⟨ch, w, rfl, rfl⟩
  case dispatch ch f => exact (readDispatch_ok_iff _ _ _).2 ⟨ch, f, rfl, rfl⟩
  case wfData f => exact (decodeLink_ok_iff _ _ _).2 ⟨_, Machine.decodeFrame_wireBytes false f, rfl⟩
  case wfRemote f => exact (decodeLink_ok_iff _ _ _).2 ⟨_, Machine.decodeFrame_wireBytes true f, rfl⟩
  case wfIdle c => exact (decodeLink_ok_iff _ _ _).2 ⟨_, Machine.decodeFrame_sentinel c, rfl⟩
  all_goals rfl

/-- Settles O1: each operand reader undoes its writer, and each code's reader is its row's. -/
theorem decodeEncodeRoundTrip : Obligations.DecodeEncodeRoundTrip := decode_encode

/-- Settles O2: by the space, then the row that the command byte or the 16 bytes select. -/
theorem decodedBytesAreTheEncoding : Obligations.DecodedBytesAreTheEncoding := fun _ _ _ _ => decode_ok

/-- Settles O3: each word that decodes is the encoding of its row, and bit 5 of 0x24 is set. -/
theorem sampleWordsDecode : Obligations.SampleWordsDecode := by
  exact ⟨decode_encode .close [], decode_encode .getdesc [], decode_encode .tickTop [], decode_encode .closeJoin [],
    decode_encode .reserved0F [], rfl,
    decode_encode (.wfData ⟨false, false, false, 2, 0x7E5, #v[0xAA, 0x55, 0, 0, 0, 0, 0, 0], 0x1C⟩) [],
    decode_encode (.wfRemote ⟨false, false, false, 0, 0x7E5, #v[0, 0, 0, 0, 0, 0, 0, 0], 0xF1⟩) [],
    decode_encode (.wfIdle true) []⟩

end Sys2Proof
end

section
/-! PROOF. Which command bytes and operands are refused (R114 to R116, R249 (d)): reserved codes, bad command bytes and internal codes by
the byte alone, then an admitted command's operands. -/

namespace Sys2Proof.Machine

/-! ### Refusals that the command byte decides -/

/-- A reserved row is refused by its byte (R115). -/
theorem exec_reserved {i : Instr} (hi : i ∈ reservedRows) (s : State) : exec i s = refuseByByte .opcode s := by
  simp only [reservedRows, List.mem_cons, List.not_mem_nil, or_false] at hi
  rcases hi with rfl | rfl | rfl | rfl | rfl | rfl | rfl | rfl | rfl | rfl | rfl | rfl | rfl | rfl <;> rfl

/-- The nine operations that the block performs of itself (R116). -/
def isInternal : Instr → Bool
  | .tickTop | .tickXfer | .tickRx | .tickDecide | .tickSleep | .closeJoin | .extract _ | .framecb .. | .dispatch .. => true
  | _ => false

theorem internalStep_port {s : State} {p : Agent} (hs : s.issuer = .port p) (a : Agent) (en dom : Bool)
    (f : State → Flow Answer) : internalStep s a en dom f = refuseByByte .internal s := by
  simp [internalStep, hs]

/-- At the command port the block's own operations are refused (R116). -/
theorem exec_internal_port {i : Instr} (hi : isInternal i = true) {s : State} {p : Agent} (hs : s.issuer = .port p) :
    exec i s = refuseByByte .internal s := by
  cases i
  case tickTop => exact internalStep_port hs _ _ _ _
  case tickXfer => exact internalStep_port hs _ _ _ _
  case tickRx => exact internalStep_port hs _ _ _ _
  case tickDecide => exact internalStep_port hs _ _ _ _
  case tickSleep => exact internalStep_port hs _ _ _ _
  case closeJoin => exact internalStep_port hs _ _ _ _
  case extract => exact internalStep_port hs _ _ _ _
  case framecb => exact internalStep_port hs _ _ _ _
  case dispatch => exact internalStep_port hs _ _ _ _
  all_goals cases hi

/-- The codes of the block's own operations are the internal ones (R112, R116). -/
theorem internalOp_head (i : Instr) (hs : i.space = .command) (rest : List Byte) :
    (encode i ++ rest).head?.map internalOp = some (isInternal i) := by
  cases i
  case wfData => cases hs
  case wfRemote => cases hs
  case wfIdle => cases hs
  all_goals rfl

theorem internalOp_of_range {b : Byte} (h1 : 0x10 ≤ b.toNat) (h2 : b.toNat ≤ 0x18) :
    commandByteOk b = true ∧ internalOp b = true := by
  revert b; decide +kernel

/-- The reserved codes are the encodings of the reserved rows (R115). -/
theorem reservedRow_of_byte {b : Byte} (h : b = 0 ∨ (0x0A ≤ b.toNat ∧ b.toNat ≤ 0x0F) ∨ (0x19 ≤ b.toNat ∧ b.toNat ≤ 0x1F)) :
    ∃ i ∈ reservedRows, i.space = .command ∧ encode i = [b] := by
  revert b; decide +kernel

/-- A step whose input is refused by its byte. -/
theorem step_of_refused {s u v : State} {x : Input} {r : RefReason} (hn : nextInput s = (x, u))
    (hf : fetchInput x u = .refused r v) : step s = refuseByByte r v := by simp [step, fetch, hn, hf]

/-- The state in which the bytes of an input at the command port are judged. -/
abbrev atPort (a : Agent) (rest : List Input) (s : State) : State := { s with inbox := rest, issuer := .port a }

theorem step_reserved {s : State} {a : Agent} {b : Byte} {l : List Byte} {rest : List Input}
    (hin : s.inbox = .port a (b :: l) :: rest)
    (hb : b.extractLsb' 5 3 ≠ 0 ∨ b = 0 ∨ (0x0A ≤ b.toNat ∧ b.toNat ≤ 0x0F) ∨ (0x19 ≤ b.toNat ∧ b.toNat ≤ 0x1F)) :
    step s = refuseByByte .opcode (atPort a rest s) := by
  rcases hb with hb | hb
  · have hok : commandByteOk b = false := by simpa [commandByteOk] using hb
    have hd : decode .command (b :: l) = .error (.opcode b) := by simp [decode, decodeCommand, hok]
    exact step_of_refused (nextInput_inbox s _ _ hin) (by simp [fetchInput, fetchBytes, hd, undecoded, hok])
  · obtain ⟨i, hi, hs, he⟩ := reservedRow_of_byte hb
    have hd : decode .command (b :: l) = .ok (i, l) := by simpa [hs, he] using decode_encode i l
    rw [step_of_fetchInput s _ _ _ i (nextInput_inbox s _ _ hin) (fetchBytes_of_decode _ l i _ hd), exec_reserved hi]

theorem step_internal {s : State} {a : Agent} {b : Byte} {l : List Byte} {rest : List Input}
    (hin : s.inbox = .port a (b :: l) :: rest) (h1 : 0x10 ≤ b.toNat) (h2 : b.toNat ≤ 0x18) :
    step s = refuseByByte .internal (atPort a rest s) := by
  obtain ⟨hok, hint⟩ := internalOp_of_range h1 h2
  cases hd : decode .command (b :: l) with
  | error e => exact step_of_refused (nextInput_inbox s _ _ hin) (by simp [fetchInput, fetchBytes, hd, undecoded, hok, hint])
  | ok p =>
    obtain ⟨i, r⟩ := p
    obtain ⟨hs, he⟩ := decode_ok hd
    have hi : isInternal i = true := by simpa [← he, hint] using (internalOp_head i hs r).symm
    rw [step_of_fetchInput s _ _ _ i (nextInput_inbox s _ _ hin) (fetchBytes_of_decode _ r i _ hd), exec_internal_port hi rfl]

/-- Settles O4: whatever the bytes after the command byte decode to, the step refuses by that byte. -/
theorem reservedAndInternalBytesAreRefused : Obligations.ReservedAndInternalBytesAreRefused := by
  intro s a b l rest hin hm
  exact ⟨fun hb => (step_reserved hin hb).trans (refuseByByte_refused _ _ hm),
    fun h1 h2 => (step_internal hin h1 h2).trans (refuseByByte_refused _ _ hm)⟩

/-- Settles O5: a reserved row is the refusal of its byte, given to an agent that may step. -/
theorem reservedRowsRefuse : Obligations.ReservedRowsRefuse :=
  fun _ s hi hm => (exec_reserved hi s).trans (refuseByByte_refused _ s hm)

/-! ### Operands outside their domain (R114) -/

theorem refusalOf_operand {s : State} (hc : configOk s.cfg = true) (hm : s.cfg.mode = .framed) :
    refusalOf s true false = some .operand := by
  simp [refusalOf, hc, hm]

/-- An admitted command whose operands fail their domain check is refused REF_OPERAND, for an agent that R112 gives it to. -/
theorem exec_operand_refused {i : Instr} {s : State} {a : Agent} (hi : s.issuer = .port a) (hs : CanServe s a)
    (hc : isCommand i = true) (hw : issuedBy i a = true) (ha : tableAdmits i s.life s.shutdown = true)
    (hd : ¬ operandsInDomain i s = true) : exec i s = .next { s with refused := true, answer := .refused .operand } := by
  obtain ⟨hm, hk, hf⟩ := hs
  refine exec_command_refused i s a .operand hi hc hw hm ?_
  rw [ha, Bool.eq_false_iff.2 hd]
  exact refusalOf_operand hk hf

/-- REGISTER and FEED are admitted in every state but RUNNING (R250). -/
theorem cells_not_running {l : Life} (h : l ≠ .running) : cells true false true true l = true := by
  cases l with
  | running => exact absurd rfl h
  | uninit | failed | closed => rfl

/-- Settles O15: each command is admitted by R250's table and fails the domain check of R114. -/
theorem operandsOutsideTheirDomainAreRefused : Obligations.OperandsOutsideTheirDomainAreRefused := by
  intro s a hi hs
  refine ⟨fun f ch n ha hl hd => ?_, fun f ch hd => ?_, fun ch b ha hl hd => ?_, fun b hd => ?_, fun b hd => ?_,
    fun p m e ctx ha hl => ?_⟩
  · exact exec_operand_refused hi hs rfl (by rw [ha]; rfl) (by rw [hl]; rfl) (mt (frameDomain_iff f ch).1 hd)
  · exact exec_operand_refused hi hs rfl rfl (cells_true _) (mt (frameDomain_iff f ch).1 hd)
  · exact exec_operand_refused hi hs rfl (by rw [ha]; rfl) (cells_not_running hl)
      (mt (chanDomain_iff _ ch).1 (Nat.not_lt.2 hd))
  · exact exec_operand_refused hi hs rfl rfl (cells_true _) (mt (cksumDomain_iff b).1 hd)
  · exact exec_operand_refused hi hs rfl rfl (cells_true _) (mt (verifyDomain_iff b).1 hd)
  · exact exec_operand_refused hi hs rfl (by rw [ha]; rfl) (cells_not_running hl) (by simp [operandsInDomain, cbDomain])

end Sys2Proof.Machine
end

section
/-! PROOF. What the WireFrame rows mean (R105, R109, R222): the Worker's judgement of 16 received bytes, discarded or routed to their
assembler. -/

namespace Sys2Proof.Machine

/-! ### The rows and TICK.RX -/

/-- A WireFrame row is the Worker's judgement of its 16 bytes (R109). -/
theorem exec_link {i : Instr} {w : Bytes 16} (hs : i.space = .link) (he : encode i = w.toList) (s : State) :
    exec i s = receiveFrame w s := by
  cases i
  case wfData f => rw [← toList_inj16 he]; rfl
  case wfRemote f => rw [← toList_inj16 he]; rfl
  case wfIdle c => rw [← toList_inj16 he]; rfl
  all_goals cases hs

theorem blockStep_congr (s : State) (a : Agent) (en dom : Bool) {f g : State → Flow Answer} (h : f s = g s) :
    blockStep s a en dom f = blockStep s a en dom g := by
  simp only [blockStep, h]

/-- TICK.RX of the block is the judgement of the bytes in `rxbuf` (R222). -/
theorem exec_tickRx {s : State} {w : Bytes 16} (hs : s.issuer = .block) (hb : s.rxbuf = some w) :
    exec .tickRx s = receiveFrame w s := by
  have hbody : tickRx s = judgeRx w s := by simp [tickRx, hb]
  simp only [exec, execTickRx, internalStep, hs]
  exact blockStep_congr s _ _ _ hbody

/-- Settles O48: both are the judgement of the same 16 bytes. -/
theorem tickRxRunsTheFrameInTheBuffer : Obligations.TickRxRunsTheFrameInTheBuffer := by
  intro s w i hs hb hd
  obtain ⟨hsp, he⟩ := decode_ok hd
  rw [List.append_nil] at he
  rw [exec_tickRx hs hb, exec_link hsp he.symm]

/-! ### Discarded frames -/

theorem receiveFrame_run {s : State} (w : Bytes 16) (hs : CanServe s .worker) (hp : s.ph = .rx) (ha : Active s) :
    receiveFrame w s = finish .worker (judgeRx w s) :=
  blockStep_run s _ _ _ _ hs ((phaseEnabled_iff _ _).2 ⟨hp, ha⟩) rfl

theorem judgeRx_invalid {w : Bytes 16} {s : State} {r : Reason} (h : verifyFrame s.cfg w = .invalid r) :
    judgeRx w s = discardRx r s := by simp [judgeRx, h]

theorem judgeRx_remote {w : Bytes 16} {s : State} {f : DecFrame} (h : verifyFrame s.cfg w = .valid f) (hr : f.rem = true) :
    judgeRx w s = discardRx .remote s := by simp [judgeRx, h, hr]

theorem judgeRx_chan {w : Bytes 16} {s : State} {f : DecFrame} (h : verifyFrame s.cfg w = .valid f) (hr : f.rem = false)
    (hn : s.cfg.nChan ≤ f.chan.toNat) : judgeRx w s = discardRx .chan s := by simp [judgeRx, h, hr, hn]

theorem judgeRx_routed {w : Bytes 16} {s t : State} {f : DecFrame} {r : Answer} (h : verifyFrame s.cfg w = .valid f)
    (hr : f.rem = false) (hn : f.chan.toNat < s.cfg.nChan) (hf : feed f.chan.toNat w.toList s = .ok r t) :
    judgeRx w s = .ok .none { putRxNew true t with ph := .decide } := by
  simp [judgeRx, h, hr, Nat.not_le.2 hn, hf]

/-- FEED of one frame with the head byte to an empty assembler, as CAN sets it up (R10), dispatches it and leaves the assembler empty
(R150, R154, R185). -/
theorem feed_can_frame {s : State} {w : Bytes 16} {c : Nat} {g : DecFrame} (hk : configOk s.cfg = true)
    (hc : CanInstance s.cfg) (ha : s.asm[c]? = some {}) (hw : w[0] = s.cfg.head) (hv : verifyFrame s.cfg w = .valid g) :
    feed c w.toList s = .ok .accepted { s with evlog := s.evlog ++ [dispatchEvent c g s.ft] } := by
  have hcap : ([] : List Byte).length + w.toList.length ≤ s.cfg.rxqCap := by
    obtain ⟨-, -, hb, hcap, -⟩ := (configOk_iff s.cfg).1 hk
    simp only [List.length_nil, Vector.length_toList]
    omega
  have hfed := getElem?_putAsm c {} { q := w.toList } s ha
  refine (feed_accepted_iff c {} w.toList s _ hk ha (asmShape_idle _ _) hcap).2 ?_
  refine (settles_take c w [] (putAsm c { q := w.toList } s) _ hk hc (by rwa [List.append_nil]) hw).2 ?_
  have hback : putAsm c { q := [] } (putAsm c { q := w.toList } s) = s := by
    rw [putAsm_putAsm]; exact putAsm_self c {} s ha
  simp only [hback, putAsm_cfg, hv, putAsm_evlog, putAsm_ft]
  exact settles_wait c [] _ hk hc ha (by simp)

/-- The verdict on a WireFrame row under the head and tail of the table (R135). -/
theorem verifyFrame_wireBytes {c : Config} (hh : c.head = 0x7E) (ht : c.tail = 0x7D) (m : Bool) (f : WireFields) :
    verifyFrame c (wireBytes m f) =
      if ChecksumHolds (wireBytes m f) then .valid (decodedFrame c (wireBytes m f)) else .invalid .csum := by
  have hw := wireBytes_getElem m f
  rw [verifyFrame_eq, if_neg (by rw [hh, hw.1]; simp), if_neg (by rw [ht]; simp [hw])]
  exact ite_not ..

theorem verifyFrame_sentinel {c : Config} (h : configOk c = true) (ch : Bool) :
    verifyFrame c (sentinel (bit ch)) = .invalid .head := by
  obtain ⟨-, -, -, -, -, -, -, -, hh⟩ := (configOk_iff c).1 h
  exact if_pos hh.symm

/-- The decoded frame of a WireFrame row, in the table's little-endian order (R80, R107). -/
theorem decodedFrame_wireBytes {c : Config} (ho : c.idOrder = .le) (m : Bool) (f : WireFields) :
    decodedFrame c (wireBytes m f) =
      { id := f.id, dlc := f.dlc, ext := f.ext, rem := m, payload := f.payload, chan := f.chan } := by
  have hf := wireFields_wireBytes m f
  have hm := wireRem_wireBytes m f
  generalize wireBytes m f = w at hf hm
  subst hf hm
  simp only [decodedFrame, wireFields, ho]

/-- Settles O46: the verdict is CSUM or the row's own frame, which is out of range or fed to its assembler. -/
theorem wfDataIsRoutedOrDiscarded : Obligations.WfDataIsRoutedOrDiscarded := by
  intro s f hs hcan hh ht ho hp ha
  have ⟨_, hk, _⟩ := hs
  have hv := verifyFrame_wireBytes hh ht false f
  rw [decodedFrame_wireBytes ho] at hv
  rw [exec_link (i := .wfData f) rfl rfl, receiveFrame_run _ hs hp ha]
  refine ⟨fun hsum => ?_, fun hsum hn => ?_, fun hsum hn hasm => ?_⟩
  · rw [if_neg hsum] at hv
    rw [judgeRx_invalid hv]; rfl
  · rw [if_pos hsum] at hv
    rw [judgeRx_chan hv rfl hn]; rfl
  · rw [if_pos hsum] at hv
    have hw : (wireBytes false f)[0] = s.cfg.head := by rw [hh]; exact (wireBytes_getElem false f).1
    rw [judgeRx_routed hv rfl hn (feed_can_frame hk hcan hasm hw hv)]; rfl

/-- Settles O47: a remote row's verdict is CSUM or a remote frame, and the sentinel's first byte is never HEAD (R11). -/
theorem wfRemoteAndWfIdleAreDiscarded : Obligations.WfRemoteAndWfIdleAreDiscarded := by
  refine ⟨fun s f hs hh ht hp ha => ?_, fun s c hs hp ha => ?_⟩
  · have hv := verifyFrame_wireBytes hh ht true f
    rw [exec_link (i := .wfRemote f) rfl rfl, receiveFrame_run _ hs hp ha]
    split
    · next hsum =>
      rw [if_pos hsum] at hv
      rw [judgeRx_remote hv (wireRem_wireBytes true f)]; rfl
    · next hsum =>
      rw [if_neg hsum] at hv
      rw [judgeRx_invalid hv]; rfl
  · have ⟨_, hk, _⟩ := hs
    rw [exec_link (i := .wfIdle c) (w := sentinel (bit c)) rfl rfl, receiveFrame_run _ hs hp ha,
      judgeRx_invalid (verifyFrame_sentinel hk c)]
    rfl

end Sys2Proof.Machine
end

section
/-! PROOF. The WireCodec (spec file 41): the laws of the checksum (R131), what the encoder writes and the validator reads back
(R132, R133, R135, R136), and the verdict on a flipped bit (R137). -/

namespace Sys2Proof.Machine

/-! ### The checksum (R130, R131) -/

theorem cksumOf_perm {l₁ l₂ : List Byte} (h : l₁.Perm l₂) : cksumOf l₁ = cksumOf l₂ := by
  induction h with
  | nil => rfl
  | cons b _ ih => rw [cksumOf_cons, cksumOf_cons, ih]
  | swap a b l => simp only [cksumOf_cons, ← BitVec.xor_assoc, BitVec.xor_comm b a]
  | trans _ _ ih₁ ih₂ => exact ih₁.trans ih₂

/-- Sixteen bytes carry their checksum when all of them XOR to 0. -/
theorem checksumHolds_iff (w : Bytes 16) : ChecksumHolds w ↔ cksumOf w.toList = 0 := by
  have hw : w.toList = w.toList.take 15 ++ [w[15]] := by rw [toList_eq]; rfl
  have hs : cksumOf w.toList = cksumOf (w.toList.take 15) ^^^ w[15] :=
    (congrArg cksumOf hw).trans (by simp [cksumOf_append, cksumOf_cons])
  rw [hs]
  exact eq_comm.trans BitVec.xor_eq_zero_iff.symm

/-- XOR of two sequences byte by byte XORs their checksums. -/
theorem cksumOf_zipWith_xor {l d : List Byte} (h : l.length = d.length) :
    cksumOf (List.zipWith (fun a b => a ^^^ b) l d) = cksumOf l ^^^ cksumOf d := by
  induction l generalizing d with
  | nil => rw [List.length_eq_zero_iff.1 h.symm]; rfl
  | cons a l ih =>
    cases d with
    | nil => cases h
    | cons b d =>
      rw [List.zipWith_cons_cons, cksumOf_cons, cksumOf_cons, cksumOf_cons, ih (Nat.succ.inj h)]
      ac_rfl

/-- A byte that stands `k` times in a sequence of zeros is its checksum when `k` is odd, and vanishes when `k` is even. -/
theorem cksumOf_map_marked (x : Byte) (m : List Bool) :
    cksumOf (m.map fun b => if b then x else 0) = if m.count true % 2 = 1 then x else 0 := by
  induction m with
  | nil => rfl
  | cons b m ih =>
    rw [List.map_cons, cksumOf_cons, ih]
    cases b with
    | false => simp
    | true =>
      rw [List.count_cons_self]
      rcases Nat.mod_two_eq_zero_or_one (m.count true) with h | h
      · simp [h, Nat.succ_mod_two_eq_one_iff.2 h]
      · simp [h, Nat.succ_mod_two_eq_zero_iff.2 h]

/-! ### Flipped bits -/

/-- Flipping bit `p` of the marked bytes changes the checksum of the whole by that bit, when an odd number is marked. -/
theorem cksumOf_flipColumn (w : Bytes 16) (p : Fin 8) (m : Vector Bool 16) :
    cksumOf (flipColumn w p m).toList =
      cksumOf w.toList ^^^ if m.toList.count true % 2 = 1 then 1#8 <<< p.val else 0 := by
  have hf : (flipColumn w p m).toList =
      List.zipWith (fun a b => a ^^^ b) w.toList (m.toList.map fun b => if b then 1#8 <<< p.val else 0) := by
    apply List.ext_getElem
    · simp
    · intro i h _
      have hi : i < 16 := by simpa using h
      cases hm : m[i] <;> simp [flipColumn, hm]
  rw [hf, cksumOf_zipWith_xor (by simp), cksumOf_map_marked]

theorem flipColumn_checksumHolds {w : Bytes 16} {p : Fin 8} {m : Vector Bool 16} (hw : ChecksumHolds w)
    (hm : m.toList.count true % 2 = 0) : ChecksumHolds (flipColumn w p m) := by
  rw [checksumHolds_iff] at hw ⊢
  rw [cksumOf_flipColumn, hw, if_neg (by omega)]
  rfl

/-- The column that marks byte `j` alone. -/
def markByte (j : Nat) : Vector Bool 16 := Vector.ofFn fun i => decide (i.val = j)

theorem markByte_count {j : Nat} (hj : j < 16) : (markByte j).toList.count true = 1 := by
  have h : ∀ j : Fin 16, (markByte j).toList.count true = 1 := by decide
  exact h ⟨j, hj⟩

/-- One flipped bit is a flipped column of one byte. -/
theorem flipBit_eq_flipColumn (w : Bytes 16) (k : Fin 128) :
    flipBit w k = flipColumn w ⟨k.val % 8, Nat.mod_lt _ (by decide)⟩ (markByte (k.val / 8)) := by
  simp [flipBit, flipColumn, markByte]

theorem one_shiftLeft_ne_zero {p : Nat} (hp : p < 8) : 1#8 <<< p ≠ 0 := by
  have h : ∀ p : Fin 8, 1#8 <<< p.val ≠ 0 := by decide
  exact h ⟨p, hp⟩

theorem flipBit_not_checksumHolds {w : Bytes 16} (k : Fin 128) (hw : ChecksumHolds w) : ¬ ChecksumHolds (flipBit w k) := by
  rw [checksumHolds_iff] at hw ⊢
  rw [flipBit_eq_flipColumn, cksumOf_flipColumn, markByte_count (by omega), hw]
  simpa using one_shiftLeft_ne_zero (Nat.mod_lt k.val (by decide))

theorem flipBit_getElem_of_ne {w : Bytes 16} {k : Fin 128} {i : Nat} (hi : i < 16) (h : k.val / 8 ≠ i) :
    (flipBit w k)[i] = w[i] := by
  simp [flipBit, Ne.symm h]

theorem flipBit_getElem_ne {w : Bytes 16} {k : Fin 128} {i : Nat} (hi : i < 16) (h : k.val / 8 = i) :
    (flipBit w k)[i] ≠ w[i] := by
  have hx := one_shiftLeft_ne_zero (Nat.mod_lt k.val (by decide))
  simpa [flipBit, h] using hx

/-- Settles O8: the checksum of the flipped bytes is the old one, changed by the bit when an odd number of bytes flips it. -/
theorem checksumLaws : Obligations.ChecksumLaws :=
  ⟨fun _ _ => cksumOf_perm, fun w => (checksumHolds_iff w).1, fun _ k => flipBit_not_checksumHolds k,
    fun _ _ _ => flipColumn_checksumHolds⟩

/-! ### The verdict (R135 to R137) -/

/-- The verdict of VERIFY, its third check read as `ChecksumHolds` (R130, R135). -/
theorem verifyFrame_eq_checks (c : Config) (w : Bytes 16) :
    verifyFrame c w =
      if w[0] ≠ c.head then .invalid .head
      else if w[14] ≠ c.tail then .invalid .tail
      else if ¬ ChecksumHolds w then .invalid .csum
      else .valid (decodedFrame c w) := verifyFrame_eq c w

/-- Head and tail are judged before the checksum, so a flipped bit of theirs is reported as theirs (R135). -/
theorem verifyFrame_flipBit {c : Config} {w : Bytes 16} (k : Fin 128) (hh : w[0] = c.head) (ht : w[14] = c.tail)
    (hs : ChecksumHolds w) :
    verifyFrame c (flipBit w k) =
      .invalid (if k.val / 8 = 0 then .head else if k.val / 8 = 14 then .tail else .csum) := by
  rw [verifyFrame_eq_checks, ← hh, ← ht]
  by_cases h0 : k.val / 8 = 0
  · rw [if_pos (flipBit_getElem_ne _ h0), if_pos h0]
  rw [if_neg (not_not_intro (flipBit_getElem_of_ne _ h0)), if_neg h0]
  by_cases h14 : k.val / 8 = 14
  · rw [if_pos (flipBit_getElem_ne _ h14), if_pos h14]
  · rw [if_neg (not_not_intro (flipBit_getElem_of_ne _ h14)), if_neg h14, if_pos (flipBit_not_checksumHolds k hs)]

theorem encodeFrame_head (c : Config) (f : CanFrame) (ch : Byte) : (encodeFrame c f ch)[0] = c.head :=
  (encodeFrame_getElem c f ch).1

theorem encodeFrame_tail (c : Config) (f : CanFrame) (ch : Byte) : (encodeFrame c f ch)[14] = c.tail := by
  simp [encodeFrame_getElem]

theorem encodeFrame_checksumHolds (c : Config) (f : CanFrame) (ch : Byte) : ChecksumHolds (encodeFrame c f ch) := by
  obtain ⟨-, -, -, -, -, -, -, -, -, -, -, -, -, -, -, h⟩ := encodeFrame_getElem c f ch
  exact h

/-- Settles O12: an encoded frame has its head, tail and checksum, so one flipped bit breaks the first check that reads it. -/
theorem verifyRejectsEverySingleBitFlip : Obligations.VerifyRejectsEverySingleBitFlip := fun c f ch k _ _ =>
  verifyFrame_flipBit k (encodeFrame_head c f ch) (encodeFrame_tail c f ch) (encodeFrame_checksumHolds c f ch)

/-- The fields of an encoded frame are the operands' (R107, R132). -/
theorem decodedFrame_encodeFrame (c : Config) (f : CanFrame) (ch : Byte) (hd : f.dlc.toNat ≤ 8) (hc : ch.toNat ≤ 1) :
    decodedFrame c (encodeFrame c f ch) =
      { id := f.id, dlc := f.dlc.setWidth 4, ext := f.ext, rem := f.rem, payload := f.payload, chan := ch.getLsbD 0 } := by
  obtain ⟨-, h1, h2, h3, h4, h5, h6, h7, h8, h9, h10, h11, h12, h13, -, -⟩ := encodeFrame_getElem c f ch
  rw [encodeCtrl_eq f ch hd hc] at h1
  obtain ⟨hdlc, hrem, hext, hchan, -⟩ := ctrlByte_fields false (ch.getLsbD 0) f.ext f.rem (f.dlc.setWidth 4)
  have hid := wireId_of_idBytes c.idOrder f.id _ h2 h3 h4 h5
  have hpay : wirePayload (encodeFrame c f ch) = f.payload := by
    rw [wirePayload, h6, h7, h8, h9, h10, h11, h12, h13]
    exact payload_eq f.payload
  simp only [decodedFrame, hid, hpay, wireDlc, wireExt, wireRem, wireChan, wireCtrl, h1, hdlc, hrem, hext, hchan]

theorem verifyFrame_encodeFrame_decoded (c : Config) (f : CanFrame) (ch : Byte) :
    verifyFrame c (encodeFrame c f ch) = .valid (decodedFrame c (encodeFrame c f ch)) := by
  rw [verifyFrame_eq_checks, if_neg (not_not_intro (encodeFrame_head c f ch)), if_neg (not_not_intro (encodeFrame_tail c f ch)),
    if_neg (not_not_intro (encodeFrame_checksumHolds c f ch))]

/-- Settles O11: the three checks pass, and each field is read from the bits that ENCODE wrote. -/
theorem verifyInvertsEncode : Obligations.VerifyInvertsEncode := by
  intro c f ch hd hc
  rw [verifyFrame_encodeFrame_decoded, decodedFrame_encodeFrame c f ch hd hc]

/-! ### ENCODE is injective (R133) -/

/-- A data length in its domain fits the control byte's four bits. -/
theorem dlc_eq_of_setWidth_eq {d e : Byte} (hd : d.toNat ≤ 8) (he : e.toNat ≤ 8)
    (h : d.setWidth 4 = e.setWidth 4) : d = e := by
  have := congrArg BitVec.toNat h
  simp only [BitVec.toNat_setWidth] at this
  exact BitVec.eq_of_toNat_eq (by omega)

/-- A channel in its domain is its lowest bit. -/
theorem chan_eq_of_getLsbD_eq {c d : Byte} (hc : c.toNat ≤ 1) (hd : d.toNat ≤ 1) (h : c.getLsbD 0 = d.getLsbD 0) : c = d := by
  have key : ∀ b : Byte, b.toNat ≤ 1 → b = bit (b.getLsbD 0) := by decide +kernel
  rw [key c hc, key d hd, h]

theorem encodeFrame_injective {c : Config} {f g : CanFrame} {ch dh : Byte} (hf : f.dlc.toNat ≤ 8) (hc : ch.toNat ≤ 1)
    (hg : g.dlc.toNat ≤ 8) (hd : dh.toNat ≤ 1) (h : encodeFrame c f ch = encodeFrame c g dh) : f = g ∧ ch = dh := by
  have hdec := congrArg (decodedFrame c) h
  rw [decodedFrame_encodeFrame c f ch hf hc, decodedFrame_encodeFrame c g dh hg hd, DecFrame.mk.injEq] at hdec
  obtain ⟨hid, hdlc, hext, hrem, hpay, hchan⟩ := hdec
  refine ⟨?_, chan_eq_of_getLsbD_eq hc hd hchan⟩
  cases f
  cases g
  rw [CanFrame.mk.injEq]
  exact ⟨hid, dlc_eq_of_setWidth_eq hf hg hdlc, hext, hrem, hpay⟩

/-- Settles O10: ENCODE is injective because decoding the bytes gives every field and the channel back. -/
theorem encodedFramesVerifyAndAreDistinct : Obligations.EncodedFramesVerifyAndAreDistinct :=
  ⟨fun c f ch _ _ => ⟨encodeFrame_head c f ch, encodeFrame_tail c f ch, encodeFrame_checksumHolds c f ch, _,
    verifyFrame_encodeFrame_decoded c f ch⟩, fun _ _ _ _ _ => encodeFrame_injective⟩

/-! ### CKSUM, ENCODE and VERIFY as commands -/

section Commands

variable {s : State} {a : Agent} (hi : s.issuer = .port a) (hs : CanServe s a)
include hi hs

theorem exec_cksum {b : List Byte} (hb : b.length = 15) : exec (.cksum b) s = .next { s with answer := .byte (cksumOf b) } :=
  exec_issued (.cksum b) s a hi hs rfl ⟨mayIssue_port _ s a hi, (cksumDomain_iff b).2 hb⟩

theorem exec_encode {f : CanFrame} {ch : Byte} (hd : f.dlc.toNat ≤ 8 ∧ ch.toNat ≤ 1) :
    exec (.encode f ch) s = .next { s with answer := .bytes (encodeFrame s.cfg f ch) } :=
  exec_issued (.encode f ch) s a hi hs rfl ⟨mayIssue_port _ s a hi, (frameDomain_iff f ch).2 hd⟩

theorem exec_verify (w : Bytes 16) : exec (.verify w.toList) s = .next { s with answer := .verdict (verifyFrame s.cfg w) } := by
  rw [← verifyAnswer_toList]
  exact exec_issued (.verify w.toList) s a hi hs rfl ⟨mayIssue_port _ s a hi, (verifyDomain_iff _).2 (by simp)⟩

end Commands

/-- Settles O7: 15 bytes are CKSUM's domain, and the answer is their fold. -/
theorem cksumGivesTheXorFold : Obligations.CksumGivesTheXorFold := fun b _ _ hi hs =>
  ⟨exec_cksum hi hs, fun hb => exec_operand_refused hi hs rfl rfl (cells_true _) (mt (cksumDomain_iff b).1 hb)⟩

/-- Bytes 6..13 of an encoded frame are the payload (R81, R132). -/
theorem encodeFrame_payload (c : Config) (f : CanFrame) (ch : Byte) :
    ((encodeFrame c f ch).toList.drop 6).take 8 = f.payload.toList := by
  have h := congrArg Vector.toList (payload_eq f.payload)
  rw [toList_eq]
  simpa [encodeFrame_getElem] using h

/-- Settles O9: the bytes of the encoded frame, read by offset. -/
theorem encodeGivesTheFrameBytes : Obligations.EncodeGivesTheFrameBytes := by
  intro f ch s a hi hs
  refine ⟨fun hd => ⟨encodeFrame s.cfg f ch, exec_encode hi hs hd, encodeFrame_head .., ?_, ?_, ?_, encodeFrame_payload ..,
    encodeFrame_tail .., encodeFrame_checksumHolds ..⟩,
    fun hd => exec_operand_refused hi hs rfl rfl (cells_true _) (mt (frameDomain_iff f ch).1 hd)⟩
  · exact (encodeFrame_getElem s.cfg f ch).2.1
  · intro ho
    simp [encodeFrame_getElem, ho, idBytes, bytesOfLE]
  · intro ho
    simp [encodeFrame_getElem, ho, idBytes, bytesOfLE]

/-- Settles O13: the verdict is VERIFY's own chain of checks, with the identifier read in the configured order. -/
theorem verifyGivesTheVerdict : Obligations.VerifyGivesTheVerdict := by
  refine ⟨fun w s a hi hs => ?_, fun b s a hi hs hb =>
    exec_operand_refused hi hs rfl rfl (cells_true _) (mt (verifyDomain_iff b).1 hb)⟩
  rw [exec_verify hi hs w, verifyFrame_eq_checks]
  rfl

end Sys2Proof.Machine
end

section
/-! PROOF. The FrameAssembler, one attempt: EXTRACT waits, resynchronises, awaits, completes or faults (R151 to R156), and FRAMECB
judges its window (R160). Each proof decides the attempt from the assembler and reads off what `runAttempt` does. -/

namespace Sys2Proof.Machine

/-! ### What an attempt decides -/

/-- From rest, a byte that differs from the pattern is the decision to drop the front byte (R153). -/
theorem attempt_mismatch {c : Config} {d b h : Byte} {q : List Byte} {k : Nat} (hl : c.baseLen ≤ (d :: q).length)
    (hp : (d :: q).take k = c.hdr.take k) (hb : (d :: q)[k]? = some b) (hh : c.hdr[k]? = some h) (hne : b ≠ h) :
    attempt c { q := d :: q } = .drop k b d q := by
  have hm : matchHeader (d :: q) 0 c.hdr = .mismatch k b := by
    simpa using matchHeader_mismatch (d :: q) 0 k c.hdr b h hp (by rwa [Nat.zero_add]) hh hne
  exact (if_neg (Nat.not_lt.2 hl)).trans (by simp [hm])

/-- From rest, a whole base frame that begins with the pattern asks the resolver (R155). -/
theorem attempt_matched {c : Config} {q : List Byte} (hk : configOk c = true) (hh : q.take c.hdr.length = c.hdr)
    (hl : c.baseLen ≤ q.length) :
    attempt c { q := q } = attemptSized c q (extraOf (resolve c.resolver (q.take c.baseLen))) := by
  obtain ⟨-, hhdr, -⟩ := (configOk_iff c).1 hk
  have hm : matchHeader q 0 c.hdr = .matched := (matchHeader_eq_matched_iff q 0 c.hdr (by omega)).2 hh
  exact (if_neg (Nat.not_lt.2 hl)).trans (by simp [hm])

/-- An awaiting assembler whose extra bytes have come takes its window without asking again (R154). -/
theorem attempt_awaited {c : Config} {q : List Byte} {n : Nat} (hl : c.baseLen + n ≤ q.length) :
    attempt c (awaitAsm c q n) = .take (q.take (c.baseLen + n)) (q.drop (c.baseLen + n)) :=
  (if_neg (Nat.not_lt.2 hl)).trans rfl

theorem attemptSized_take {c : Config} {q : List Byte} {n : Nat} (hn : c.baseLen + n ≤ c.rxqCap)
    (hl : c.baseLen + n ≤ q.length) : attemptSized c q n = .take (q.take (c.baseLen + n)) (q.drop (c.baseLen + n)) :=
  (if_neg (Nat.not_lt.2 hn)).trans (if_neg (Nat.not_lt.2 hl))

theorem attemptSized_await {c : Config} {q : List Byte} {n : Nat} (hn : c.baseLen + n ≤ c.rxqCap)
    (hl : q.length < c.baseLen + n) : attemptSized c q n = .await n :=
  (if_neg (Nat.not_lt.2 hn)).trans (if_pos hl)

theorem attemptSized_oversize {c : Config} {q : List Byte} {n : Nat} (hn : c.rxqCap < c.baseLen + n) :
    attemptSized c q n = .oversize n := if_pos hn

theorem extraOf_eq_getD (o : Option Nat) : extraOf o = o.getD 0 := by cases o <;> rfl

theorem asmShape_await {c : Config} {q : List Byte} {n : Nat} (hn : 0 < n) (hl : c.baseLen ≤ q.length)
    (hh : q.take c.hdr.length = c.hdr) : AsmShape c (awaitAsm c q n) := ⟨hl, .inr ⟨rfl, rfl, hn, hh⟩⟩

/-- EXTRACT does what its decision says, the decision given by name. -/
theorem extract_of_attempt {c : Nat} {a : AsmState} {s : State} {d : Attempt} (hk : configOk s.cfg = true)
    (ha : s.asm[c]? = some a) (hok : AsmShape s.cfg a) (hd : attempt s.cfg a = d) : extract c s = runAttempt c a.q s d :=
  hd ▸ extract_eq c a s hk ha hok

/-! ### EXTRACT and FRAMECB by themselves (log entry 12) -/

section Alone

variable {ch : Byte} {s : State} (hi : s.issuer = .block) (hs : CanServe s .controller) (hl : s.life ≠ .running)
  (hn : ch.toNat < s.cfg.nChan)
include hi hs hl hn

theorem exec_extract : exec (.extract ch) s = finish .controller ((extract ch.toNat s).map .extracted) :=
  exec_alone (.extract ch) s hi hs hl rfl ⟨hi, (subEnabled_iff s).2 hl, (chanDomain_iff _ _).2 hn⟩

theorem exec_extract_ok {r : Extracted} {t : State} (h : extract ch.toNat s = .ok r t) :
    exec (.extract ch) s = .next { t with answer := .extracted r } := by
  rw [exec_extract hi hs hl hn, h]
  rfl

theorem exec_extract_stop {k : Fault} {t : State} (h : extract ch.toNat s = .stop k t) :
    exec (.extract ch) s = .next (raiseFault k .controller t) := by
  rw [exec_extract hi hs hl hn, h]
  rfl

theorem exec_framecb_ok {w : List Byte} {t : State} (hw : s.cfg.baseLen ≤ w.length) (h : canFramecb ch.toNat w s = .ok () t) :
    exec (.framecb ch w) s = .next { t with answer := .none } := by
  have hdom : (chanDomain s.cfg.nChan ch && windowDomain s.cfg.baseLen w) = true :=
    Bool.and_eq_true_iff.2 ⟨(chanDomain_iff _ _).2 hn, (windowDomain_iff _ _).2 hw⟩
  rw [exec_alone (.framecb ch w) s hi hs hl rfl ⟨hi, (subEnabled_iff s).2 hl, hdom⟩]
  simp only [body, h]
  rfl

end Alone

/-! ### The outcomes of an attempt -/

/-- Settles O30: the gate stands before anything is read or written. -/
theorem extractWaitsForAWholeFrame : Obligations.ExtractWaitsForAWholeFrame := by
  intro ch s a ha hq htotal hwait
  have hrun : extract ch.toNat s = .ok .incomplete s := by
    have hno : ¬ (s.cfg.baseLen + a.extra < a.consumed ∨ count a.q < a.consumed) := by
      unfold count
      omega
    unfold extract
    rw [ha]
    exact (if_neg hno).trans (if_pos hwait)
  exact ⟨hrun, fun hi hs hl hn => exec_extract_ok hi hs hl hn hrun⟩

/-- Settles O31: the attempt's decision is to drop the front byte. -/
theorem extractDropsExactlyOneByte : Obligations.ExtractDropsExactlyOneByte := by
  intro ch s d b h q k hk ha hl hp hb hh hne t
  have hrun : extract ch.toNat s = .ok .corrupt t :=
    extract_of_attempt hk ha (asmShape_idle _ _) (attempt_mismatch hl hp hb hh hne)
  exact ⟨hrun, fun hi hs hl hn => exec_extract_ok hi hs hl hn hrun⟩

/-- An attempt that takes its window removes it whole, and the event is decided by the window's first 16 bytes (R154, R160). -/
theorem extract_take {c n : Nat} {a : AsmState} {s : State} {w : Bytes 16} (hk : configOk s.cfg = true)
    (ha : s.asm[c]? = some a) (hok : AsmShape s.cfg a) (hw : a.q.take 16 = w.toList)
    (hd : attempt s.cfg a = .take (a.q.take (s.cfg.baseLen + n)) (a.q.drop (s.cfg.baseLen + n))) :
    extract c s = .ok .complete { s with
      asm := s.asm.set c (idleAsm (a.q.drop (s.cfg.baseLen + n))), evlog := s.evlog ++ [windowEvent c w.toList s] } := by
  obtain ⟨-, -, hb, -⟩ := (configOk_iff s.cfg).1 hk
  have hfirst : (a.q.take (s.cfg.baseLen + n)).take 16 = w.toList := by
    rw [List.take_take, min_eq_left (by omega), hw]
  have hev : windowEvent c (a.q.take (s.cfg.baseLen + n)) s = windowEvent c w.toList s :=
    (windowEvent_of c _ w s hfirst).trans (windowEvent_of c _ w s (List.take_of_length_le (by simp))).symm
  rw [extract_of_attempt hk ha hok hd, ← hev]
  rfl

/-- Settles O32: asked now or before, the attempt's decision is to take the window. -/
theorem extractCompletesTheWindow : Obligations.ExtractCompletesTheWindow := by
  intro ch s q n w hk hh hstart hl hw t
  have hrun : extract ch.toNat s = .ok .complete { s with
      asm := s.asm.set ch.toNat (idleAsm (q.drop (s.cfg.baseLen + n)))
      evlog := s.evlog ++ [windowEvent ch.toNat w.toList s] } := by
    rcases hstart with ⟨ha, hn, hcap⟩ | ⟨ha, hn⟩
    · refine extract_take hk ha (asmShape_idle _ _) hw ?_
      rw [attempt_matched hk hh (by omega), extraOf_eq_getD, ← hn]
      exact attemptSized_take hcap hl
    · exact extract_take hk ha (asmShape_await hn (by omega) hh) hw (attempt_awaited hl)
  rw [windowEvent_of ch.toNat w.toList w s (List.take_of_length_le (by simp))] at hrun
  exact ⟨hrun, fun hi hs hl hn => exec_extract_ok hi hs hl hn hrun⟩

/-- Settles O33: the attempt's decision is to await the bytes that the resolver asked for. -/
theorem extractAwaitsExtraBytes : Obligations.ExtractAwaitsExtraBytes := by
  intro ch s q n hk ha hh hl hr hshort hcap t
  have hrun : extract ch.toNat s = .ok .incomplete t := by
    refine extract_of_attempt hk ha (asmShape_idle _ _) (d := .await n) ?_
    rw [attempt_matched hk hh hl, hr]
    exact attemptSized_await hcap hshort
  exact ⟨hrun, fun hi hs hl hn => exec_extract_ok hi hs hl hn hrun⟩

/-- Settles O34: the attempt's decision is the fault, which writes the assembler alone. -/
theorem oversizeFramesFault : Obligations.OversizeFramesFault := by
  intro ch s q n hk ha hh hl hr hcap
  have hrun : extract ch.toNat s = runAttempt ch.toNat q s (.oversize n) := by
    refine extract_of_attempt hk ha (asmShape_idle _ _) ?_
    rw [attempt_matched hk hh hl, hr]
    exact attemptSized_oversize hcap
  refine ⟨⟨_, hrun, rfl, rfl, rfl⟩, fun hi hs hl hn =>
    ⟨_, exec_extract_stop hi hs hl hn hrun, rfl, ?_, ?_, rfl, rfl, rfl⟩⟩
  · exact self_mem_setInsert faultKey faultKey_inj _ _
  · exact self_mem_setInsert agentKey agentKey_inj _ _

/-! ### FRAMECB (R160) -/

theorem dispatchEvent_ne_badFrame (c d : Nat) (f : DecFrame) (ft : FilterTable) (r : Reason) :
    dispatchEvent c f ft ≠ .badFrame d r := by
  unfold dispatchEvent
  split <;> nofun

theorem verifyFrame_ne_head {c : Config} {w : Bytes 16} (h : w[0] = c.head) : verifyFrame c w ≠ .invalid .head := by
  rw [verifyFrame_eq, if_neg (not_not_intro h)]
  split
  · nofun
  · split <;> nofun

/-- A window that begins with HEAD is not reported as a bad head (R135). -/
theorem windowEvent_ne_head {c : Nat} {w : List Byte} {s : State} (hh : w[0]? = some s.cfg.head) :
    windowEvent c w s ≠ .badFrame c .head := by
  unfold windowEvent
  split
  · nofun
  · next b hb =>
    have hw : w.take 16 = b.toList := (bytes16?_eq_some_iff _ _).1 hb
    have h0 : b[0] = s.cfg.head := by
      have := congrArg (·[0]?) hw
      simpa [hh, List.getElem?_take] using this.symm
    split
    · next r hv => exact fun he => verifyFrame_ne_head h0 (by cases he; exact hv)
    · exact dispatchEvent_ne_badFrame _ _ _ _ _

/-- With `HDR = [HEAD]`, no decision of a stable assembler reports a bad head: a window that is taken begins with HDR (R152). -/
theorem head_not_decided {c : Nat} {a : AsmState} {s : State} (hk : configOk s.cfg = true) (hh : s.cfg.hdr = [s.cfg.head])
    (hok : AsmOk s.cfg a) : .badFrame c .head ∉ decided c s (attempt s.cfg a) := by
  cases hd : attempt s.cfg a with
  | wait | await _ | oversize _ => exact List.not_mem_nil
  | drop k b d q => exact fun h => by cases List.mem_singleton.1 h
  | take w q =>
    have ⟨_, hw⟩ := attempt_take_header s.cfg a w q hk hok hd
    have h0 : w[0]? = some s.cfg.head := by
      have := congrArg (·[0]?) hw
      simpa [hh] using this
    exact fun h => windowEvent_ne_head h0 (List.mem_singleton.1 h).symm

/-- Settles O35: the callback is one event, and an attempt's events are its decision's. -/
theorem framecbVerifiesThenDispatches : Obligations.FramecbVerifiesThenDispatches := by
  refine ⟨?_, fun c s t r es hk hh hok hrun hes => ?_⟩
  · intro ch l w s hw t
    have hlen : 16 ≤ l.length := by
      have := congrArg List.length hw
      simp at this
      omega
    have hrun := canFramecb_eq ch.toNat l s hlen
    rw [windowEvent_of ch.toNat l w s hw] at hrun
    exact ⟨hrun, fun hi hs hl hn hb => exec_framecb_ok hi hs hl hn hb hrun⟩
  · cases ha : s.asm[c]? with
    | none =>
      unfold extract at hrun
      rw [ha] at hrun
      cases hrun
    | some a =>
      have hoka := hok a (List.mem_of_getElem? ha)
      have hst := extract_state c a s hk ha hoka.shape
      rw [hrun] at hst
      subst hst
      rw [← List.append_cancel_left hes]
      exact head_not_decided hk hh hoka

end Sys2Proof.Machine
end

section
/-! PROOF. The FrameAssembler, FEED: what it rejects (R150), how it ends (R157), what it writes (R98), that the cut into chunks does not
matter (R161), and what byte streams become as CAN sets the assembler up (R162 to R165). -/

namespace Sys2Proof.Machine

/-! ### FEED as a command -/

section Standalone

variable {ch : Byte} {s : State} (hi : s.issuer = .port .controller) (hs : CanServe s .controller) (hl : s.life ≠ .running)
  (hn : ch.toNat < s.cfg.nChan)
include hi hs hl hn

theorem exec_feed (b : List Byte) : exec (.feed ch b) s = finish .controller (feed ch.toNat b s) :=
  exec_issued (.feed ch b) s .controller hi hs rfl
    ⟨mayIssue_port _ s _ hi, (admitFeed_iff s).2 hl, (chanDomain_iff _ _).2 hn⟩

theorem exec_feed_ok {b : List Byte} {r : Answer} {t : State} (h : feed ch.toNat b s = .ok r t) :
    exec (.feed ch b) s = .next { t with answer := r } := by
  rw [exec_feed hi hs hl hn, h]
  rfl

theorem exec_feed_stop {b : List Byte} {k : Fault} {t : State} (h : feed ch.toNat b s = .stop k t) :
    exec (.feed ch b) s = .next (raiseFault k .controller t) := by
  rw [exec_feed hi hs hl hn, h]
  rfl

end Standalone

/-- Settles O36: a chunk longer than the free space only adds RX_OVERFLOW. -/
theorem feedRejectsAnOverfullChunk : Obligations.FeedRejectsAnOverfullChunk := fun ch b s a hi hs hl hn ha hq hb =>
  exec_feed_ok hi hs hl hn (feed_overfull ch.toNat a b s ha hq (by omega))

/-! ### What FEED writes (R98) -/

/-- What a FEED on channel `c` keeps (R98, R150), as `Obligations.FeedFrame` says it. -/
def FeedKept (c : Nat) (s t : State) : Prop :=
  t = { s with asm := t.asm, evlog := t.evlog, faults := t.faults, halted := t.halted, refused := t.refused
               answer := t.answer } ∧
  s.evlog <+: t.evlog ∧ t.asm.length = s.asm.length ∧ ∀ d, d ≠ c → t.asm[d]? = s.asm[d]?

/-- The assembler's frame, with the marks of a result, a refusal or a fault. -/
theorem AsmFrame.feedKept {c : Nat} {s u t : State} (h : AsmFrame c s u)
    (ht : t = { u with faults := t.faults, halted := t.halted, refused := t.refused, answer := t.answer }) :
    FeedKept c s t := by
  obtain ⟨hu, hlen, hothers, es, hlog, -⟩ := h
  have hasm : t.asm = u.asm := by rw [ht]
  have hev : t.evlog = u.evlog := by rw [ht]
  refine ⟨?_, ⟨es, by rw [hev, hlog]⟩, by rw [hasm, hlen], fun d hd => by rw [hasm, hothers d hd]⟩
  rw [hasm, hev]
  rw [hu] at ht
  exact ht

/-- Settles O41: FEED is held, refused, or ends its loop with a result or a fault, and the loop keeps the frame. -/
theorem feedFrame : Obligations.FeedFrame := by
  intro ch b s t h
  show FeedKept ch.toNat s t
  rcases exec_next _ _ _ h with rfl | ⟨r, rfl⟩ | ⟨a, _, _, ⟨r, u, hf, rfl⟩ | ⟨k, u, hf, rfl⟩⟩
  · exact (AsmFrame.refl _ s).feedKept rfl
  · exact (AsmFrame.refl _ s).feedKept rfl
  · exact (feed_ok_frame hf).feedKept rfl
  · exact (feed_stop_frame hf).feedKept rfl

/-! ### How FEED ends (R157) -/

/-- An assembler that waits stays as it is (R151). -/
theorem extract_wait {c : Nat} {a : AsmState} {s : State} (hk : configOk s.cfg = true) (ha : s.asm[c]? = some a)
    (hok : AsmShape s.cfg a) (hw : attempt s.cfg a = .wait) : extract c s = .ok .incomplete s :=
  extract_of_attempt hk ha hok hw

/-- A chunk that fits is accepted, with nothing left to extract, or ends in the oversize fault (R150, R156, R157). -/
theorem feed_fits_ends {c : Nat} {a : AsmState} {b : List Byte} {s : State} (hk : configOk s.cfg = true)
    (ha : s.asm[c]? = some a) (hok : AsmShape s.cfg a) (hb : a.q.length + b.length ≤ s.cfg.rxqCap) :
    (∃ t d, feed c b s = .ok .accepted t ∧ t.cfg = s.cfg ∧ t.asm[c]? = some d ∧ AsmShape s.cfg d ∧ attempt s.cfg d = .wait) ∨
    ∃ t, feed c b s = .stop (.asmOversize c) t := by
  have hok' := hok.append ((configOk_iff s.cfg).1 hk).2.1 b
  rw [feed_fits c a b s ha hb]
  rcases extractLoop_ends _ c _ (putAsm c { a with q := a.q ++ b } s) hk (getElem?_putAsm c a _ s ha) hok'
    (Nat.lt_succ_self _) with ⟨t, d, ht, hcfg, hd, hdok, -, hw⟩ | ⟨t, -, ht, -⟩
  · exact .inl ⟨t, d, ht, hcfg, hd, hdok, hw⟩
  · exact .inr ⟨t, ht⟩

/-- Settles O40: the chunk is too long and is rejected, or fits and the loop ends. -/
theorem feedEndsInAStableState : Obligations.FeedEndsInAStableState := by
  intro ch b s hi hs hinv hl hn
  have ⟨_, hk, _⟩ := hs
  obtain ⟨a, ha, hok⟩ := hinv.get hn
  by_cases hb : a.q.length + b.length ≤ s.cfg.rxqCap
  · rcases feed_fits_ends hk ha hok.shape hb with ⟨t, d, ht, hcfg, hd, hdok, hw⟩ | ⟨t, ht⟩
    · have htinv : AsmInv t := by
        have := feed_asmInv hinv hk hn b
        rwa [ht] at this
      rw [← hcfg] at hk hdok hw
      have hrest := extract_wait (s := { t with answer := .accepted }) hk hd hdok hw
      exact ⟨_, exec_feed_ok hi hs hl hn ht, .inl ⟨rfl, hrest, htinv⟩⟩
    · exact ⟨_, exec_feed_stop hi hs hl hn ht, .inr (.inr ⟨rfl, self_mem_setInsert faultKey faultKey_inj _ _⟩)⟩
  · have hrej := feed_overfull ch.toNat a b s ha hok.2.1 (by omega)
    exact ⟨_, exec_feed_ok hi hs hl hn hrej, .inr (.inl ⟨rfl, rfl, rfl, hinv⟩)⟩

/-! ### Chunks (R161) -/

/-- Nothing is extracted from an assembler that waits. -/
theorem settles_of_wait {c : Nat} {a : AsmState} {s : State} (hk : configOk s.cfg = true) (ha : s.asm[c]? = some a)
    (hok : AsmShape s.cfg a) (hw : attempt s.cfg a = .wait) : Settles c s s :=
  ⟨1, by unfold extractLoop; rw [extract_wait hk ha hok hw]⟩

/-- A chunk that is accepted fits. -/
theorem fits_of_feed_accepted {c : Nat} {a : AsmState} {b : List Byte} {s t : State} (ha : s.asm[c]? = some a)
    (h : feed c b s = .ok .accepted t) : a.q.length + b.length ≤ s.cfg.rxqCap := by
  by_contra hb
  by_cases hq : a.q.length ≤ s.cfg.rxqCap
  · rw [feed_overfull c a b s ha hq (by omega)] at h
    cases h
  · have : s.cfg.rxqCap < count a.q := Nat.not_le.1 hq
    simp [feed, ha, this] at h

/-- An accepted chunk leaves its assembler waiting (R157). -/
theorem waits_of_feed_accepted {c : Nat} {a : AsmState} {b : List Byte} {s t : State} (hk : configOk s.cfg = true)
    (ha : s.asm[c]? = some a) (hok : AsmShape s.cfg a) (h : feed c b s = .ok .accepted t) :
    t.cfg = s.cfg ∧ ∃ d, t.asm[c]? = some d ∧ AsmShape s.cfg d ∧ attempt s.cfg d = .wait := by
  rcases feed_fits_ends hk ha hok (fits_of_feed_accepted ha h) with ⟨u, d, hu, hcfg, hd, hdok, hw⟩ | ⟨u, hu⟩
  · rw [h] at hu
    cases hu
    exact ⟨hcfg, d, hd, hdok, hw⟩
  · rw [h] at hu
    cases hu

/-- Chunks that are all accepted settle where their bytes settle when they come at once. -/
theorem settles_of_feedChunks {c : Nat} {xs : List (List Byte)} {a : AsmState} {s t : State} (hk : configOk s.cfg = true)
    (ha : s.asm[c]? = some a) (hok : AsmShape s.cfg a) (hw : attempt s.cfg a = .wait) (h : feedChunks c xs s = some t) :
    Settles c (more c a xs.flatten s) t := by
  induction xs generalizing a s with
  | nil =>
    simp only [feedChunks, Option.some.injEq] at h
    subst h
    have hsame : more c a ([] : List (List Byte)).flatten s = s := by simpa [more] using putAsm_self c a s ha
    rw [hsame]
    exact settles_of_wait hk ha hok hw
  | cons x xs ih =>
    unfold feedChunks at h
    split at h
    · next u hu =>
      have hx : Settles c (more c a x s) u :=
        (feed_accepted_iff c a x s u hk ha hok (fits_of_feed_accepted ha hu)).1 hu
      have hshape := hok.append ((configOk_iff s.cfg).1 hk).2.1 x
      obtain ⟨hcfg, d, hd, hdok, hdw⟩ := waits_of_feed_accepted hk ha hok hu
      rw [← hcfg] at hdok hdw
      have hxs := ih (hcfg ▸ hk) hd hdok hdw h
      have hall := settles_append c { a with q := a.q ++ x } xs.flatten (more c a x s) u t d hk
        (getElem?_putAsm c a _ s ha) hshape hx hd hxs
      simpa [more, putAsm_putAsm] using hall
    · cases h

theorem attempt_empty {c : Config} (hk : configOk c = true) : attempt c {} = .wait := by
  obtain ⟨-, -, hb, -⟩ := (configOk_iff c).1 hk
  exact if_pos (by show 0 < c.baseLen + 0; omega)

/-- Settles O39: both cuts settle where the whole sequence does, and that is one state. -/
theorem chunkingDoesNotMatter : Obligations.ChunkingDoesNotMatter := by
  intro c xs ys s t u hk ha hxy ht hu
  have hx := settles_of_feedChunks hk ha (asmShape_idle _ _) (attempt_empty hk) ht
  have hy := settles_of_feedChunks hk ha (asmShape_idle _ _) (attempt_empty hk) hu
  rw [hxy] at hx
  exact hx.unique hy

/-! ### Byte streams as CAN sets the assembler up (R162 to R165) -/

/-- FEED of bytes to an empty assembler, accepted, is what they settle to. -/
theorem exec_feed_of_settles {ch : Byte} {b : List Byte} {s t : State} (hi : s.issuer = .port .controller)
    (hs : CanServe s .controller) (hl : s.life ≠ .running) (hn : ch.toNat < s.cfg.nChan) (ha : s.asm[ch.toNat]? = some {})
    (hb : b.length ≤ s.cfg.rxqCap) (h : Settles ch.toNat (putAsm ch.toNat { q := b } s) t) :
    exec (.feed ch b) s = .next { t with answer := .accepted } := by
  have ⟨_, hk, _⟩ := hs
  exact exec_feed_ok hi hs hl hn ((feed_accepted_iff ch.toNat {} b s t hk ha (asmShape_idle _ _) (by simpa using hb)).2 h)

/-- `s` with assembler `c` at rest on the bytes `q`, and the events `es` logged. -/
def streamed (c : Nat) (q : ByteQueue) (es : List Event) (s : State) : State :=
  { putAsm c { q := q } s with evlog := s.evlog ++ es }

@[simp] theorem streamed_streamed (c : Nat) (p q : ByteQueue) (es fs : List Event) (s : State) :
    streamed c q fs (streamed c p es s) = streamed c q (es ++ fs) s := by
  simp [streamed, putAsm]

@[simp] theorem streamed_putAsm (c : Nat) (a : AsmState) (q : ByteQueue) (es : List Event) (s : State) :
    streamed c q es (putAsm c a s) = streamed c q es s := by
  simp [streamed, putAsm]

theorem streamed_getElem? {c : Nat} {a : AsmState} {s : State} (ha : s.asm[c]? = some a) (q : ByteQueue) (es : List Event) :
    (streamed c q es s).asm[c]? = some { q := q } := getElem?_putAsm c a _ s ha

/-- An assembler at rest on `q` already only gets its events logged. -/
theorem streamed_same {c : Nat} {q : ByteQueue} {s : State} (ha : s.asm[c]? = some { q := q }) (es : List Event) :
    streamed c q es s = { s with evlog := s.evlog ++ es } := by
  unfold streamed
  rw [putAsm_self c _ s ha]

theorem streamed_nil {c : Nat} {q : ByteQueue} {s : State} (ha : s.asm[c]? = some { q := q }) : streamed c q [] s = s := by
  rw [streamed_same ha, List.append_nil]

/-- Bytes without HEAD are dropped one by one, when enough come after them for a base frame (R153, R162). -/
theorem settles_dropped {c : Nat} {g q : List Byte} {s t : State} (ha : s.asm[c]? = some { q := g ++ q })
    (hk : configOk s.cfg = true) (hc : CanInstance s.cfg) (hg : s.cfg.head ∉ g) (hq : g = [] ∨ 15 ≤ q.length) :
    Settles c s t ↔ Settles c (streamed c q (g.map fun b => .corrupt c 0 b b) s) t := by
  induction g generalizing s with
  | nil => rw [List.map_nil, streamed_nil (q := q) ha]
  | cons b g ih =>
    obtain ⟨hb, hg⟩ : s.cfg.head ≠ b ∧ s.cfg.head ∉ g := by simpa using hg
    have hlen : 15 ≤ q.length := hq.resolve_left (List.cons_ne_nil b g)
    calc Settles c s t
      _ ↔ Settles c (streamed c (g ++ q) [.corrupt c 0 b b] s) t :=
        settles_drop c b (g ++ q) s t hk hc ha hb.symm (by simp; omega)
      _ ↔ Settles c (streamed c q ((b :: g).map fun b => .corrupt c 0 b b) s) t := by
        rw [ih (streamed_getElem? ha (g ++ q) [.corrupt c 0 b b]) hk hc hg (.inr hlen), streamed_streamed]
        rfl

/-- A window with the head byte is taken whole, and its event logged (R154, R160). -/
theorem settles_window {c : Nat} {w : Bytes 16} {q : List Byte} {s t : State}
    (ha : s.asm[c]? = some { q := w.toList ++ q }) (hk : configOk s.cfg = true) (hc : CanInstance s.cfg)
    (hw : w[0] = s.cfg.head) :
    Settles c s t ↔ Settles c (streamed c q [windowEvent c w.toList s] s) t := by
  rw [windowEvent_of c w.toList w s (List.take_of_length_le (by simp))]
  exact settles_take c w q s t hk hc ha hw

theorem windowEvent_encodeFrame (c : Nat) (s : State) (f : CanFrame) (ch : Byte) :
    windowEvent c (encodeFrame s.cfg f ch).toList s =
      dispatchEvent c (decodedFrame s.cfg (encodeFrame s.cfg f ch)) s.ft := by
  rw [windowEvent_of c _ (encodeFrame s.cfg f ch) s (List.take_of_length_le (by simp)), verifyFrame_encodeFrame_decoded]

/-- Encoded frames are taken one by one and each is dispatched (R154, R164). The configuration and the table stand under names of
their own, since the state changes from frame to frame and they do not. -/
theorem settles_frames {c : Nat} {fs : List (CanFrame × Byte)} {s : State} {k : Config} {ft : FilterTable}
    (ha : s.asm[c]? = some { q := fs.flatMap fun p => (encodeFrame k p.1 p.2).toList }) (hcfg : s.cfg = k)
    (hft : s.ft = ft) (hk : configOk k = true) (hc : CanInstance k) :
    Settles c s (streamed c [] (fs.map fun p => dispatchEvent c (decodedFrame k (encodeFrame k p.1 p.2)) ft) s) := by
  induction fs generalizing s with
  | nil =>
    rw [List.map_nil, streamed_nil (q := []) ha]
    exact settles_wait c [] s (hcfg ▸ hk) (hcfg ▸ hc) ha (by simp)
  | cons p fs ih =>
    have hnext := streamed_getElem? ha (fs.flatMap fun p => (encodeFrame k p.1 p.2).toList)
      [dispatchEvent c (decodedFrame k (encodeFrame k p.1 p.2)) ft]
    have hrest := ih hnext hcfg hft
    rw [streamed_streamed] at hrest
    subst hcfg hft
    refine (settles_window ha hk hc (encodeFrame_head ..)).2 ?_
    rw [windowEvent_encodeFrame]
    exact hrest

theorem flatMap_encodeFrame_length (c : Config) (fs : List (CanFrame × Byte)) :
    (fs.flatMap fun p => (encodeFrame c p.1 p.2).toList).length = 16 * fs.length := by
  simp [List.length_flatMap, Nat.mul_comm]

/-- Settles O37: the bytes before the frames are dropped one by one, then each frame is taken and dispatched. -/
theorem feedRecoversAndDeliversInOrder : Obligations.FeedRecoversAndDeliversInOrder := by
  intro ch g fs s hi hs hc hl hn ha hg hdom hgf hcap
  have ⟨_, hk, _⟩ := hs
  have hlen := flatMap_encodeFrame_length s.cfg fs
  have hrest : g = [] ∨ 15 ≤ (fs.flatMap fun p => (encodeFrame s.cfg p.1 p.2).toList).length :=
    hgf.imp_right fun hfs => by have := List.length_pos_iff.2 hfs; omega
  have hdec : (fs.map fun p => dispatchEvent ch.toNat (decodedFrame s.cfg (encodeFrame s.cfg p.1 p.2)) s.ft) =
      fs.map fun p => dispatchEvent ch.toNat
        { id := p.1.id, dlc := p.1.dlc.setWidth 4, ext := p.1.ext, rem := p.1.rem, payload := p.1.payload
          chan := p.2.getLsbD 0 } s.ft :=
    List.map_congr_left fun p hp => by
      obtain ⟨hd, hch⟩ := hdom p hp
      rw [decodedFrame_encodeFrame s.cfg p.1 p.2 hd hch]
  have hfed := getElem?_putAsm ch.toNat {} { q := g ++ fs.flatMap fun p => (encodeFrame s.cfg p.1 p.2).toList } s ha
  have hset := (settles_dropped hfed hk hc hg hrest).2 (settles_frames (streamed_getElem? hfed _ _) rfl rfl hk hc)
  rw [streamed_streamed, streamed_putAsm, streamed_same ha, ← List.append_assoc] at hset
  rw [← hdec]
  exact exec_feed_of_settles hi hs hl hn ha (by simpa [hlen] using hcap) hset

/-- Settles O38: the first 16 bytes go as a window, and one byte is too few for another. -/
theorem spuriousHeadLosesTheFrame : Obligations.SpuriousHeadLosesTheFrame := by
  intro ch f w s hi hs hc hl hn ha hcap hw
  have ⟨_, hk, _⟩ := hs
  have hbytes : s.cfg.head :: f.toList = w.toList ++ [f[15]] := by
    rw [hw, toList_eq f]
    rfl
  have hhead : w[0] = s.cfg.head := by
    have := congrArg (·[0]?) hw
    simpa using this
  have hfed := getElem?_putAsm ch.toNat {} { q := w.toList ++ [f[15]] } s ha
  have hset := (settles_window hfed hk hc hhead).2
    (settles_wait ch.toNat [f[15]] (streamed ..) hk hc (streamed_getElem? hfed _ _) (by simp))
  rw [streamed_putAsm, windowEvent_of ch.toNat w.toList w _ (List.take_of_length_le (by simp))] at hset
  rw [hbytes]
  exact exec_feed_of_settles hi hs hl hn ha (by simpa using hcap) hset

/-- Settles O45: the frame is routed to its empty assembler, where it is one window. -/
theorem receivedFrameIsDispatchedOnce : Obligations.ReceivedFrameIsDispatchedOnce := by
  intro s w f hi hs hc hp hact hbuf hv hrem hn ha
  have ⟨_, hk, _⟩ := hs
  have hhead : w[0] = s.cfg.head := by
    by_contra h
    rw [verifyFrame_eq, if_pos h] at hv
    cases hv
  rw [exec_tickRx hi hbuf, receiveFrame_run w hs hp hact, judgeRx_routed hv hrem hn (feed_can_frame hk hc ha hhead hv)]
  rfl

end Sys2Proof.Machine
end

section
/-! PROOF. The FilterRegistry (spec file 43): the slot that REGISTER fills (R180, R181), the event that a frame's dispatch logs
(R185), and the arithmetic of matching (R187, R188). -/

namespace Sys2Proof.Machine

/-! ### REGISTER -/

@[simp] theorem freeSlot_cons_none (n : Nat) (l : List (Option FilterEntry)) : freeSlot n (none :: l) = some n := rfl

@[simp] theorem freeSlot_cons_some (n : Nat) (e : FilterEntry) (l : List (Option FilterEntry)) :
    freeSlot n (some e :: l) = freeSlot (n + 1) l := rfl

/-- The converse of `freeSlot_some`: the first unused slot is the one found. -/
theorem freeSlot_of_first_none {l : List (Option FilterEntry)} {i : Nat} (hi : l[i]? = some none)
    (hfirst : ∀ j, j < i → l[j]? ≠ some none) : freeSlot 0 l = some i := by
  cases h : freeSlot 0 l with
  | none => simpa using freeSlot_none l 0 h none (List.mem_of_getElem? hi)
  | some k =>
    obtain ⟨-, hk, hused⟩ := freeSlot_some l 0 k h
    rcases Nat.lt_trichotomy k i with hlt | rfl | hgt
    · exact absurd hk (hfirst k hlt)
    · rfl
    · obtain ⟨e, he⟩ := hused i hgt
      simp [hi] at he

/-- The converse of `freeSlot_none`: a full table has no free slot. -/
theorem freeSlot_of_full {l : List (Option FilterEntry)} (hl : ∀ x ∈ l, x ≠ none) : freeSlot 0 l = none := by
  cases h : freeSlot 0 l with
  | none => rfl
  | some k => exact absurd rfl (hl none (List.mem_of_getElem? (freeSlot_some l 0 k h).2.1))

/-- When the used slots form an initial segment, as many are used as stand before the first free one. -/
theorem freeSlot_eq_countP {l : List (Option FilterEntry)} {n k : Nat}
    (hl : l.Pairwise fun before after => after.isSome = true → before.isSome = true) (h : freeSlot n l = some k) :
    k = n + l.countP (fun x => x.isSome) := by
  induction l generalizing n with
  | nil => cases h
  | cons x l ih =>
    obtain ⟨hx, hrest⟩ := List.pairwise_cons.1 hl
    cases x with
    | none =>
      have hunused : l.countP (fun x => x.isSome) = 0 := List.countP_eq_zero.2 fun y hy hs => nomatch hx y hy hs
      simpa [hunused] using h.symm
    | some e =>
      have hk := ih hrest (by simpa using h)
      simp only [List.countP_cons, Option.isSome_some, if_true]
      omega

theorem registerEntry_free {e : FilterEntry} {s : State} {i : Nat} (h : freeSlot 0 s.ft = some i) :
    registerEntry e s = .ok (.okSlot i) (putSlot i e s) := by simp [registerEntry, h]

theorem registerEntry_full {e : FilterEntry} {s : State} (h : freeSlot 0 s.ft = none) : registerEntry e s = .ok .fail s := by
  simp [registerEntry, h]

/-- REGISTER answers OK only with the first free slot (R180). -/
theorem freeSlot_of_registerEntry {e : FilterEntry} {s u : State} {n : Nat} (h : registerEntry e s = .ok (.okSlot n) u) :
    freeSlot 0 s.ft = some n := by
  cases hfree : freeSlot 0 s.ft with
  | none =>
    rw [registerEntry_full hfree] at h
    cases h
  | some i =>
    rw [registerEntry_free hfree] at h
    cases h
    rfl

/-- Settles O27: of the ways REGISTER can end only its body answers OK, and it answers the first free slot. -/
theorem registerSlotIsTheNumberRegistered : Obligations.RegisterSlotIsTheNumberRegistered := by
  intro p m e cb ctx s t n hft hexec ht
  rcases exec_next _ s t hexec with rfl | ⟨r, rfl⟩ | ⟨a, -, -, ⟨r, u, hbody, rfl⟩ | ⟨k, u, -, rfl⟩⟩
  · cases ht
  · cases ht
  · rw [give_answer] at ht
    subst ht
    simpa using freeSlot_eq_countP hft.2 (freeSlot_of_registerEntry hbody)
  · cases ht

/-- A command that R250's table does not admit is refused REF_STATE before its operands are checked (R249 (d)). -/
theorem refusalOf_state {s : State} (hc : configOk s.cfg = true) (hm : s.cfg.mode = .framed) (dom : Bool) :
    refusalOf s false dom = some .state := by
  simp [refusalOf, hc, hm]

/-- REGISTER with a callback, while not RUNNING, is its body (R180). -/
theorem exec_register {s : State} {cb : Ref} (hi : s.issuer = .port .controller) (hs : CanServe s .controller)
    (hl : s.life ≠ .running) (hcb : cb ≠ 0) (p m : Word) (e : Bool) (ctx : Ref) :
    exec (.register p m e cb ctx) s = finish .controller (registerEntry ⟨p, m, e, cb, ctx⟩ s) :=
  exec_issued (.register p m e cb ctx) s .controller hi hs rfl
    ⟨mayIssue_port _ s _ hi, by simpa [admitRegister] using hl, (cbDomain_iff cb).2 hcb⟩

/-- Settles O26: the body is performed and fills the first free slot or finds none, or the command is refused before it. -/
theorem registerFillsTheLowestFreeSlot : Obligations.RegisterFillsTheLowestFreeSlot := by
  intro p m e cb ctx s hi hs
  refine ⟨fun i hl hcb hfree hfirst => ?_, fun hl hcb hfull => ?_, fun hl => ?_, fun hl hcb => ?_⟩
  · rw [exec_register hi hs hl hcb, registerEntry_free (freeSlot_of_first_none hfree hfirst)]
    rfl
  · rw [exec_register hi hs hl hcb, registerEntry_full (freeSlot_of_full hfull)]
    rfl
  · obtain ⟨hm, hk, hf⟩ := hs
    refine exec_command_refused _ s .controller .state hi rfl rfl hm ?_
    rw [hl]
    exact refusalOf_state hk hf _
  · exact exec_operand_refused hi hs rfl rfl (cells_not_running hl) (by simp [operandsInDomain, cbDomain, hcb])

/-! ### DISPATCH -/

theorem entryMatches_iff (w : Word) (e : FilterEntry) : entryMatches w e = true ↔ w &&& e.mask = e.pattern := beq_iff_eq

theorem entryMatches_eq_false_iff (w : Word) (e : FilterEntry) : entryMatches w e = false ↔ w &&& e.mask ≠ e.pattern :=
  beq_eq_false_iff_ne

theorem dispatchEvent_of_match {c : Nat} {f : DecFrame} {ft : List (Option FilterEntry)} {i : Nat} {e : FilterEntry}
    (h : firstMatch f.id 0 ft = some (i, e)) : dispatchEvent c f ft = .deliver i e.cb e.ctx c f := by
  simp [dispatchEvent, h]

theorem dispatchEvent_of_no_match {c : Nat} {f : DecFrame} {ft : List (Option FilterEntry)}
    (h : firstMatch f.id 0 ft = none) : dispatchEvent c f ft = .unknownId c f.id := by
  simp [dispatchEvent, h]

/-- A dispatch writes the log alone (R185). -/
theorem dispatchFrame_of_event {c : Nat} {f : DecFrame} {s : State} {ev : Event} (h : dispatchEvent c f s.ft = ev) :
    dispatchFrame c f s = { s with evlog := s.evlog ++ [ev] } := h ▸ rfl

/-- Settles O28: the first match decides the event, and alone the body is performed for the Controller. -/
theorem dispatchDeliversToTheFirstMatch : Obligations.DispatchDeliversToTheFirstMatch := by
  intro ch f s
  refine ⟨fun i e he hmatch hbefore => ?_, fun hnone => ?_, fun hi hs hl hn => ?_⟩
  · have hfirst := firstMatch_some f.id s.ft 0 i e he ((entryMatches_iff _ e).2 hmatch) fun j hj d hd =>
      (entryMatches_eq_false_iff _ d).2 (hbefore j d hj hd)
    rw [Nat.zero_add] at hfirst
    exact dispatchFrame_of_event (dispatchEvent_of_match hfirst)
  · have hfirst := firstMatch_none f.id s.ft 0 fun d hd => (entryMatches_eq_false_iff _ d).2 (hnone d hd)
    exact dispatchFrame_of_event (dispatchEvent_of_no_match hfirst)
  · exact exec_alone (.dispatch ch f) s hi hs hl rfl ⟨hi, (subEnabled_iff s).2 hl, (chanDomain_iff _ _).2 hn⟩

/-! ### Matching (R187, R188) -/

/-- A matched pattern has no bit outside its mask. -/
theorem entryMatches_pattern_outside {w : Word} {e : FilterEntry} (h : entryMatches w e = true) :
    e.pattern &&& ~~~e.mask = 0 := by
  rw [← (entryMatches_iff w e).1 h, BitVec.and_assoc, BitVec.and_not_self]
  exact BitVec.and_zero

/-- A change of the entries that no match depends on changes no match. -/
theorem firstMatch_map {w : Word} {g : FilterEntry → FilterEntry} (hg : ∀ e, entryMatches w (g e) = entryMatches w e)
    (n : Nat) (l : List (Option FilterEntry)) :
    firstMatch w n (l.map (Option.map g)) = (firstMatch w n l).map (Prod.map id g) := by
  induction l generalizing n with
  | nil => rfl
  | cons x l ih =>
    cases x with
    | none => exact ih (n + 1)
    | some e =>
      simp only [List.map_cons, Option.map_some, firstMatch, hg]
      split
      · rfl
      · exact ih (n + 1)

theorem dispatchEvent_eq_deliver_iff (c : Nat) (f : DecFrame) (ft : List (Option FilterEntry)) (i : Nat) (cb ctx : Ref) :
    dispatchEvent c f ft = .deliver i cb ctx c f ↔
      ∃ e, firstMatch f.id 0 ft = some (i, e) ∧ e.cb = cb ∧ e.ctx = ctx := by
  cases h : firstMatch f.id 0 ft with
  | none => simp [dispatchEvent_of_no_match h]
  | some r =>
    obtain ⟨j, e⟩ := r
    simp [dispatchEvent_of_match h]

/-- Settles O29: each mask clause is a law of `&&&`, and neither the identifier nor what a match compares has an extended flag. -/
theorem matchArithmetic : Obligations.MatchArithmetic := by
  refine ⟨fun w e => ⟨fun hbit => ?_, fun hmask => ?_, fun hmask hpat => ?_⟩, fun c f g ft h i cb ctx hid => ?_⟩
  · exact Bool.eq_false_iff.2 fun hm => hbit (entryMatches_pattern_outside hm)
  · rw [entryMatches_iff, hmask, BitVec.and_allOnes]
  · rw [entryMatches_iff, hmask, hpat]
    exact BitVec.and_zero
  · rw [dispatchEvent_eq_deliver_iff, dispatchEvent_eq_deliver_iff, hid,
      firstMatch_map (g := fun e => { e with ext := h e }) fun _ => rfl]
    cases firstMatch g.id 0 ft with
    | none => simp
    | some r => simp [Prod.ext_iff]

end Sys2Proof.Machine
end

section
/-! PROOF. The exchange (spec file 44): the lifecycle commands and WRITE (R195 to R205), the Worker's five steps (R215 to R228),
what is held when it is not enabled (R210, R233, R247), and how `(ls, ph)` and `shutdown` move over every step (R198, R210). -/

namespace Sys2Proof.Machine

/-! ### The lifecycle commands (R195, R197, R202) -/

/-- A command whose cell in R250's table is no is refused REF_STATE, for an agent that R112 gives it to. -/
theorem exec_state_refused {i : Instr} {s : State} {a : Agent} (hi : s.issuer = .port a) (hs : CanServe s a)
    (hc : isCommand i = true) (hw : issuedBy i a = true) (ha : tableAdmits i s.life s.shutdown = false) :
    exec i s = .next { s with refused := true, answer := .refused .state } := by
  obtain ⟨hm, hk, hf⟩ := hs
  refine exec_command_refused i s a .state hi hc hw hm ?_
  rw [ha]
  exact refusalOf_state hk hf _

/-- Commands that R250's table admits in RUNNING alone. -/
theorem cells_running_only {l : Life} (h : l ≠ .running) (b : Bool) : cells false b false false l = false := by
  cases l with
  | running => exact absurd rfl h
  | uninit | failed | closed => rfl

theorem cells_uninit_only {l : Life} (h : l ≠ .uninit) : cells true false false false l = false := by
  cases l with
  | uninit => exact absurd rfl h
  | running | failed | closed => rfl

section Controller

variable {s : State} (hi : s.issuer = .port .controller) (hs : CanServe s .controller)
include hi hs

/-- INIT has the effect of the outcome that it draws (R195). -/
theorem exec_init_of_draw {dev : Ref} {b : Bool} {u : State} (hl : s.life = .uninit) (hd : drawInit s = (b, u)) :
    exec (.init dev) s = finish .controller (initWith b u) := by
  have hr : runnable (.init dev) s := ⟨mayIssue_port _ s _ hi, by simp [admitInit, hl]⟩
  rw [exec_issued (.init dev) s .controller hi hs rfl hr]
  simp only [body, hd]

theorem exec_close (hl : s.life = .running) (hd : s.shutdown = false) :
    exec .close s = .next { s with shutdown := true, answer := .none } :=
  exec_issued .close s .controller hi hs rfl ⟨mayIssue_port _ s _ hi, by simp [admitClose, hl, hd]⟩

theorem exec_getdesc (hl : s.life = .running) : exec .getdesc s = .next { s with answer := .desc s.cfg.desc } :=
  exec_issued .getdesc s .controller hi hs rfl ⟨mayIssue_port _ s _ hi, by simp [admitGetdesc, hl]⟩

end Controller

/-- Settles O21: in UNINIT the outcome is the given one or the free one, and no other state admits INIT. -/
theorem initStartsTheWorkerOrFails : Obligations.InitStartsTheWorkerOrFails := by
  intro dev s hi hs
  refine ⟨fun hl => ?_, fun rest hl hin => ?_, fun rest hl hin => ?_, fun hl hin => ?_⟩
  · exact exec_state_refused hi hs rfl rfl (cells_uninit_only hl)
  · exact exec_init_of_draw hi hs hl (drawInit_given s true rest hin)
  · exact exec_init_of_draw hi hs hl (drawInit_given s false rest hin)
  · rw [exec_init_of_draw hi hs hl (drawInit_free s hin)]
    cases Config.initOutcome s.draws <;> rfl

/-- Settles O22: R250's cell for CLOSE in RUNNING is open until shutdown is set, and its other cells are closed. -/
theorem closeSetsShutdownOnce : Obligations.CloseSetsShutdownOnce := by
  intro s hi hs
  refine ⟨exec_close hi hs, fun hn => exec_state_refused hi hs rfl rfl ?_⟩
  by_cases hl : s.life = .running
  · have hd : s.shutdown = true := by simpa [hl] using hn
    rw [hl, hd]
    rfl
  · exact cells_running_only hl _

/-- Settles O23: only RUNNING admits GETDESC. -/
theorem getdescReturnsTheDescriptor : Obligations.GetdescReturnsTheDescriptor := fun _ hi hs =>
  ⟨exec_getdesc hi hs, fun hl => exec_state_refused hi hs rfl rfl (cells_running_only hl true)⟩

/-! ### WRITE (R205) -/

theorem writeFrame_fits {f : CanFrame} {ch : Byte} {s : State} (h : s.txq.length + 16 ≤ 16 * s.cfg.txqFrames) :
    writeFrame f ch s = .ok .ok { s with txq := s.txq ++ (encodeFrame s.cfg f ch).toList } := by
  have hq := (enq_eq_some_iff (txqCap s.cfg) s.txq (encodeFrame s.cfg f ch).toList _).2 ⟨by simpa [txqCap] using h, rfl⟩
  simp [writeFrame, hq]

theorem writeFrame_full {f : CanFrame} {ch : Byte} {s : State} (h : 16 * s.cfg.txqFrames < s.txq.length + 16) :
    writeFrame f ch s = .ok .fail s := by
  have hq := (enq_eq_none_iff (txqCap s.cfg) s.txq (encodeFrame s.cfg f ch).toList).2 (by simpa [txqCap] using h)
  simp [writeFrame, hq]

theorem exec_write {f : CanFrame} {ch : Byte} {s : State} {n : Nat} (hi : s.issuer = .port (.producer n))
    (hs : CanServe s (.producer n)) (hl : s.life = .running) (hd : f.dlc.toNat ≤ 8 ∧ ch.toNat ≤ 1) :
    exec (.write f ch) s = finish (.producer n) (writeFrame f ch s) :=
  exec_issued (.write f ch) s (.producer n) hi hs rfl
    ⟨mayIssue_port _ s _ hi, by simp [admitWrite, hl], (frameDomain_iff f ch).2 hd⟩

/-- Settles O24: admitted and in the domain, WRITE is its enqueue, which fits or does not; the state is judged before the
operands. -/
theorem writeEnqueuesOrFails : Obligations.WriteEnqueuesOrFails := by
  intro f ch s n hi hs
  refine ⟨fun hl hd hc hq => ?_, fun hl hd hc hq => ?_, fun hl hd => ?_, fun hl => ?_⟩
  · rw [exec_write hi hs hl ⟨hd, hc⟩, writeFrame_fits hq]
    rfl
  · rw [exec_write hi hs hl ⟨hd, hc⟩, writeFrame_full hq]
    rfl
  · exact exec_operand_refused hi hs rfl rfl (by rw [hl]; rfl) (mt (frameDomain_iff f ch).1 hd)
  · exact exec_state_refused hi hs rfl rfl (cells_running_only hl true)

/-! ### CLOSE.JOIN (R200) -/

/-- A step of the block that is not enabled is held, whatever its operands (R247). -/
theorem internalStep_held {s : State} {en : Bool} (hi : s.issuer = .block) (he : en = false) (a : Agent) (dom : Bool)
    (f : State → Flow Answer) : internalStep s a en dom f = .next (hold s) := by
  simp [internalStep, hi, blockStep_held s a en dom f he]

/-- Settles O25: the join runs exactly when the loop has stopped. -/
theorem closeJoinClearsTheQueues : Obligations.CloseJoinClearsTheQueues := by
  intro s hi hs hl
  refine ⟨fun hstop => ?_, fun hstop => ?_⟩
  · exact internalStep_run s .controller _ _ closeJoin hi hs ((joinEnabled_iff s).2 ⟨hstop, hl⟩) rfl
  · exact internalStep_held hi (by simp [joinEnabled, hstop]) _ _ _

/-! ### The steps of the Worker (R215, R219, R225, R228) -/

theorem tickTop_stop {s : State} (h : s.shutdown = true) : tickTop s = .ok .none { s with ls := .stopped } := if_pos h

theorem tickTop_frame {s : State} {w : Bytes 16} (h : s.shutdown = false) (hw : s.txq.take 16 = w.toList) :
    tickTop s = .ok .none { s with
      rxNew := false, txq := s.txq.drop 16, txbuf := some w, txkind := some .frame, ph := .xfer } := by
  have hq := (deqFrame_eq_some_iff s.txq w _).2 ⟨by rw [← hw, List.take_append_drop], rfl⟩
  simp [tickTop, h, hq, putRxNew]

theorem tickTop_idle {s : State} (h : s.shutdown = false) (hn : s.txq.length < 16) :
    tickTop s = .ok .none { s with
      rxNew := false, txbuf := some (sentinel (BitVec.ofNat 8 s.cfg.localChan)), txkind := some .idle, ph := .xfer } := by
  simp [tickTop, h, (deqFrame_eq_none_iff s.txq).2 hn, putRxNew]

theorem exchange_failed (tx : Bytes 16) (k : TxKind) (s : State) :
    exchange tx k .failed s = { s with evlog := s.evlog ++ [.xfer tx k false none, .xferFail], ph := .decide } := by
  simp [exchange, emit]

theorem tickXfer_of_draw {s u : State} {tx : Bytes 16} {k : TxKind} {a : XferAnswer} (ht : s.txbuf = some tx)
    (hk : s.txkind = some k) (hd : drawXfer s = (a, u)) : tickXfer s = .ok .none (exchange tx k a u) := by
  simp [tickXfer, ht, hk, hd]

theorem tickDecide_drain {s : State} (h : 16 ≤ s.txq.length ∨ s.rxNew = true) :
    tickDecide s = .ok .none { s with ls := .draining, ph := .top } := if_pos h

theorem tickDecide_idle {s : State} (h : ¬(16 ≤ s.txq.length ∨ s.rxNew = true)) :
    tickDecide s = .ok .none { s with ls := .idle, ph := .sleep } := if_neg h

/-- What passes every check and whose FEED ends in a fault ends in that fault (R222, R249 (e)). -/
theorem judgeRx_faulted {w : Bytes 16} {s t : State} {f : DecFrame} {k : Fault} (h : verifyFrame s.cfg w = .valid f)
    (hr : f.rem = false) (hn : f.chan.toNat < s.cfg.nChan) (hf : feed f.chan.toNat w.toList s = .stop k t) :
    judgeRx w s = .stop k t := by
  simp [judgeRx, h, hr, Nat.not_le.2 hn, hf]

section Worker

variable {s : State} (hi : s.issuer = .block) (hs : CanServe s .worker)
include hi hs

/-- A Worker step in its phase of a running loop is its body (R210). -/
theorem internalStep_phase {p : Phase} (hp : s.ph = p) (ha : Active s) (f : State → Flow Answer) :
    internalStep s .worker (phaseEnabled p s) true f = finish .worker (f s) :=
  internalStep_run s .worker _ _ f hi hs ((phaseEnabled_iff p s).2 ⟨hp, ha⟩) rfl

theorem exec_tickTop (hp : s.ph = .top) (ha : Active s) : exec .tickTop s = finish .worker (tickTop s) :=
  internalStep_phase hi hs hp ha tickTop

theorem exec_tickXfer (hp : s.ph = .xfer) (ha : Active s) : exec .tickXfer s = finish .worker (tickXfer s) :=
  internalStep_phase hi hs hp ha tickXfer

theorem exec_tickDecide (hp : s.ph = .decide) (ha : Active s) : exec .tickDecide s = finish .worker (tickDecide s) :=
  internalStep_phase hi hs hp ha tickDecide

end Worker

/-- Settles O42: shutdown, a whole frame queued, or less than one. -/
theorem tickTopBuildsTheTransmitBuffer : Obligations.TickTopBuildsTheTransmitBuffer := by
  intro s hi hs hp ha
  rw [exec_tickTop hi hs hp ha]
  refine ⟨fun hd => ?_, fun w hd hw => ?_, fun hd hn => ?_⟩
  · rw [tickTop_stop hd]
    rfl
  · rw [tickTop_frame hd hw]
    rfl
  · rw [tickTop_idle hd hn]
    rfl

/-- Settles O43: the answer is the given one or the free one, and either is an exchange that succeeded or failed. -/
theorem tickXferExchangesOnce : Obligations.TickXferExchangesOnce := by
  intro s tx k hi hs hp ha ht hk
  rw [exec_tickXfer hi hs hp ha]
  refine ⟨fun rx rest hin => ?_, fun rest hin => ?_, fun hin => ?_⟩
  · rw [tickXfer_of_draw ht hk (drawXfer_given s _ rest hin)]
    rfl
  · rw [tickXfer_of_draw ht hk (drawXfer_given s _ rest hin), exchange_failed]
    rfl
  · rw [tickXfer_of_draw ht hk (drawXfer_free s hin)]
    cases Config.transport s.draws with
    | received rx => rfl
    | failed => rw [exchange_failed]; rfl

/-- Settles O49: DECIDE by its condition, and SLEEP at (IDLE, SLEEP). -/
theorem tickDecideDrainsOrSleeps : Obligations.TickDecideDrainsOrSleeps := by
  intro s hi hs
  refine ⟨fun hp ha hd => ?_, fun hp ha hd => ?_, fun hp hl => ?_⟩
  · rw [exec_tickDecide hi hs hp ha, tickDecide_drain hd]
    rfl
  · rw [exec_tickDecide hi hs hp ha, tickDecide_idle hd]
    rfl
  · exact internalStep_run s .worker _ _ _ hi hs ((sleepEnabled_iff s).2 ⟨hp, hl⟩) rfl

/-- Settles O44: TICK.RX is the judgement of `rxbuf`, whose first three checks are VERIFY's, and whose last two read the decoded
frame. -/
theorem tickRxJudgesTheReceivedBytes : Obligations.TickRxJudgesTheReceivedBytes := by
  intro s w hi hs hp ha hb discarded
  have hv := verifyFrame_eq_checks s.cfg w
  rw [exec_tickRx hi hb, receiveFrame_run w hs hp ha]
  have discards : ∀ r, judgeRx w s = discardRx r s → finish .worker (judgeRx w s) = .next (discarded r) := by
    intro r h
    rw [h]
    rfl
  by_cases hhead : w[0] ≠ s.cfg.head
  · rw [if_pos hhead] at hv ⊢
    exact discards .head (judgeRx_invalid hv)
  rw [if_neg hhead] at hv ⊢
  by_cases htail : w[14] ≠ s.cfg.tail
  · rw [if_pos htail] at hv ⊢
    exact discards .tail (judgeRx_invalid hv)
  rw [if_neg htail] at hv ⊢
  by_cases hsum : ¬ ChecksumHolds w
  · rw [if_pos hsum] at hv ⊢
    exact discards .csum (judgeRx_invalid hv)
  rw [if_neg hsum] at hv ⊢
  by_cases hrem : w[1].getLsbD 4 = true
  · rw [if_pos hrem]
    exact discards .remote (judgeRx_remote hv hrem)
  rw [if_neg hrem]
  have hdata : (decodedFrame s.cfg w).rem = false := Bool.eq_false_iff.2 hrem
  by_cases hchan : s.cfg.nChan ≤ (w[1].getLsbD 6).toNat
  · rw [if_pos hchan]
    exact discards .chan (judgeRx_chan hv hdata hchan)
  rw [if_neg hchan]
  refine ⟨fun r t hf => ?_, fun k t hf => ?_⟩
  · rw [judgeRx_routed hv hdata (Nat.lt_of_not_le hchan) hf]
    rfl
  · rw [judgeRx_faulted hv hdata (Nat.lt_of_not_le hchan) hf]
    rfl

/-! ### What is held (R210, R233, R247) -/

/-- Outside its phase a Worker step is not enabled (R210). -/
theorem phaseEnabled_eq_false {p : Phase} {s : State} (h : s.ph ≠ p) : phaseEnabled p s = false :=
  Bool.eq_false_iff.2 fun he => h ((phaseEnabled_iff p s).1 he).1

/-- With its loop off or stopped the Worker takes no step (R233). -/
theorem stalled_worker {s : State} (h : s.ls = .off ∨ s.ls = .stopped) : stalled .worker s = true := by
  refine (stalled_iff _ _).2 fun hm => ?_
  have ha : Active s := hm.2 rfl
  rcases h with h | h <;> simp [Active, h] at ha

/-- An agent that R112 does not give a command to may not issue it. -/
theorem mayIssue_eq_false {who : Agent → Bool} {s : State} (h : ∀ a, s.issuer = .port a → who a = false) :
    mayIssue who s = false := by
  refine Bool.eq_false_iff.2 fun hm => ?_
  obtain ⟨a, ha, hw⟩ := (mayIssue_iff who s).1 hm
  exact absurd hw (Bool.eq_false_iff.1 (h a ha))

/-- Settles O50: a stalled Worker, a phase that is not due, a sub-operation while RUNNING, an issuer that has no right to the
command. -/
theorem whatIsNotEnabledIsHeld : Obligations.WhatIsNotEnabledIsHeld := by
  refine ⟨fun i s hm hl => ?_, fun s hi => ?_, fun ch l f s hi hl => ?_, fun i s hc hw => ?_⟩
  · exact exec_stalled i s (by rw [hm]; exact stalled_worker hl)
  · have phase : ∀ p f, s.ph ≠ p → internalStep s .worker (phaseEnabled p s) true f = .next (hold s) :=
      fun p f hp => internalStep_held hi (phaseEnabled_eq_false hp) _ _ f
    refine ⟨phase .top tickTop, phase .xfer tickXfer, phase .rx tickRx, phase .decide tickDecide, fun hp => ?_⟩
    exact internalStep_held hi (Bool.eq_false_iff.2 (mt (sleepEnabled_iff s).1 hp)) _ _ _
  · have hsub : subEnabled s = false := by simp [subEnabled, hl]
    exact ⟨internalStep_held hi hsub _ _ _, internalStep_held hi hsub _ _ _, internalStep_held hi hsub _ _ _⟩
  · rw [exec_eq_command i s hc]
    exact command_held s _ _ _ _ (mayIssue_eq_false hw)

/-! ### How the sequencer moves (R210) -/

/-- From `s` to `t` the sequencer stays, moves along a row of R210's table, or is started by INIT. -/
def SequencerMove (s t : State) : Prop :=
  (t.ls = s.ls ∧ t.ph = s.ph) ∨ SequencerRow s t ∨
  (s.life = .uninit ∧ t.life = .running ∧ t.ls = .draining ∧ t.ph = .top)

theorem SequencerRow.move {s t : State} (h : SequencerRow s t) : SequencerMove s t := .inr (.inl h)

theorem AsmFrame.sequencer_eq {c : Nat} {s t : State} (h : AsmFrame c s t) : t.ls = s.ls ∧ t.ph = s.ph := by
  rw [h.1]
  exact ⟨rfl, rfl⟩

/-- An exchange is the row of XFER that its answer selects (R219). -/
theorem exchange_sequencerMove {s : State} {tx : Bytes 16} {k : TxKind} (ha : Active s) (hp : s.ph = .xfer)
    (ht : s.txbuf = some tx) (hk : s.txkind = some k) (a : XferAnswer) (l : List XferAnswer) (n : Nat) :
    SequencerMove s (exchange tx k a { s with xferIn := l, draws := n }) := by
  cases a with
  | received rx => exact SequencerRow.move (.inr (.inr (.inl ⟨ha, hp, rfl, rfl, tx, k, rx, ht, hk, rfl⟩)))
  | failed =>
    rw [exchange_failed]
    exact SequencerRow.move (.inr (.inr (.inr (.inl ⟨ha, hp, rfl, rfl, tx, k, ht, hk, rfl⟩))))

/-- Each effect of the Worker's steps is one row, and INIT that succeeds starts the loop; nothing else moves the sequencer. -/
theorem Effect.sequencerMove {s v : State} (h : Effect s v) : SequencerMove s v := by
  cases h
  case init ok l n hl =>
    cases ok with
    | true => exact .inr (.inr ⟨hl, rfl, rfl, rfl⟩)
    | false => exact .inl ⟨rfl, rfl⟩
  case stop ha hp hd => exact SequencerRow.move (.inl ⟨ha, hp, hd, rfl, hp⟩)
  case topFrame ha hp hd _ => exact SequencerRow.move (.inr (.inl ⟨ha, hp, hd, rfl, rfl⟩))
  case topIdle ha hp hd _ => exact SequencerRow.move (.inr (.inl ⟨ha, hp, hd, rfl, rfl⟩))
  case xfer tx k a l n ha hp ht hk => exact exchange_sequencerMove ha hp ht hk a l n
  case discard ha hp => exact SequencerRow.move (.inr (.inr (.inr (.inr (.inl ⟨ha, hp, rfl, rfl⟩)))))
  case routed c w r u ha hp _ hf =>
    exact SequencerRow.move (.inr (.inr (.inr (.inr (.inl ⟨ha, hp, (feed_ok_frame hf).sequencer_eq.1, rfl⟩)))))
  case routedFault hf => exact .inl (feed_stop_frame hf).sequencer_eq
  case drain ha hp hd => exact SequencerRow.move (.inr (.inr (.inr (.inr (.inr (.inl ⟨ha, hp, hd, rfl, rfl⟩))))))
  case idle ha hp hd => exact SequencerRow.move (.inr (.inr (.inr (.inr (.inr (.inr (.inl ⟨ha, hp, hd, rfl, rfl⟩)))))))
  case sleep hl hp => exact SequencerRow.move (.inr (.inr (.inr (.inr (.inr (.inr (.inr ⟨hl, hp, hl, rfl⟩)))))))
  case feed c b _ _ => exact .inl (feed_frame c b s).sequencer_eq
  case extract c _ _ => exact .inl (extract_frame c s).sequencer_eq
  case framecb c w _ _ => exact .inl (canFramecb_frame c c w s).sequencer_eq
  all_goals exact .inl ⟨rfl, rfl⟩

/-- What a move of the sequencer is judged by, the same in `s` and `t`. -/
def SequencerKept (s t : State) : Prop :=
  t.life = s.life ∧ t.shutdown = s.shutdown ∧ t.ls = s.ls ∧ t.ph = s.ph ∧ t.evlog = s.evlog

theorem SequencerMove.of_kept {s v t : State} (hm : SequencerMove s v) (h : SequencerKept v t) : SequencerMove s t := by
  obtain ⟨hlife, _, hls, hph, hlog⟩ := h
  unfold SequencerMove SequencerRow
  rw [hlife, hls, hph, hlog]
  exact hm

/-- A step has one effect, and neither taking its input nor the way it ends moves the sequencer. -/
theorem step_sequencer {s t : State} (h : step s = .next t) : ∃ u v, Consumed s u ∧ Effect u v ∧ SequencerKept v t := by
  obtain ⟨u, v, hu, hv, hend⟩ := step_effect s t h
  refine ⟨u, v, hu, hv, ?_⟩
  rcases hend with ⟨r, rfl⟩ | ⟨r, _, rfl⟩ | ⟨k, a, rfl⟩ <;> exact ⟨rfl, rfl, rfl, rfl, rfl⟩

/-- Settles O56: a step moves the sequencer as its effect does. -/
theorem sequencerMovesOnlyByItsTable : Obligations.SequencerMovesOnlyByItsTable := by
  intro s t h
  obtain ⟨u, v, ⟨_, _, _, rfl⟩, hv, ht⟩ := step_sequencer h
  exact hv.sequencerMove.of_kept ht

/-! ### Shutdown (R198) -/

theorem AsmFrame.shutdown_eq {c : Nat} {s t : State} (h : AsmFrame c s t) : t.shutdown = s.shutdown := by rw [h.1]

/-- Only INIT clears `shutdown`, and it runs in UNINIT alone (R195). -/
theorem Effect.keeps_shutdown {s v : State} (h : Effect s v) (hl : s.life ≠ .uninit) (hd : s.shutdown = true) :
    v.shutdown = true := by
  cases h
  case init hu => exact absurd hu hl
  case close => rfl
  case xfer a _ _ _ _ _ _ => cases a <;> exact hd
  case feed c b _ _ => exact (feed_frame c b s).shutdown_eq.trans hd
  case extract c _ _ => exact (extract_frame c s).shutdown_eq.trans hd
  case framecb c w _ _ => exact (canFramecb_frame c c w s).shutdown_eq.trans hd
  case routed hf => exact (feed_ok_frame hf).shutdown_eq.trans hd
  case routedFault hf => exact (feed_stop_frame hf).shutdown_eq.trans hd
  all_goals exact hd

/-- The one row of R210's table that leads to XFER asks for `shutdown = 0`. -/
theorem SequencerRow.shutdown_of_xfer {s t : State} (h : SequencerRow s t) (ht : t.ph = .xfer) : s.shutdown = false := by
  unfold SequencerRow at h
  rw [ht] at h
  rcases h with ⟨_, _, _, _, hp⟩ | ⟨_, _, hd, _, _⟩ | ⟨_, _, _, hp, _⟩ | ⟨_, _, _, hp, _⟩ | ⟨_, _, _, hp⟩ |
    ⟨_, _, _, _, hp⟩ | ⟨_, _, _, _, hp⟩ | ⟨_, _, _, hp⟩
  case inr.inl => exact hd
  all_goals cases hp

/-- Settles O59: no row into XFER is open with shutdown set, so the Worker is due to exchange only where it stayed due. -/
theorem noExchangeBeginsAfterClose : Obligations.NoExchangeBeginsAfterClose := by
  intro s t hl hd h
  refine ⟨?_, fun ha hx => ?_⟩
  · obtain ⟨u, v, ⟨_, _, _, rfl⟩, hv, ht⟩ := step_sequencer h
    obtain ⟨_, hshut, _⟩ := ht
    exact hshut.trans (hv.keeps_shutdown hl hd)
  · rcases sequencerMovesOnlyByItsTable s t h with ⟨hls, hph⟩ | hrow | ⟨hu, _⟩
    · unfold Active at ha
      rw [hls] at ha
      exact ⟨ha, hph ▸ hx⟩
    · exact absurd hd (Bool.eq_false_iff.1 (hrow.shutdown_of_xfer hx))
    · exact absurd hu hl

end Sys2Proof.Machine
end

section
/-! PROOF. The exceptions (spec file 60): no fault under CanInstance (R58, R156, R245), admission by R250's table, what a faulted
agent's step is (R245), and how the lifecycle moves (R251). -/

namespace Sys2Proof.Machine

/-! ### Under CanInstance no body faults (R156, R245) -/

/-- CanInstance sets no resolver, so that no frame is longer than `BASE_LEN`, which fits in the queue by R11. -/
theorem attempt_can_ne_oversize {c : Config} (hk : configOk c = true) (hc : CanInstance c) (a : AsmState) (n : Nat) :
    attempt c a ≠ .oversize n := by
  obtain ⟨_, _, _, hcap, _⟩ := (configOk_iff c).1 hk
  obtain ⟨_, _, hres⟩ := hc
  unfold attempt
  rw [hres]
  split
  · nofun
  · split
    · nofun
    · split
      · nofun
      · show attemptSized c a.q 0 ≠ .oversize n
        unfold attemptSized
        rw [if_neg (by omega)]
        split <;> nofun

theorem extract_can_ne_stop {s : State} (hk : configOk s.cfg = true) (hc : CanInstance s.cfg) (hi : AsmInv s) {c : Nat}
    (hn : c < s.cfg.nChan) (k : Fault) (t : State) : extract c s ≠ .stop k t := by
  obtain ⟨a, ha, hok⟩ := hi.get hn
  rw [extract_eq c a s hk ha hok.shape]
  cases hd : attempt s.cfg a with
  | oversize n => exact absurd hd (attempt_can_ne_oversize hk hc a n)
  | wait | await | drop | take => nofun

theorem extractLoop_can_ne_oversize {s : State} (hk : configOk s.cfg = true) (hc : CanInstance s.cfg) (hi : AsmInv s) {c : Nat}
    (hn : c < s.cfg.nChan) (n d : Nat) (t : State) : extractLoop n c s ≠ .stop (.asmOversize d) t := by
  induction n generalizing s with
  | zero => nofun
  | succ n ih =>
    obtain ⟨a, ha, hok⟩ := hi.get hn
    have hi' := after_asmInv hi hk c hok
    rw [extractLoop_succ n c a s hk ha hok.shape]
    cases hd : attempt s.cfg a with
    | oversize m => exact absurd hd (attempt_can_ne_oversize hk hc a m)
    | wait | await => nofun
    | drop | take =>
      rw [hd] at hi'
      exact ih hk hc hi' hn

theorem feed_can_ne_stop {s : State} (hk : configOk s.cfg = true) (hc : CanInstance s.cfg) (hi : AsmInv s) {c : Nat}
    (hn : c < s.cfg.nChan) (b : List Byte) (k : Fault) (t : State) : feed c b s ≠ .stop k t := by
  cases k with
  | internal => exact feed_not_internal c b s t hk hi hn
  | asmOversize d =>
    obtain ⟨a, ha, hok⟩ := hi.get hn
    by_cases hb : a.q.length + b.length ≤ s.cfg.rxqCap
    · rw [feed_fits c a b s ha hb]
      have hlen := ((configOk_iff s.cfg).1 hk).2.1
      have hp : AsmInv (putAsm c { a with q := a.q ++ b } s) := putAsm_asmInv hi c (asmOk_append s.cfg a b hok hlen hb)
      exact extractLoop_can_ne_oversize (s := putAsm c { a with q := a.q ++ b } s) hk hc hp hn _ d t
    · rw [feed_overfull c a b s ha hok.2.1 (by omega)]
      nofun

/-! ### Where a fault comes from -/

theorem Flow.map_eq_stop {α β : Type} {f : α → β} {x : Flow α} {k : Fault} {t : State} (h : x.map f = .stop k t) :
    x = .stop k t := by
  cases x with
  | ok => cases h
  | stop => cases h; rfl

theorem canFramecb_stop {c : Nat} {w : List Byte} {s t : State} {k : Fault} (h : canFramecb c w s = .stop k t) :
    k = .internal := by
  unfold canFramecb at h
  split at h
  · cases h; rfl
  · split at h <;> cases h

theorem judgeRx_stop {w : Bytes 16} {s t : State} {k : Fault} (h : judgeRx w s = .stop k t) :
    ∃ c < s.cfg.nChan, feed c w.toList s = .stop k t := by
  unfold judgeRx discardRx at h
  split at h
  · cases h
  · next f _ =>
    split at h
    · cases h
    · split at h
      · cases h
      · next hn =>
        refine ⟨f.chan.toNat, by omega, ?_⟩
        cases hf : feed f.chan.toNat w.toList s with
        | ok => rw [hf] at h; cases h
        | stop => rw [hf] at h; cases h; rfl

/-- A fault of a body is F_INTERNAL, or it is the fault of the FEED or EXTRACT that the body runs. -/
theorem body_stop {i : Instr} {s t : State} {k : Fault} (hr : runnable i s) (h : body i s = .stop k t) :
    k = .internal ∨ ∃ c < s.cfg.nChan, (∃ b, feed c b s = .stop k t) ∨ extract c s = .stop k t := by
  have routed : ∀ w : Bytes 16, judgeRx w s = .stop k t →
      k = .internal ∨ ∃ c < s.cfg.nChan, (∃ b, feed c b s = .stop k t) ∨ extract c s = .stop k t := by
    intro w hw
    obtain ⟨c, hn, hf⟩ := judgeRx_stop hw
    exact .inr ⟨c, hn, .inl ⟨_, hf⟩⟩
  cases i
  case write => simp only [body, writeFrame] at h; split at h <;> cases h
  case register => simp only [body, registerEntry] at h; split at h <;> cases h
  case feed ch b =>
    obtain ⟨_, _, hd⟩ := hr
    exact .inr ⟨ch.toNat, (chanDomain_iff _ _).1 hd, .inl ⟨b, h⟩⟩
  case tickTop =>
    simp only [body, tickTop] at h
    split at h
    · cases h
    · split at h <;> cases h
  case tickXfer =>
    simp only [body, tickXfer] at h
    split at h
    · cases h
    · cases h; exact .inl rfl
  case tickRx =>
    simp only [body, tickRx] at h
    split at h
    · cases h; exact .inl rfl
    · exact routed _ h
  case tickDecide => simp only [body, tickDecide] at h; split at h <;> cases h
  case extract ch =>
    obtain ⟨_, _, hd⟩ := hr
    exact .inr ⟨ch.toNat, (chanDomain_iff _ _).1 hd, .inr (Flow.map_eq_stop h)⟩
  case framecb => exact .inl (canFramecb_stop (Flow.map_eq_stop h))
  case wfData => exact routed _ h
  case wfRemote => exact routed _ h
  case wfIdle => exact routed _ h
  case init | close | getdesc | cksum | encode | verify | tickSleep | closeJoin | dispatch => cases h
  all_goals exact hr.elim

/-- Under CanInstance a body that is performed ends with a result. -/
theorem body_can_ne_stop {i : Instr} {s : State} (hk : configOk s.cfg = true) (hc : CanInstance s.cfg) (hi : Inv s)
    (hr : runnable i s) (k : Fault) (t : State) : body i s ≠ .stop k t := by
  intro h
  have ⟨_, ha, _⟩ := hi
  rcases body_stop hr h with rfl | ⟨c, hn, ⟨b, hf⟩ | he⟩
  · exact body_not_internal i s t hk hi hr h
  · exact feed_can_ne_stop hk hc ha hn b k t hf
  · exact extract_can_ne_stop hk hc ha hn k t he

theorem AsmFrame.halted_eq {c : Nat} {s t : State} (h : AsmFrame c s t) : t.halted = s.halted := by rw [h.1]

/-- No effect halts an agent: that is `raiseFault`'s, at the end of the step. -/
theorem Effect.halted_eq {s v : State} (h : Effect s v) : v.halted = s.halted := by
  cases h
  case feed c b _ _ => exact (feed_frame c b s).halted_eq
  case extract c _ _ => exact (extract_frame c s).halted_eq
  case framecb c w _ _ => exact (canFramecb_frame c c w s).halted_eq
  case routed hf => exact (feed_ok_frame hf).halted_eq
  case routedFault hf => exact (feed_stop_frame hf).halted_eq
  case init ok _ _ _ => cases ok <;> rfl
  case xfer a _ _ _ _ _ _ => cases a <;> rfl
  all_goals rfl

/-- Settles O54: a step is held, refused, or performs a body, which ends with a result and halts nobody. -/
theorem canInstanceNeverFaults : Obligations.CanInstanceNeverFaults := by
  intro s t hi hc hno h
  obtain ⟨u, ⟨_, _, _, rfl⟩, rfl | ⟨r, rfl⟩ | ⟨i, a, _, ⟨_, hk, _⟩, hr, hp⟩⟩ := step_next s t h
  · exact hno
  · exact hno
  · have he := body_effect i _ hr
    rcases hp with ⟨r, v, hb, rfl⟩ | ⟨k, v, hb, _⟩
    · rw [hb] at he
      exact ⟨he.faults_eq.trans hno.1, he.halted_eq.trans hno.2⟩
    · exact absurd hb (body_can_ne_stop hk hc hi hr k v)

/-! ### Admission (R250) -/

theorem extractLoop_ok {n c : Nat} {s t : State} {r : Answer} (h : extractLoop n c s = .ok r t) : r = .accepted := by
  induction n generalizing s with
  | zero => cases h
  | succ n ih =>
    unfold extractLoop at h
    split at h
    · cases h
    · cases h; rfl
    · exact ih h
    · exact ih h

theorem feed_ok {c : Nat} {b : List Byte} {s t : State} {r : Answer} (h : feed c b s = .ok r t) :
    r = .rejected ∨ r = .accepted := by
  unfold feed at h
  split at h
  · cases h
  · split at h
    · cases h
    · split at h
      · cases h; exact .inl rfl
      · exact .inr (extractLoop_ok h)

/-- The result of a step that went on: neither the refusal REF_STATE nor a hold (R250). -/
def WentOn (r : Answer) : Prop := r ≠ .refused .state ∧ r ≠ .held

/-- What the body of a command answers is a result of its own. -/
theorem body_wentOn {i : Instr} {s t : State} {r : Answer} (hc : isCommand i = true) (h : body i s = .ok r t) : WentOn r := by
  cases i
  case init dev =>
    cases h
    split <;> exact ⟨nofun, nofun⟩
  case write =>
    simp only [body, writeFrame] at h
    split at h <;> cases h <;> exact ⟨nofun, nofun⟩
  case register =>
    simp only [body, registerEntry] at h
    split at h <;> cases h <;> exact ⟨nofun, nofun⟩
  case feed => rcases feed_ok h with rfl | rfl <;> exact ⟨nofun, nofun⟩
  case verify b =>
    cases h
    unfold verifyAnswer
    split <;> exact ⟨nofun, nofun⟩
  case close | getdesc | cksum | encode => cases h; exact ⟨nofun, nofun⟩
  all_goals cases hc

/-- A command that is performed ends in a next state, whose answer is its result or its fault. -/
theorem finish_wentOn {x : Flow Answer} (h : ∀ r s, x = .ok r s → WentOn r) (a : Agent) :
    ∃ t, finish a x = .next t ∧ WentOn t.answer := by
  cases x with
  | ok r s => exact ⟨_, rfl, h r s rfl⟩
  | stop k s => exact ⟨_, rfl, nofun, nofun⟩

/-- Settles O14: where the table has no, REF_STATE is the first refusal that applies; where it has yes, the operands are refused or
the command is performed. -/
theorem admissionFollowsTheTable : Obligations.AdmissionFollowsTheTable := by
  intro i s a hi hs hc hw
  refine ⟨exec_state_refused hi hs hc hw, fun ha => ?_⟩
  by_cases hd : operandsInDomain i s = true
  · have hserve : CanServe s (performer s) := by rwa [performer_port s a hi]
    have hissue : mayIssue (issuedBy i) s = true := by rwa [mayIssue_port _ s a hi]
    rw [exec_eq_command i s hc, command_run s _ _ _ _ hserve hissue ha hd]
    exact finish_wentOn (fun _ _ => body_wentOn hc) _
  · exact ⟨_, exec_operand_refused hi hs hc hw ha hd, nofun, nofun⟩

/-! ### Faulted agents (R245) -/

/-- Settles O17: an agent that has faulted is stalled, and every operation of a stalled agent is held. -/
theorem faultedAgentsAreHeld : Obligations.FaultedAgentsAreHeld := exec_halted

/-! ### The lifecycle (R31, R251) -/

/-- From `s` to `t` the lifecycle stays, takes INIT's outcome, or is closed by CLOSE.JOIN once the Worker has stopped. -/
def LifeMove (s t : State) : Prop :=
  t.life = s.life ∨ (s.life = .uninit ∧ (t.life = .running ∨ t.life = .failed)) ∨
  (s.life = .running ∧ s.ls = .stopped ∧ t.life = .closed)

theorem AsmFrame.life_eq {c : Nat} {s t : State} (h : AsmFrame c s t) : t.life = s.life := by rw [h.1]

/-- Of the effects only INIT's and CLOSE.JOIN's write the lifecycle state. -/
theorem Effect.lifeMove {s v : State} (h : Effect s v) : LifeMove s v := by
  cases h
  case init ok _ _ hl =>
    cases ok with
    | true => exact .inr (.inl ⟨hl, .inl rfl⟩)
    | false => exact .inr (.inl ⟨hl, .inr rfl⟩)
  case join hl hs => exact .inr (.inr ⟨hl, hs, rfl⟩)
  case feed c b _ _ => exact .inl (feed_frame c b s).life_eq
  case extract c _ _ => exact .inl (extract_frame c s).life_eq
  case framecb c w _ _ => exact .inl (canFramecb_frame c c w s).life_eq
  case routed hf => exact .inl (feed_ok_frame hf).life_eq
  case routedFault hf => exact .inl (feed_stop_frame hf).life_eq
  case xfer a _ _ _ _ _ _ => cases a <;> exact .inl rfl
  all_goals exact .inl rfl

/-- Settles O55: a step moves the lifecycle as its effect does. -/
theorem lifecycleMovesOnlyForward : Obligations.LifecycleMovesOnlyForward := by
  intro s t h
  obtain ⟨u, v, ⟨_, _, _, rfl⟩, hv, hlife, _⟩ := step_sequencer h
  have hm : LifeMove s v := hv.lifeMove
  unfold LifeMove at hm
  rwa [← hlife] at hm

end Sys2Proof.Machine
end

section
/-! PROOF. The hazards (spec file 70): when the filter table is written and what it never loses (R92, R181), and where a frame is
dispatched while RUNNING (R280). -/

namespace Sys2Proof.Machine

/-! ### The filter table (R92, R181) -/

/-- From `s` to `t` the filter table stays, or, while not RUNNING, its lowest free slot is filled (R180). -/
def TableMove (s t : State) : Prop :=
  t.ft = s.ft ∨ (s.life ≠ .running ∧ ∃ i e, freeSlot 0 s.ft = some i ∧ t.ft = s.ft.set i (some e))

theorem AsmFrame.ft_eq {c : Nat} {s t : State} (h : AsmFrame c s t) : t.ft = s.ft := by rw [h.1]

/-- Of the effects only REGISTER's writes the table. -/
theorem Effect.tableMove {s v : State} (h : Effect s v) : TableMove s v := by
  cases h
  case register e i hl hi => exact .inr ⟨hl, i, e, hi, rfl⟩
  case feed c b _ _ => exact .inl (feed_frame c b s).ft_eq
  case extract c _ _ => exact .inl (extract_frame c s).ft_eq
  case framecb c w _ _ => exact .inl (canFramecb_frame c c w s).ft_eq
  case routed hf => exact .inl (feed_ok_frame hf).ft_eq
  case routedFault hf => exact .inl (feed_stop_frame hf).ft_eq
  case init ok _ _ _ => cases ok <;> exact .inl rfl
  case xfer a _ _ _ _ _ _ => cases a <;> exact .inl rfl
  all_goals exact .inl rfl

theorem TableMove.ft_eq_of_running {s t : State} (h : TableMove s t) (hl : s.life = .running) : t.ft = s.ft :=
  h.resolve_right fun hmove => hmove.1 hl

/-- The slot that is filled was free, so it is none of the used ones. -/
theorem TableMove.keeps_used_slot {s t : State} (h : TableMove s t) {i : Nat} {e : FilterEntry}
    (hused : s.ft[i]? = some (some e)) : t.ft[i]? = some (some e) := by
  rcases h with hkept | ⟨_, j, d, hfree, hset⟩
  · rw [hkept, hused]
  · have hj : s.ft[j]? = some none := (freeSlot_some s.ft 0 j hfree).2.1
    have hne : j ≠ i := fun heq => by simp [← heq, hj] at hused
    rw [hset, List.getElem?_set_ne hne, hused]

/-! ### Dispatches while RUNNING (R280) -/

/-- What an exchange logs is its record and its failure (R219). -/
theorem exchange_logs_no_dispatch {tx : Bytes 16} {k : TxKind} {a : XferAnswer} {s : State} {es : List Event} {e : Event}
    (h : (exchange tx k a s).evlog = s.evlog ++ es) (hm : e ∈ es) : isDispatchEvent e = false := by
  cases a with
  | received w =>
    obtain rfl : [Event.xfer tx k true (some w)] = es := List.append_cancel_left h
    obtain rfl := List.mem_singleton.1 hm
    rfl
  | failed =>
    obtain rfl : [Event.xfer tx k false none, .xferFail] = es := List.append_cancel_left ((List.append_assoc _ _ _).symm.trans h)
    rcases List.mem_pair.1 hm with rfl | rfl <;> rfl

/-- While RUNNING no sub-operation and no FEED stands alone, so a frame is dispatched only by the FEED of TICK.RX. -/
theorem Effect.dispatches_only_at_rx {s v : State} (h : Effect s v) (hl : s.life = .running) {es : List Event} {e : Event}
    (hlog : v.evlog = s.evlog ++ es) (hm : e ∈ es) (hd : isDispatchEvent e = true) : Active s ∧ s.ph = .rx := by
  have unlogged : v.evlog = s.evlog → Active s ∧ s.ph = .rx := fun hsame => by
    rw [List.self_eq_append_right.1 (hsame.symm.trans hlog)] at hm
    cases hm
  cases h
  case init hu => simp [hl] at hu
  case feed hn => exact absurd hl hn
  case extract hn => exact absurd hl hn
  case framecb hn => exact absurd hl hn
  case dispatch hn => exact absurd hl hn
  case discard ha hp => exact ⟨ha, hp⟩
  case routed ha hp _ _ => exact ⟨ha, hp⟩
  case routedFault ha hp _ _ => exact ⟨ha, hp⟩
  case xfer => simp [exchange_logs_no_dispatch hlog hm] at hd
  all_goals exact unlogged rfl

/-- A step has one effect, and neither taking its input nor the way it ends is written into the table or the log. -/
theorem step_table_and_log {s t : State} (h : step s = .next t) :
    ∃ u v, Consumed s u ∧ Effect u v ∧ t.ft = v.ft ∧ t.evlog = v.evlog := by
  obtain ⟨u, v, hu, hv, hend⟩ := step_effect s t h
  refine ⟨u, v, hu, hv, ?_⟩
  rcases hend with ⟨r, rfl⟩ | ⟨r, _, rfl⟩ | ⟨k, a, rfl⟩ <;> exact ⟨rfl, rfl⟩

/-- Settles O57: a step moves the table, and logs a dispatch, as its effect does. -/
theorem filterTableIsWrittenOnlyBeforeOrAfterRunning : Obligations.FilterTableIsWrittenOnlyBeforeOrAfterRunning := by
  intro s t h
  obtain ⟨u, v, ⟨_, _, _, rfl⟩, hv, hft, hlog⟩ := step_table_and_log h
  rw [hft, hlog]
  exact ⟨hv.tableMove.ft_eq_of_running, fun hl _ _ he hm hd => hv.dispatches_only_at_rx hl he hm hd,
    fun _ _ => hv.tableMove.keeps_used_slot⟩

end Sys2Proof.Machine
end
